-- ==== Sys2Proof/Word.lean ====
section
/-! DEFINITION. The word types of NMQ-CORE (spec/00_scope.md R10): bytes, the fixed-width header and checksum words,
and the opaque element. -/

namespace Sys2Proof

/-- A byte of payload memory or of a packet (20_memory R50, 30_encoding R93). -/
abbrev Byte := BitVec 8

/-- A 32-bit lane or header field (30_encoding R91, R105). -/
abbrev Word32 := BitVec 32

/-- A 64-bit lane or header field (30_encoding R91, R105). -/
abbrev Word64 := BitVec 64

/-- One ring-buffer element: `ELEM_BITS` opaque bits (10_state R28) as the natural number below `2 ^ ELEM_BITS` they
spell. The bound is `Instr.wf` on requests and part of `Inv` on the state (DESIGN CHOICE, log 6). -/
abbrev Elem := Nat

end Sys2Proof
end

