-- ==== Sys2Proof/Config.lean ====
section
/-! DEFINITION. What an instance fixes at construction (spec/00_scope.md R8) and the model's two free values. -/

namespace Sys2Proof

/-- The two command ports, one per role (60_exceptions R240, R244). -/
inductive Port where
  | P   -- the producer's port
  | C   -- the consumer's port
deriving DecidableEq, Repr, Inhabited

/-- Whoever can take the next step of a run (00_scope R17). -/
inductive Agent where
  | port (x : Port)
  | host
deriving DecidableEq, Repr, Inhabited

/-- The four flags that have a name (30_encoding R109). -/
inductive FlagName where
  | compressed
  | encrypted
  | persistent
  | priority
deriving DecidableEq, Repr

/-- The configuration map `flagbit`: the bit position of each named flag (30_encoding R110). -/
structure FlagMap where
  compressed : Nat
  encrypted  : Nat
  persistent : Nat
  priority   : Nat
deriving DecidableEq, Repr

/-- Which total function from byte sequences to 32 bits the instance uses as `crc32` (43_checksum R196). -/
inductive CrcVariant where
  /-- The default, CRC-32/ISO-HDLC (43_checksum R191). -/
  | isoHdlc
  /-- Any other function: the one numbered `k` of the uninterpreted family `Config.otherCrc` (log 7). -/
  | other (k : Nat)
deriving DecidableEq, Repr

/-- The configuration record (00_scope R8). The same in every state of a run (70_reset R262). -/
structure Config where
  K         : Nat         -- log2 of the capacity
  elemBits  : Nat         -- ELEM_BITS, width of one element
  cntBits   : Nat         -- CNT_BITS, width of a count
  paddrBits : Nat         -- PADDR_BITS, width of a payload address
  crc       : CrcVariant  -- the checksum function
  flags     : FlagMap     -- flagbit
deriving DecidableEq, Repr

/-- `CAPACITY = 2^K`, the number of slots (10_state R27). -/
def Config.capacity (c : Config) : Nat := 2 ^ c.K

/-- The default of `flagbit`: the order in which the source lists the flags (30_encoding R110). -/
def FlagMap.default : FlagMap := { compressed := 0, encrypted := 1, persistent := 2, priority := 3 }

/-- `flagbit` as a map (30_encoding R110). -/
def Config.flagbit (c : Config) : FlagName → Nat
  | .compressed => c.flags.compressed
  | .encrypted  => c.flags.encrypted
  | .persistent => c.flags.persistent
  | .priority   => c.flags.priority

/-- The configuration `State.reset` is constructed with: the example values of 00_scope R8, the default checksum of
43_checksum R191 and the default `flagbit` of 30_encoding R110 (DESIGN CHOICE, log 5). -/
def Config.default : Config :=
  { K := 4, elemBits := 32, cntBits := 64, paddrBits := 64, crc := .isoHdlc, flags := .default }

/-- FREE VALUE (log 7): the checksum functions other than the default, about which the spec says only that each is a
total function of the byte sequence (43_checksum R190, R196). -/
opaque Config.otherCrc : Nat → List Byte → Word32

/-- FREE VALUE (log 2): who moves at the `n`-th draw when the state's schedule is used up. Nothing in the block
determines it (60_exceptions R245, 93 U16). -/
opaque Config.freeAgent : Nat → Agent

end Sys2Proof
end

