-- ==== Sys2Proof/Syntax.lean ====
section
/-! DEFINITION. The commands of NMQ-CORE (spec/30_encoding.md R94, R96), the message header (R105) and the Message
(R112). -/

namespace Sys2Proof

/-- The mnemonics of the opcode map (30_encoding R96). -/
inductive Op where
  | push | pushb | pop | popb
  | isempty | isfull | size | cap
  | crc32 | mkmsg | verify
  | fset | fclr | ftst
deriving DecidableEq, Repr

/-- The request formats (30_encoding R94). -/
inductive Format where
  | N  -- OPC
  | I  -- OPC, ITEM
  | B  -- OPC, CNT, ITEMS
  | C  -- OPC, CNT
  | A  -- OPC, ADDR, LEN
  | K  -- OPC, ID, TS, TOPIC, FLAGS, ADDR, LEN
  | M  -- OPC, MSG
  | F  -- OPC, MASK, MSG
deriving DecidableEq, Repr

/-- The 64-byte message header, field by field (30_encoding R105). Its 512 bits are `Header.toBits`. -/
structure Header where
  id        : Word64
  timestamp : Word64
  topicId   : Word32
  size      : Word32
  crc32     : Word32
  flags     : Word32
  reserved  : BitVec 256
deriving DecidableEq, Repr

/-- A Message: header and payload reference (30_encoding R112). The reference is a `PADDR_BITS`-bit address. -/
structure Msg where
  hdr  : Header
  pref : Nat
deriving DecidableEq, Repr

/-- One request, decoded: one constructor per row of the opcode table, its operands in lane order (30_encoding R94,
R96). Operands of a width set by the configuration are natural numbers (R100); `Instr.wf` holds their bounds. -/
inductive Instr where
  | push (item : Elem)
  | pushb (cnt : Nat) (items : List Elem)
  | pop
  | popb (cnt : Nat)
  | isempty
  | isfull
  | size
  | cap
  | crc32 (addr : Nat) (len : Word32)
  | mkmsg (id ts : Word64) (topic flags : Word32) (addr : Nat) (len : Word32)
  | verify (msg : Msg)
  | fset (mask : Word32) (msg : Msg)
  | fclr (mask : Word32) (msg : Msg)
  | ftst (mask : Word32) (msg : Msg)
deriving DecidableEq, Repr

/-- The opcode-table row an instruction belongs to. -/
def Instr.op : Instr → Op
  | .push _ => .push
  | .pushb _ _ => .pushb
  | .pop => .pop
  | .popb _ => .popb
  | .isempty => .isempty
  | .isfull => .isfull
  | .size => .size
  | .cap => .cap
  | .crc32 _ _ => .crc32
  | .mkmsg _ _ _ _ _ _ => .mkmsg
  | .verify _ => .verify
  | .fset _ _ => .fset
  | .fclr _ _ => .fclr
  | .ftst _ _ => .ftst

end Sys2Proof
end

