-- ==== Sys2Proof/Machine/State.lean ====
section
/-! DEFINITION. The state of NMQ-CORE (spec/10_state.md), the environment the spec names beside it (spec/00_scope.md R18),
and the state after reset (R34). Plain data throughout. -/

namespace Sys2Proof.Machine

/-- The status codes of a response (30_encoding R104). -/
inductive Status where
  | ok       -- ST_OK = 0x00
  | illegal  -- ST_ILLEGAL = 0x01
  | payload  -- ST_PAYLOAD = 0x02
deriving DecidableEq, Repr

/-- The lane a response has after `STATUS` and `RET`, if any (30_encoding R92, R95). -/
inductive ExtraLane where
  | none
  | item (e : Elem)
  | items (es : List Elem)
  | code (c : Word32)
  | msg (m : Msg)
deriving DecidableEq, Repr

/-- A response packet (30_encoding R92). -/
structure Response where
  status : Status
  ret    : Nat
  extra  : ExtraLane
deriving DecidableEq, Repr

/-- A command that has been answered: its request and its response. `req = none` is an illegal request whose packet is no
request of the table, so that none was read (30_encoding R98; log 15). -/
structure Done where
  req  : Option Instr
  resp : Response
deriving DecidableEq, Repr

/-- The names of the micro-steps (10_state R21 `X.ph`; files 40 to 44). -/
inductive Phase where
  | pu1 | pu2 | pu3 | pu4    -- PUSH (40_push R131)
  | pb1 | pb2 | pb3 | pb4    -- PUSHB (40_push R136)
  | po1 | po2 | po3 | po4    -- POP (41_pop R151)
  | pc1 | pc2 | pc3 | pc4    -- POPB (41_pop R156)
  | qp1 | qp2 | qc1 | qc2    -- a query on port P, on port C (42_query R174)
  | ck0 | ck1 | ck2          -- the checksum loop; at ck2 the command also answers (43_checksum R194; log 17)
  | only                     -- the one micro-step of CAP, FSET, FCLR, FTST (42_query R176, 44_envelope R216 to R218)
deriving DecidableEq, Repr

/-- What a master has to present: a request packet, or one of the retry loops of 30_encoding R103. `tried` says that the
loop has presented at least one request, so that the port's last response is its own. -/
inductive MasterLine where
  | request (pkt : List Byte)
  | spinPush (item : Elem) (tried : Bool)
  | spinPop (tried : Bool)
  | pushAll (items : List Elem) (tried : Bool)
deriving DecidableEq, Repr

/-- What the host can do to the block while it runs (70_reset R270, R261; 20_memory R53; 44_envelope R222). -/
inductive HostAct where
  | write (addr : Nat) (b : Byte)   -- write a payload byte (and make it readable)
  | withdraw (addr : Nat)           -- take a payload byte away: a later read of it is refused
  | reset                           -- reset the block
deriving DecidableEq, Repr

/-- Payload memory (20_memory R50, R53): the readable bytes by address, addresses strictly rising. A read of an address
that is not listed is refused (20_memory R66; log 10). -/
abbrev Memory := List Host.Cell

/-- The slot array (10_state R28, R29): the slots that hold a value, by index, indices strictly rising. A slot that is
not listed holds no value. -/
abbrev SlotArray := List (Nat × Elem)

/-- One port: its latches (10_state R21) and the streams of its master (00_scope R18). -/
structure PortState where
  busy  : Bool              -- a command is in flight
  req   : Instr             -- the latched request
  ph    : Phase             -- the next micro-step
  h     : Nat               -- value loaded from `head`, K bits
  t     : Nat               -- value loaded from `tail`, K bits
  n     : Nat               -- number of elements a batch moves, CNT_BITS bits
  i     : Nat               -- loop index
  acc   : Word32            -- running checksum register
  bytes : List Byte         -- the bytes a checksum loop has read, in order (43_checksum R194)
  out   : List Elem         -- the elements read so far by POP or POPB
  lines : List MasterLine   -- what the master still has to present
  done  : List Done         -- the commands answered since reset, oldest first
deriving DecidableEq, Repr

/-- The machine and its environment. -/
structure State where
  cfg   : Config          -- the configuration, constant along a run (70_reset R262)
  head  : Nat             -- next write position, K bits (10_state R24)
  tail  : Nat             -- next read position, K bits (10_state R25)
  slots : SlotArray       -- the slot array (10_state R28)
  portP : PortState       -- the producer's port
  portC : PortState       -- the consumer's port
  mem   : Memory          -- payload memory, the host's (20_memory R53)
  past  : List Done       -- the model's own: what was answered before the last reset (60_exceptions R252; log 27)
  host  : List HostAct    -- what the host will do, in order
  sched : List Agent      -- who moves next, in order (20_memory R70)
  tick  : Nat             -- the model's own: agents drawn so far (log 2)
  turn  : Port            -- the model's own: the port whose micro-step is being performed (log 3)
deriving DecidableEq, Repr

/-- Reasons the machine stops with a fault. All are safe: the model stops where the hardware, by the spec's rules, never
arrives. -/
inductive Fault where
  /-- `SlotRead` of a slot nothing has written since reset (10_state R29). Raised by POP at PO3 and POPB at PC3; no state
  that meets `Inv` reaches it. Safe. -/
  | slotNeverWritten (index : Nat)
  /-- The port's phase is not a micro-step of the command in flight. Raised by every command of more than one micro-step;
  no state that meets `Inv` reaches it. Safe (log 14). -/
  | phaseNotOfCommand (ph : Phase)
  /-- The command in flight has no operand or latch where its micro-step needs one: `ITEMS[P.i]` of a PUSHB beyond the
  packet's elements, or no element in `C.out` when POP answers. No state that meets `Inv` reaches it. Safe (log 14). -/
  | latchMissing (ph : Phase)
deriving DecidableEq, Repr

/-- Reasons the model gives a step no meaning. All are safe: the run stops. -/
inductive Refusal where
  /-- An instruction of the table that has no meaning yet. Raised only by `exec`'s arms. Safe. -/
  | notModelled (mnemonic : String)
  /-- The master's packet has a legal opcode but not the bytes of its format: it cannot be presented (30_encoding R99,
  93 U14). Raised by the step when it reads the packet. Safe (log 11). -/
  | malformedRequest (pkt : List Byte)
  /-- The host writes or withdraws a byte at an address `PADDR_BITS` bits cannot spell: payload memory has no such byte
  (20_memory R50). Raised by the step at a host action. Safe (log 9). -/
  | noSuchPayloadAddress (addr : Nat)
deriving DecidableEq, Repr

/-- A port after construction or reset (10_state R34): idle, nothing answered. The latches the spec leaves unspecified
take the values of log 4. `lines` is the master's stream, none of the block's. -/
def PortState.idle (lines : List MasterLine) : PortState :=
  { busy := false, req := .cap, ph := .only, h := 0, t := 0, n := 0, i := 0, acc := 0, bytes := [], out := [],
    lines := lines, done := [] }

/-- A newly constructed instance (70_reset R260: construction ends with a reset), in an environment that has nothing to
present, no payload byte and no schedule. -/
def State.construct (c : Config) : State :=
  { cfg := c, head := 0, tail := 0, slots := [], portP := .idle [], portC := .idle [], mem := [], past := [], host := [],
    sched := [], tick := 0, turn := .P }

/-- The machine right after reset (10_state R34, 70_reset R260), in the configuration of log 5. -/
def State.reset : State := .construct Config.default

end Sys2Proof.Machine
end

