-- ==== Sys2Proof/Machine/Flags.lean ====
section
/-! DEFINITION. The flags field of a message header (spec/30_encoding.md R109, R110; spec/44_envelope.md R216 to R220).
The block itself has no status flags (spec/10_state.md R31). -/

namespace Sys2Proof.Machine

/-- Flag set, OR (44_envelope R216). -/
def flagsSet (flags mask : Word32) : Word32 := flags ||| mask

/-- Flag clear, AND-NOT (44_envelope R217). -/
def flagsClear (flags mask : Word32) : Word32 := flags &&& ~~~mask

/-- Flag test, AND: true when at least one bit of the mask is set (44_envelope R218). -/
def flagsTest (flags mask : Word32) : Bool := (flags &&& mask) != 0

/-- The one-bit mask of a named flag (30_encoding R110). -/
def flagMask (c : Config) (f : FlagName) : Word32 := 1#32 <<< c.flagbit f

/-- A Message with its `flags` field replaced and every other bit copied unchanged (44_envelope R216). -/
def withFlags (m : Msg) (flags : Word32) : Msg := { m with hdr := { m.hdr with flags := flags } }

end Sys2Proof.Machine
end

