-- ==== Sys2Proof/WellFormed.lean ====
section
/-! DEFINITION. Which configurations and which requests exist (spec/00_scope.md R8, spec/30_encoding.md R91, R99). -/

namespace Sys2Proof

/-- `flagbit` is an injective map into bit positions 0 to 31 (30_encoding R110, 93 U9). -/
def FlagMap.wf (f : FlagMap) : Bool :=
  decide (f.compressed < 32) && decide (f.encrypted < 32) && decide (f.persistent < 32) && decide (f.priority < 32) &&
  decide ([f.compressed, f.encrypted, f.persistent, f.priority].Nodup)

/-- The constraints the spec puts on the configuration record (00_scope R8). -/
def Config.wf (c : Config) : Bool :=
  decide (1 ≤ c.elemBits) &&
  decide (c.cntBits % 8 = 0) && decide (c.K + 1 ≤ c.cntBits) &&
  decide (c.paddrBits % 8 = 0) && decide (8 ≤ c.paddrBits) &&
  c.flags.wf

/-- A Message's payload reference is a payload address (30_encoding R112). -/
def Msg.wf (c : Config) (m : Msg) : Bool := decide (m.pref < 2 ^ c.paddrBits)

/-- Every lane fits its width and a format `B` request carries exactly `CNT` elements (30_encoding R91, R99, R100). -/
def Instr.wf (c : Config) : Instr → Bool
  | .push item => decide (item < 2 ^ c.elemBits)
  | .pushb cnt items =>
    decide (cnt < 2 ^ c.cntBits) && decide (items.length = cnt) && items.all (fun e => decide (e < 2 ^ c.elemBits))
  | .pop => true
  | .popb cnt => decide (cnt < 2 ^ c.cntBits)
  | .isempty => true
  | .isfull => true
  | .size => true
  | .cap => true
  | .crc32 addr _ => decide (addr < 2 ^ c.paddrBits)
  | .mkmsg _ _ _ _ addr _ => decide (addr < 2 ^ c.paddrBits)
  | .verify msg => msg.wf c
  | .fset _ msg => msg.wf c
  | .fclr _ msg => msg.wf c
  | .ftst _ msg => msg.wf c

end Sys2Proof
end

