-- ==== Sys2Proof/Decode.lean ====
section
/-! DEFINITION. Request packets in the canonical byte form (spec/30_encoding.md R93): the decoder, total on any bytes
and rejecting by name, and after it the encoder, both written from the format table R94 and the opcode map R96. -/

namespace Sys2Proof

/-! ### Byte order (20_memory R56, 30_encoding R93, R106) -/

/-- The `n` low bytes of `v`, least significant first. -/
def leBytes : Nat → Nat → List Byte
  | 0, _ => []
  | n + 1, v => BitVec.ofNat 8 v :: leBytes n (v / 256)

/-- The number a byte sequence spells, least significant byte first. -/
def leValue : List Byte → Nat
  | [] => 0
  | b :: bs => b.toNat + 256 * leValue bs

/-- A lane of `bits` bits takes a whole number of bytes, padded with zero bits at the top (30_encoding R93). -/
def laneBytes (bits : Nat) : Nat := (bits + 7) / 8

/-! ### The message header as 512 bits (30_encoding R105, R106) -/

/-- The header as the 512-bit value `hdr` of 20_memory R57: the first field lowest. -/
def Header.toBits (h : Header) : BitVec 512 :=
  h.reserved ++ h.flags ++ h.crc32 ++ h.size ++ h.topicId ++ h.timestamp ++ h.id

/-- The fields of a 512-bit header, at the bit positions of the table of 30_encoding R105. -/
def Header.ofBits (v : BitVec 512) : Header :=
  { id := v.extractLsb' 0 64, timestamp := v.extractLsb' 64 64, topicId := v.extractLsb' 128 32,
    size := v.extractLsb' 160 32, crc32 := v.extractLsb' 192 32, flags := v.extractLsb' 224 32,
    reserved := v.extractLsb' 256 256 }

/-- A Message as a ring-buffer element, `msg = pref ++ hdr` (30_encoding R112). -/
def Msg.toElem (m : Msg) : Elem := m.hdr.toBits.toNat + 2 ^ 512 * m.pref

/-- The Message an element spells (30_encoding R112). -/
def Msg.ofElem (e : Elem) : Msg := { hdr := Header.ofBits (BitVec.ofNat 512 e), pref := e / 2 ^ 512 }

/-! ### The opcode map (30_encoding R96, R97) -/

/-- The `OPC` value of each mnemonic (30_encoding R96). -/
def Op.code : Op → Byte
  | .push => 0x01
  | .pushb => 0x02
  | .pop => 0x11
  | .popb => 0x12
  | .isempty => 0x20
  | .isfull => 0x21
  | .size => 0x22
  | .cap => 0x23
  | .crc32 => 0x30
  | .mkmsg => 0x31
  | .verify => 0x32
  | .fset => 0x40
  | .fclr => 0x41
  | .ftst => 0x42

/-- The fourteen rows of the opcode map, in the table's order. -/
def Op.all : List Op :=
  [.push, .pushb, .pop, .popb, .isempty, .isfull, .size, .cap, .crc32, .mkmsg, .verify, .fset, .fclr, .ftst]

/-- The row an `OPC` byte selects; every other value is reserved (30_encoding R98). -/
def Op.ofCode (b : Byte) : Option Op := Op.all.find? (fun o => o.code == b)

/-- The request format of each mnemonic (30_encoding R96). -/
def Op.format : Op → Format
  | .push => .I
  | .pushb => .B
  | .pop => .N
  | .popb => .C
  | .isempty => .N
  | .isfull => .N
  | .size => .N
  | .cap => .N
  | .crc32 => .A
  | .mkmsg => .K
  | .verify => .M
  | .fset => .F
  | .fclr => .F
  | .ftst => .F

/-- Port acceptance (30_encoding R97): the push family on `P` only, the pop family on `C` only, the other ten on both. -/
def Op.accepts : Op → Port → Bool
  | .push, .C => false
  | .pushb, .C => false
  | .pop, .P => false
  | .popb, .P => false
  | _, _ => true

/-! ### The decoder (30_encoding R101) -/

/-- Why a packet is no request of the opcode map. -/
inductive Reject where
  /-- The packet has no byte, so no `OPC` lane. -/
  | noOpcode
  /-- `OPC` is reserved (30_encoding R98). -/
  | reservedOpcode (opc : Byte)
  /-- The packet ends inside a lane of its format (30_encoding R99, 93 U14). -/
  | truncated
  /-- A padding bit above a lane's width is not zero (30_encoding R93). -/
  | padding
  /-- Bytes follow the last lane of the format (30_encoding R99, 93 U14). -/
  | trailing
deriving DecidableEq, Repr

/-- What a decoder step gives: a value and the bytes after it, or a rejection by name. -/
abbrev Parsed (α : Type) := Except Reject (α × List Byte)

/-- The next lane is read from the bytes the last one left; the first rejection ends the reading. -/
def andThen {α β : Type} (p : Parsed α) (f : α → List Byte → Parsed β) : Parsed β :=
  match p with
  | .error r => .error r
  | .ok (v, bs) => f v bs

/-- One lane of `bits` bits (30_encoding R93). -/
def takeLane (bits : Nat) (bs : List Byte) : Parsed Nat :=
  if bs.length < laneBytes bits then .error .truncated
  else
    let v := leValue (bs.take (laneBytes bits))
    if v < 2 ^ bits then .ok (v, bs.drop (laneBytes bits)) else .error .padding

/-- A sequence lane of `n` elements, element 0 first, each padded to whole bytes by itself: R93 pads "every lane" and does
not say whether a sequence is padded per element or once (DESIGN CHOICE, log 26). -/
def takeLanes (bits : Nat) : Nat → List Byte → Parsed (List Nat)
  | 0, bs => .ok ([], bs)
  | n + 1, bs =>
    andThen (takeLane bits bs) fun v bs =>
    andThen (takeLanes bits n bs) fun vs bs =>
    .ok (v :: vs, bs)

/-- A lane of fixed width `w` as a bit vector. -/
def takeWord (w : Nat) (bs : List Byte) : Parsed (BitVec w) :=
  andThen (takeLane w bs) fun v bs =>
  .ok (BitVec.ofNat w v, bs)

/-- A `MSG` lane: the 64 header bytes, then the payload reference (30_encoding R93, R112). -/
def takeMsg (c : Config) (bs : List Byte) : Parsed Msg :=
  andThen (takeWord 512 bs) fun h bs =>
  andThen (takeLane c.paddrBits bs) fun p bs =>
  .ok ({ hdr := Header.ofBits h, pref := p }, bs)

/-- The operand lanes of a row, in the order of its format (30_encoding R94). -/
def takeOperands (c : Config) : Op → List Byte → Parsed Instr
  | .push, bs =>
    andThen (takeLane c.elemBits bs) fun item bs =>
    .ok (.push item, bs)
  | .pushb, bs =>
    andThen (takeLane c.cntBits bs) fun cnt bs =>
    andThen (takeLanes c.elemBits cnt bs) fun items bs =>
    .ok (.pushb cnt items, bs)
  | .pop, bs => .ok (.pop, bs)
  | .popb, bs =>
    andThen (takeLane c.cntBits bs) fun cnt bs =>
    .ok (.popb cnt, bs)
  | .isempty, bs => .ok (.isempty, bs)
  | .isfull, bs => .ok (.isfull, bs)
  | .size, bs => .ok (.size, bs)
  | .cap, bs => .ok (.cap, bs)
  | .crc32, bs =>
    andThen (takeLane c.paddrBits bs) fun addr bs =>
    andThen (takeWord 32 bs) fun len bs =>
    .ok (.crc32 addr len, bs)
  | .mkmsg, bs =>
    andThen (takeWord 64 bs) fun id bs =>
    andThen (takeWord 64 bs) fun ts bs =>
    andThen (takeWord 32 bs) fun topic bs =>
    andThen (takeWord 32 bs) fun flags bs =>
    andThen (takeLane c.paddrBits bs) fun addr bs =>
    andThen (takeWord 32 bs) fun len bs =>
    .ok (.mkmsg id ts topic flags addr len, bs)
  | .verify, bs =>
    andThen (takeMsg c bs) fun msg bs =>
    .ok (.verify msg, bs)
  | .fset, bs =>
    andThen (takeWord 32 bs) fun mask bs =>
    andThen (takeMsg c bs) fun msg bs =>
    .ok (.fset mask msg, bs)
  | .fclr, bs =>
    andThen (takeWord 32 bs) fun mask bs =>
    andThen (takeMsg c bs) fun msg bs =>
    .ok (.fclr mask msg, bs)
  | .ftst, bs =>
    andThen (takeWord 32 bs) fun mask bs =>
    andThen (takeMsg c bs) fun msg bs =>
    .ok (.ftst mask msg, bs)

/-- One request from the front of a byte sequence, and the bytes after it: `OPC` first, then the lanes its format
fixes (30_encoding R101). -/
def decode (c : Config) : List Byte → Parsed Instr
  | [] => .error .noOpcode
  | opc :: bs =>
    match Op.ofCode opc with
    | none => .error (.reservedOpcode opc)
    | some o => takeOperands c o bs

/-- A whole packet: exactly one request (30_encoding R90, R99). -/
def decodePacket (c : Config) (pkt : List Byte) : Except Reject Instr :=
  match decode c pkt with
  | .error r => .error r
  | .ok (i, []) => .ok i
  | .ok (_, _ :: _) => .error .trailing

/-- A port sees `OPC` first: the request is illegal on port `x` when `OPC` is reserved or the port refuses it, whatever
follows (30_encoding R98, 60_exceptions R235). -/
def illegalOn (x : Port) : List Byte → Bool
  | [] => false
  | opc :: _ =>
    match Op.ofCode opc with
    | none => true
    | some o => !o.accepts x

/-- The number of bytes of a request that begins with `bs`, lanes beyond `bs` read as zero; none for a reserved or absent
opcode (30_encoding R101). An `ITEMS` lane counts whole bytes per element (DESIGN CHOICE, log 26). -/
def requestLength (c : Config) : List Byte → Option Nat
  | [] => none
  | opc :: bs =>
    let el := laneBytes c.elemBits
    let cn := laneBytes c.cntBits
    let pa := laneBytes c.paddrBits
    match (Op.ofCode opc).map Op.format with
    | none => none
    | some .N => some 1
    | some .I => some (1 + el)
    | some .B => some (1 + cn + leValue (bs.take cn) * el)
    | some .C => some (1 + cn)
    | some .A => some (1 + pa + 4)
    | some .K => some (1 + 8 + 8 + 4 + 4 + pa + 4)
    | some .M => some (1 + 64 + pa)
    | some .F => some (1 + 4 + 64 + pa)

/-! ### The encoder (30_encoding R93, R94) -/

/-- The bytes of one lane of `bits` bits. -/
def putLane (bits v : Nat) : List Byte := leBytes (laneBytes bits) v

/-- The bytes of a `MSG` lane. -/
def putMsg (c : Config) (m : Msg) : List Byte := putLane 512 m.hdr.toBits.toNat ++ putLane c.paddrBits m.pref

/-- The canonical byte form of a request (30_encoding R93). The elements of `ITEMS` are padded one by one (DESIGN CHOICE,
log 26). -/
def encode (c : Config) : Instr → List Byte
  | .push item => Op.push.code :: putLane c.elemBits item
  | .pushb cnt items => Op.pushb.code :: (putLane c.cntBits cnt ++ items.flatMap (putLane c.elemBits))
  | .pop => [Op.pop.code]
  | .popb cnt => Op.popb.code :: putLane c.cntBits cnt
  | .isempty => [Op.isempty.code]
  | .isfull => [Op.isfull.code]
  | .size => [Op.size.code]
  | .cap => [Op.cap.code]
  | .crc32 addr len => Op.crc32.code :: (putLane c.paddrBits addr ++ putLane 32 len.toNat)
  | .mkmsg id ts topic flags addr len =>
    Op.mkmsg.code :: (putLane 64 id.toNat ++ putLane 64 ts.toNat ++ putLane 32 topic.toNat ++ putLane 32 flags.toNat ++
      putLane c.paddrBits addr ++ putLane 32 len.toNat)
  | .verify msg => Op.verify.code :: putMsg c msg
  | .fset mask msg => Op.fset.code :: (putLane 32 mask.toNat ++ putMsg c msg)
  | .fclr mask msg => Op.fclr.code :: (putLane 32 mask.toNat ++ putMsg c msg)
  | .ftst mask msg => Op.ftst.code :: (putLane 32 mask.toNat ++ putMsg c msg)

/-! ### The host's two questions about the table -/

/-- The packet whose first `nbits` bits are `w` (bit 0 the least significant of the first byte) and whose other lanes
are zero, exactly as long as its format says; the given bytes alone where the opcode is reserved. -/
def tablePacket (c : Config) (nbits w : Nat) : List Byte :=
  let given := leBytes (laneBytes nbits) w
  match requestLength c given with
  | none => given
  | some n => given ++ leBytes (n - given.length) 0

/-- The instruction this decoder reads from a table word (the configuration is `State.reset`'s). -/
def decodeTableWord (nbits w : Nat) : Option Instr :=
  match decodePacket Config.default (tablePacket Config.default nbits w) with
  | .ok i => some i
  | .error _ => none

end Sys2Proof
end

