-- ==== Sys2Proof/Machine/Operands.lean ====
section
/-! DEFINITION. Cursor arithmetic (spec/20_memory.md R78, R79; spec/10_state.md R35), payload ranges (R52) and the
response packets (spec/30_encoding.md R92, R93). -/

namespace Sys2Proof.Machine

/-! ### Index arithmetic, unsigned and modulo `CAPACITY` (20_memory R78) -/

/-- `(v + n) mod CAPACITY`: a cursor moved on, or a slot index of base plus loop index (20_memory R79). -/
def cursorAdd (c : Config) (v n : Nat) : Nat := (v + n) % c.capacity

/-- `(a - b) mod CAPACITY`, the mathematical remainder, by unsigned wrap-around (00_scope R10, 20_memory R78). -/
def cursorSub (c : Config) (a b : Nat) : Nat := (a + (c.capacity - b % c.capacity)) % c.capacity

/-- `next = (h + 1) mod CAPACITY` (40_push R131). -/
def nextCursor (c : Config) (v : Nat) : Nat := cursorAdd c v 1

/-- Occupancy of a pair of cursor values, `(head - tail) mod CAPACITY` (10_state R35). -/
def occOf (c : Config) (h t : Nat) : Nat := cursorSub c h t

/-- Free room of a pair of cursor values, `(tail - head - 1) mod CAPACITY` (10_state R35). -/
def roomOf (c : Config) (h t : Nat) : Nat := cursorSub c t (h + 1)

/-- Empty: `head == tail` (10_state R35). -/
def isEmptyOf (h t : Nat) : Bool := h == t

/-- Full: `(head + 1) mod CAPACITY == tail` (10_state R35). -/
def isFullOf (c : Config) (h t : Nat) : Bool := nextCursor c h == t

/-! ### Payload ranges (20_memory R52) -/

/-- A range is legal when it does not pass the top of payload memory. -/
def rangeLegal (c : Config) (addr len : Nat) : Bool := decide (addr + len ≤ 2 ^ c.paddrBits)

/-! ### Responses (30_encoding R92, R95, R104) -/

/-- The source's booleans in `RET`: 1 true, 0 false (30_encoding R92). -/
def retOfBool (b : Bool) : Nat := if b then 1 else 0

/-- `STATUS = ST_OK` with a result and no further lane. -/
def Response.okRet (ret : Nat) : Response := { status := .ok, ret := ret, extra := .none }

/-- `STATUS = ST_OK`, `RET` and one further lane. -/
def Response.okWith (ret : Nat) (extra : ExtraLane) : Response := { status := .ok, ret := ret, extra := extra }

/-- The answer to an illegal command (30_encoding R98). -/
def Response.illegal : Response := { status := .illegal, ret := 0, extra := .none }

/-- The answer to an illegal payload range or a refused payload read (20_memory R52, 60_exceptions R231). -/
def Response.payloadFault : Response := { status := .payload, ret := 0, extra := .none }

/-- The value of a status code (30_encoding R104). -/
def Status.code : Status → Byte
  | .ok => 0x00
  | .illegal => 0x01
  | .payload => 0x02

/-- The bytes of a response's further lane (30_encoding R93). The elements of `ITEMS` are padded one by one (DESIGN CHOICE,
log 26). -/
def ExtraLane.encode (c : Config) : ExtraLane → List Byte
  | .none => []
  | .item e => putLane c.elemBits e
  | .items es => es.flatMap (putLane c.elemBits)
  | .code v => putLane 32 v.toNat
  | .msg m => putMsg c m

/-- The canonical byte form of a response (30_encoding R93). -/
def Response.encode (c : Config) (r : Response) : List Byte :=
  r.status.code :: (putLane c.cntBits r.ret ++ r.extra.encode c)

end Sys2Proof.Machine
end

