-- ==== Sys2Proof/Machine/Ops.lean ====
section
/-! DEFINITION. The named operations over the state: the access primitives (spec/00_scope.md R11, spec/20_memory.md R60 to
R66), accepting a request and answering it (spec/10_state.md R23), what takes the place of an exception (the response,
spec/60_exceptions.md R231, R236), the host's actions and the fetch of the next micro-step. -/

namespace Sys2Proof.Machine

/-- What a step or a micro-step answers. -/
abbrev Result := Host.Outcome State Fault Refusal

/-! ### Cells: sparse data by number, in one canonical form -/

/-- The value listed at `a`, if any. -/
def Cells.read {α : Type} (a : Nat) : List (Nat × α) → Option α
  | [] => none
  | (k, v) :: rest => if k = a then some v else Cells.read a rest

/-- The list with `v` at `a`, numbers kept strictly rising. -/
def Cells.write {α : Type} (a : Nat) (v : α) : List (Nat × α) → List (Nat × α)
  | [] => [(a, v)]
  | (k, w) :: rest =>
    if a < k then (a, v) :: (k, w) :: rest
    else if a = k then (a, v) :: rest
    else (k, w) :: Cells.write a v rest

/-- The list with nothing at `a`. -/
def Cells.erase {α : Type} (a : Nat) : List (Nat × α) → List (Nat × α)
  | [] => []
  | (k, w) :: rest => if k = a then Cells.erase a rest else (k, w) :: Cells.erase a rest

/-- The canonical form: numbers strictly rising (an unlisted number holds no value, so no entry can equal it). -/
def Cells.wf {α : Type} (m : List (Nat × α)) : Bool := decide ((m.map Prod.fst).Pairwise (· < ·))

/-- Payload memory is in canonical form. -/
def Memory.wf (m : Memory) : Bool := Cells.wf m

/-- The slot array is in canonical form. -/
def SlotArray.wf (m : SlotArray) : Bool := Cells.wf m

/-! ### Ports -/

/-- A port's latches and streams. -/
def State.port (s : State) : Port → PortState
  | .P => s.portP
  | .C => s.portC

/-- The state with one port replaced; no operation touches the other port's latches (10_state R20). -/
def State.setPort (s : State) (x : Port) (p : PortState) : State :=
  match x with
  | .P => { s with portP := p }
  | .C => { s with portC := p }

/-- The port whose micro-step is being performed. -/
def State.here (s : State) : PortState := s.port s.turn

/-- The state with the latches of the port at `turn` replaced. -/
def State.setHere (s : State) (p : PortState) : State := s.setPort s.turn p

/-! ### Access primitives (00_scope R11) -/

/-- The two cursors. -/
inductive Cursor where
  | head
  | tail
deriving DecidableEq, Repr

/-- The orderings of a cursor load (00_scope R11). In the reference model every load returns the latest store, whatever
its ordering (20_memory R70). -/
inductive LoadOrder where
  | rlx
  | acq
deriving DecidableEq, Repr

/-- `LoadCur(c, ord)` (20_memory R60 to R62, R70). -/
def loadCur (c : Cursor) (_ord : LoadOrder) (s : State) : Nat :=
  match c with
  | .head => s.head
  | .tail => s.tail

/-- `StoreCur(c, v, rel)`: the value is stored whole and wrapped (20_memory R60, R63; 10_state R26). -/
def storeCur (c : Cursor) (v : Nat) (s : State) : State :=
  match c with
  | .head => { s with head := v % s.cfg.capacity }
  | .tail => { s with tail := v % s.cfg.capacity }

/-- `SlotRead(i)`: none for a slot that holds no value; reading clears nothing (20_memory R65, 10_state R29). -/
def slotRead (i : Nat) (s : State) : Option Elem := Cells.read i s.slots

/-- `SlotWrite(i, v)` (20_memory R64). -/
def slotWrite (i : Nat) (v : Elem) (s : State) : State := { s with slots := Cells.write i v s.slots }

/-- `MemRead(addr, 1)`: none when payload memory refuses the read (20_memory R66). There is no write: the block never
writes payload memory (20_memory R53). -/
def memRead (addr : Nat) (s : State) : Option Byte := Cells.read addr s.mem

/-! ### Accepting a request and answering it -/

/-- The first micro-step of a request on a port (files 40 to 44; 42_query R174 for the queries). -/
def firstPhase (x : Port) : Instr → Phase
  | .push _ => .pu1
  | .pushb _ _ => .pb1
  | .pop => .po1
  | .popb _ => .pc1
  | .isempty => match x with | .P => .qp1 | .C => .qc1
  | .isfull => match x with | .P => .qp1 | .C => .qc1
  | .size => match x with | .P => .qp1 | .C => .qc1
  | .cap => .only
  | .crc32 _ _ => .ck0
  | .mkmsg _ _ _ _ _ _ => .ck0
  | .verify _ => .ck0
  | .fset _ _ => .only
  | .fclr _ _ => .only
  | .ftst _ _ => .only

/-- The port at `turn` accepts a request: it is busy, the request is latched and the phase is the first micro-step
(10_state R21, R23). The other latches keep what they hold until a micro-step overwrites them (R20). -/
def accept (i : Instr) (s : State) : State :=
  s.setHere { s.here with busy := true, req := i, ph := firstPhase s.turn i }

/-- `respond(...)`: the response is emitted and the port is idle (00_scope R12, 10_state R23). -/
def respond (i : Option Instr) (r : Response) (s : State) : State :=
  s.setHere { s.here with busy := false, done := s.here.done ++ [{ req := i, resp := r }] }

/-- The port's phase moves on. -/
def goto (ph : Phase) (s : State) : State := s.setHere { s.here with ph := ph }

/-- A command in flight on the port that refuses it: no access, no state change but the response `ST_ILLEGAL` (30_encoding
R97, R98; decided before any access, 60_exceptions R235). A step never comes here from a state that meets `Inv`, because
`fetchPacket` answers such a request before it is latched (log 15). -/
def refusedByPort (i : Instr) (s : State) : Result := .next (respond (some i) .illegal s)

/-! ### The masters (30_encoding R103, 70_reset R270) -/

/-- `RET` of the last response on a port, 0 where there is none. -/
def lastRet (p : PortState) : Nat :=
  match p.done.getLast? with
  | none => 0
  | some d => d.resp.ret

/-- The packet a master presents next, given `RET` of its last response, and what it then still has to present. A retry
loop presents its request until a response ends it (30_encoding R103). -/
def present (c : Config) (last : Nat) : List MasterLine → Option (List Byte × List MasterLine)
  | [] => none
  | .request pkt :: rest => some (pkt, rest)
  | .spinPush item tried :: rest =>
    if tried && last == 1 then present c last rest
    else some (encode c (.push item), .spinPush item true :: rest)
  | .spinPop tried :: rest =>
    if tried && last == 1 then present c last rest
    else some (encode c .pop, .spinPop true :: rest)
  | .pushAll items tried :: rest =>
    let left := if tried then items.drop last else items
    if left.isEmpty then present c last rest
    else some (encode c (.pushb left.length left), .pushAll left true :: rest)

/-! ### Fetching the next micro-step -/

/-- What a step does once the schedule has named an agent. -/
inductive Fetched where
  /-- The step is over without a command's micro-step (an idle turn, a host action, an illegal request). -/
  | moved (s : State)
  /-- Port `s.turn` performs the next micro-step of command `i`. -/
  | run (i : Instr) (s : State)
  /-- The step has no meaning. -/
  | stop (r : Refusal)
deriving DecidableEq, Repr

/-- What a master has to present after a reset: a retry loop counts the response it has had, and a request that was dropped
without a response counts as not presented; the reset itself takes nothing from the master (log 18). -/
def streamAfterReset (p : PortState) : List MasterLine :=
  let last := if p.busy then 0 else lastRet p
  match p.lines with
  | .spinPush item tried :: rest => if tried && last == 1 then rest else .spinPush item false :: rest
  | .spinPop tried :: rest => if tried && last == 1 then rest else .spinPop false :: rest
  | .pushAll items tried :: rest => .pushAll (if tried then items.drop last else items) false :: rest
  | lines => lines

/-- Reset: the block's own state takes the values of 10_state R34, the latches R34 leaves unspecified those of log 4;
commands in flight are dropped without a response and live elements without delivery (70_reset R261). Payload memory and
the masters' streams are not the block's, and the responses given so far stay on record in `past`, so that a run's class
outlives the reset (60_exceptions R252; log 27). -/
def resetBlock (s : State) : State :=
  { s with
    head := 0, tail := 0, slots := [], past := s.past ++ s.portP.done ++ s.portC.done,
    portP := .idle (streamAfterReset s.portP), portC := .idle (streamAfterReset s.portC) }

/-- One action of the host (70_reset R270); an address payload memory does not have is refused (20_memory R50). -/
def hostAct (a : HostAct) (s : State) : Fetched :=
  match a with
  | .write addr b =>
    if addr < 2 ^ s.cfg.paddrBits then .moved { s with mem := Cells.write addr b s.mem }
    else .stop (.noSuchPayloadAddress addr)
  | .withdraw addr =>
    if addr < 2 ^ s.cfg.paddrBits then .moved { s with mem := Cells.erase addr s.mem }
    else .stop (.noSuchPayloadAddress addr)
  | .reset => .moved (resetBlock s)

/-- The host's turn: its next action, if it has one. -/
def fetchHost (s : State) : Fetched :=
  match s.host with
  | [] => .moved s
  | a :: rest => hostAct a { s with host := rest }

/-- The idle port at `turn` takes a packet. An illegal one, decided from `OPC` alone, is answered `ST_ILLEGAL` and changes
nothing else: it is not latched, no latch of the port changes (30_encoding R98 "changes no state"; DEDUCED, log 15). A
request of the table is accepted and begins. A legal opcode without the bytes of its format is no request (30_encoding
R99, 93 U14; log 11). -/
def fetchPacket (pkt : List Byte) (s : State) : Fetched :=
  if illegalOn s.turn pkt then .moved (respond (decodePacket s.cfg pkt).toOption .illegal s)
  else
    match decodePacket s.cfg pkt with
    | .ok i => .run i (accept i s)
    | .error _ => .stop (.malformedRequest pkt)

/-- Port `x`'s turn: the command in flight goes on, or the master's next request is taken, or nothing happens where the
port is idle and its master has nothing to present (60_exceptions R245, R249). -/
def fetchPort (x : Port) (s : State) : Fetched :=
  let s := { s with turn := x }
  if s.here.busy then .run s.here.req s
  else
    match present s.cfg (lastRet s.here) s.here.lines with
    | none => .moved s
    | some (pkt, lines) => fetchPacket pkt (s.setHere { s.here with lines := lines })

/-- Who moves, and the state with the draw made: the next entry of the schedule, or the free value past its end
(20_memory R70, 60_exceptions R245; log 2). -/
def draw (s : State) : Agent × State :=
  match s.sched with
  | a :: rest => (a, { s with sched := rest, tick := s.tick + 1 })
  | [] => (Config.freeAgent s.tick, { s with tick := s.tick + 1 })

/-- The step's agent and what it does. -/
def fetch (s : State) : Fetched :=
  match draw s with
  | (.host, t) => fetchHost t
  | (.port x, t) => fetchPort x t

/-- The state in which the very next step takes packet `pkt` on port `x`: the schedule names `x` first, the port is idle
and the packet is the first thing its master presents (log 21). -/
def withRequest (x : Port) (pkt : List Byte) (s : State) : State :=
  { s.setPort x { s.port x with busy := false, lines := .request pkt :: (s.port x).lines } with
    sched := .port x :: s.sched }

/-- The port a packet is presented on when it may be either: `C` for what only `C` accepts, else `P` (30_encoding R97). -/
def portFor (pkt : List Byte) : Port := if illegalOn .P pkt && !illegalOn .C pkt then .C else .P

/-! ### Construction (70_reset R262, R263) -/

/-- Why a generator builds no instance. -/
inductive ConstructionError where
  /-- The capacity is not `2^K` for any `K` (70_reset R263). -/
  | notPowerOfTwo
  /-- Another entry of the configuration record breaks its constraint (00_scope R8). -/
  | illegalParameter
deriving DecidableEq, Repr

/-- A generator that takes a capacity number: it rejects every value that is not a power of two and does not round
(70_reset R263). -/
def constructConfig (capacity elemBits cntBits paddrBits : Nat) (crc : CrcVariant) (flags : FlagMap) :
    Except ConstructionError Config :=
  if 2 ^ Nat.log2 capacity = capacity then
    let c : Config := { K := Nat.log2 capacity, elemBits, cntBits, paddrBits, crc, flags }
    if c.wf then .ok c else .error .illegalParameter
  else .error .notPowerOfTwo

end Sys2Proof.Machine
end

