-- ==== Sys2Proof/Machine/Checksum.lean ====
section
/-! DEFINITION. The checksum engine (spec/43_checksum.md): the `crc32` function, the checksum loop over payload memory and
the CRC32 command. -/

namespace Sys2Proof.Machine

/-! ### The function (43_checksum R191, R196) -/

/-- The generator polynomial 0x04C11DB7 in its bit-reversed form (43_checksum R191). -/
def crcPoly : Word32 := 0xEDB88320

/-- The initial register value, and the final XOR (43_checksum R191). -/
def crcOnes : Word32 := 0xFFFFFFFF

/-- One shift step of the inner loop (43_checksum R191). -/
def crcShift (c : Word32) : Word32 := if c.getLsbD 0 then (c >>> 1) ^^^ crcPoly else c >>> 1

/-- `n` shift steps. -/
def crcShifts : Nat → Word32 → Word32
  | 0, c => c
  | n + 1, c => crcShifts n (crcShift c)

/-- One byte: XOR into the low bits, then eight shift steps (43_checksum R191, R194). -/
def crcByte (c : Word32) (b : Byte) : Word32 := crcShifts 8 (c ^^^ b.setWidth 32)

/-- The register after a byte sequence. -/
def crcBytes (c : Word32) (bs : List Byte) : Word32 := bs.foldl crcByte c

/-- The default function, CRC-32/ISO-HDLC (43_checksum R191). -/
def crcIsoHdlc (bs : List Byte) : Word32 := crcBytes crcOnes bs ^^^ crcOnes

/-- The configured `crc32`: one function for CRC32, MKMSG and VERIFY on both ports (43_checksum R190, R196). -/
def crc32 (c : Config) (bs : List Byte) : Word32 :=
  match c.crc with
  | .isoHdlc => crcIsoHdlc bs
  | .other k => Config.otherCrc k bs

/-! ### The loop (43_checksum R194) -/

/-- The result at CK2: from the running register for the default function, from the collected bytes for any other. -/
def crcResult (c : Config) (p : PortState) : Word32 :=
  match c.crc with
  | .isoHdlc => p.acc ^^^ crcOnes
  | .other k => Config.otherCrc k p.bytes

/-- One micro-step of `Checksum(X, addr, len)`; at CK2 the command answers with `answer result` (43_checksum R194; for
MKMSG and VERIFY the micro-step is CK2 and MK2 or VF2 together, log 17). -/
def checksumStep (i : Instr) (addr len : Nat) (answer : Word32 → Response) (s : State) : Result :=
  match s.here.ph with
  | .ck0 =>
    if rangeLegal s.cfg addr len then
      .next (goto (if len = 0 then .ck2 else .ck1) (s.setHere { s.here with acc := crcOnes, i := 0, bytes := [] }))
    else .next (respond (some i) .payloadFault s)
  | .ck1 =>
    match memRead (addr + s.here.i) s with
    | none => .next (respond (some i) .payloadFault s)
    | some b =>
      let k := s.here.i + 1
      .next (goto (if k < len then .ck1 else .ck2)
        (s.setHere { s.here with acc := crcByte s.here.acc b, i := k, bytes := s.here.bytes ++ [b] }))
  | .ck2 => .next (respond (some i) (answer (crcResult s.cfg s.here)) s)
  | ph => .fault (.phaseNotOfCommand ph)

/-- CRC32 (43_checksum R195). -/
def execCrc32 (addr : Nat) (len : Word32) (s : State) : Result :=
  checksumStep (.crc32 addr len) addr len.toNat (fun r => .okWith 1 (.code r)) s

end Sys2Proof.Machine
end

