-- ==== Sys2Proof/Machine/Envelope.lean ====
section
/-! DEFINITION. The envelope family (spec/44_envelope.md): MKMSG, VERIFY, FSET, FCLR and FTST, on both ports. -/

namespace Sys2Proof.Machine

/-- The Message MKMSG builds from its operands and the code of the payload; the reserved bytes are zero (44_envelope
R211, 30_encoding R107). -/
def makeMsg (id ts : Word64) (topic flags : Word32) (addr : Nat) (len code : Word32) : Msg :=
  { hdr := { id := id, timestamp := ts, topicId := topic, size := len, crc32 := code, flags := flags, reserved := 0 },
    pref := addr }

/-- MKMSG (44_envelope R211). -/
def execMkmsg (id ts : Word64) (topic flags : Word32) (addr : Nat) (len : Word32) (s : State) : Result :=
  checksumStep (.mkmsg id ts topic flags addr len) addr len.toNat
    (fun r => .okWith 1 (.msg (makeMsg id ts topic flags addr len r))) s

/-- VERIFY (44_envelope R213): only `size`, `crc32` and the payload reference are read from the Message. -/
def execVerify (msg : Msg) (s : State) : Result :=
  checksumStep (.verify msg) msg.pref msg.hdr.size.toNat (fun r => .okRet (retOfBool (r == msg.hdr.crc32))) s

/-- FSET (44_envelope R216). -/
def execFset (mask : Word32) (msg : Msg) (s : State) : Result :=
  .next (respond (some (.fset mask msg)) (.okWith 1 (.msg (withFlags msg (flagsSet msg.hdr.flags mask)))) s)

/-- FCLR (44_envelope R217). -/
def execFclr (mask : Word32) (msg : Msg) (s : State) : Result :=
  .next (respond (some (.fclr mask msg)) (.okWith 1 (.msg (withFlags msg (flagsClear msg.hdr.flags mask)))) s)

/-- FTST (44_envelope R218). -/
def execFtst (mask : Word32) (msg : Msg) (s : State) : Result :=
  .next (respond (some (.ftst mask msg)) (.okRet (retOfBool (flagsTest msg.hdr.flags mask))) s)

end Sys2Proof.Machine
end

