-- ==== Sys2Proof/Machine/Pop.lean ====
section
/-! DEFINITION. The pop family (spec/41_pop.md): POP and POPB, on port `C` only. Each call performs the one micro-step the
port's phase names. -/

namespace Sys2Proof.Machine

/-- POP (41_pop R151). A `SlotRead` of a never-written slot is a fault (10_state R29). -/
def execPop (s : State) : Result :=
  match s.turn with
  | .P => refusedByPort .pop s
  | .C =>
    match s.portC.ph with
    | .po1 => .next (goto .po2 (s.setHere { s.here with t := loadCur .tail .rlx s }))
    | .po2 =>
      let s := s.setHere { s.here with h := loadCur .head .acq s }
      if s.here.h = s.here.t then .next (respond (some .pop) (.okRet 0) s) else .next (goto .po3 s)
    | .po3 =>
      match slotRead (cursorAdd s.cfg s.here.t 0) s with
      | none => .fault (.slotNeverWritten (cursorAdd s.cfg s.here.t 0))
      | some e => .next (goto .po4 (s.setHere { s.here with out := [e] }))
    | .po4 =>
      match s.here.out.head? with
      | none => .fault (.latchMissing .po4)
      | some e =>
        .next (respond (some .pop) (.okWith 1 (.item e)) (storeCur .tail (nextCursor s.cfg s.here.t) s))
    | ph => .fault (.phaseNotOfCommand ph)

/-- POPB (41_pop R156). At PC3 one element is read per micro-step. -/
def execPopb (cnt : Nat) (s : State) : Result :=
  match s.turn with
  | .P => refusedByPort (.popb cnt) s
  | .C =>
    match s.portC.ph with
    | .pc1 => .next (goto .pc2 (s.setHere { s.here with t := loadCur .tail .rlx s }))
    | .pc2 =>
      let h := loadCur .head .acq s
      let n := min cnt (occOf s.cfg h s.here.t)
      let s := s.setHere { s.here with h := h, n := n, i := 0, out := [] }
      if n = 0 then .next (respond (some (.popb cnt)) (.okWith 0 (.items [])) s) else .next (goto .pc3 s)
    | .pc3 =>
      match slotRead (cursorAdd s.cfg s.here.t s.here.i) s with
      | none => .fault (.slotNeverWritten (cursorAdd s.cfg s.here.t s.here.i))
      | some e =>
        let i := s.here.i + 1
        .next (goto (if i < s.here.n then .pc3 else .pc4) (s.setHere { s.here with out := s.here.out ++ [e], i := i }))
    | .pc4 =>
      .next (respond (some (.popb cnt)) (.okWith s.here.n (.items s.here.out))
        (storeCur .tail (cursorAdd s.cfg s.here.t s.here.n) s))
    | ph => .fault (.phaseNotOfCommand ph)

end Sys2Proof.Machine
end

