-- ==== Sys2Proof/Machine/Push.lean ====
section
/-! DEFINITION. The push family (spec/40_push.md): PUSH and PUSHB, on port `P` only. Each call performs the one micro-step
the port's phase names. -/

namespace Sys2Proof.Machine

/-- PUSH (40_push R131). -/
def execPush (item : Elem) (s : State) : Result :=
  match s.turn with
  | .C => refusedByPort (.push item) s
  | .P =>
    match s.portP.ph with
    | .pu1 => .next (goto .pu2 (s.setHere { s.here with h := loadCur .head .rlx s }))
    | .pu2 =>
      let s := s.setHere { s.here with t := loadCur .tail .acq s }
      if nextCursor s.cfg s.here.h = s.here.t then .next (respond (some (.push item)) (.okRet 0) s)
      else .next (goto .pu3 s)
    | .pu3 => .next (goto .pu4 (slotWrite (cursorAdd s.cfg s.here.h 0) item s))
    | .pu4 => .next (respond (some (.push item)) (.okRet 1) (storeCur .head (nextCursor s.cfg s.here.h) s))
    | ph => .fault (.phaseNotOfCommand ph)

/-- PUSHB (40_push R136). At PB3 one element is written per micro-step. -/
def execPushb (cnt : Nat) (items : List Elem) (s : State) : Result :=
  match s.turn with
  | .C => refusedByPort (.pushb cnt items) s
  | .P =>
    match s.portP.ph with
    | .pb1 => .next (goto .pb2 (s.setHere { s.here with h := loadCur .head .rlx s }))
    | .pb2 =>
      let t := loadCur .tail .acq s
      let n := min cnt (roomOf s.cfg s.here.h t)
      let s := s.setHere { s.here with t := t, n := n, i := 0 }
      if n = 0 then .next (respond (some (.pushb cnt items)) (.okRet 0) s) else .next (goto .pb3 s)
    | .pb3 =>
      match items[s.here.i]? with
      | none => .fault (.latchMissing .pb3)
      | some e =>
        let s := slotWrite (cursorAdd s.cfg s.here.h s.here.i) e s
        let i := s.here.i + 1
        .next (goto (if i < s.here.n then .pb3 else .pb4) (s.setHere { s.here with i := i }))
    | .pb4 =>
      .next (respond (some (.pushb cnt items)) (.okRet s.here.n)
        (storeCur .head (cursorAdd s.cfg s.here.h s.here.n) s))
    | ph => .fault (.phaseNotOfCommand ph)

end Sys2Proof.Machine
end

