-- ==== Sys2Proof/Machine/Query.lean ====
section
/-! DEFINITION. The query family (spec/42_query.md): ISEMPTY, ISFULL, SIZE and CAP, on both ports. -/

namespace Sys2Proof.Machine

/-- The two micro-steps of a query: own cursor relaxed, then the other cursor acquire, then the answer computed from the
two latched values (42_query R174). -/
def queryStep (i : Instr) (answer : Config → Nat → Nat → Nat) (s : State) : Result :=
  match s.turn, s.here.ph with
  | .P, .qp1 => .next (goto .qp2 (s.setHere { s.here with h := loadCur .head .rlx s }))
  | .P, .qp2 =>
    let s := s.setHere { s.here with t := loadCur .tail .acq s }
    .next (respond (some i) (.okRet (answer s.cfg s.here.h s.here.t)) s)
  | .C, .qc1 => .next (goto .qc2 (s.setHere { s.here with t := loadCur .tail .rlx s }))
  | .C, .qc2 =>
    let s := s.setHere { s.here with h := loadCur .head .acq s }
    .next (respond (some i) (.okRet (answer s.cfg s.here.h s.here.t)) s)
  | _, ph => .fault (.phaseNotOfCommand ph)

/-- ISEMPTY (42_query R171). -/
def execIsempty (s : State) : Result := queryStep .isempty (fun _ h t => retOfBool (isEmptyOf h t)) s

/-- ISFULL (42_query R172). -/
def execIsfull (s : State) : Result := queryStep .isfull (fun c h t => retOfBool (isFullOf c h t)) s

/-- SIZE (42_query R173). -/
def execSize (s : State) : Result := queryStep .size (fun c h t => occOf c h t) s

/-- CAP (42_query R176): one micro-step with no access. -/
def execCap (s : State) : Result := .next (respond (some .cap) (.okRet s.cfg.capacity) s)

end Sys2Proof.Machine
end

