-- ==== Sys2Proof/Machine/Dispatch.lean ====
section
/-! DEFINITION. The dispatch: the micro-step that port `s.turn` performs with command `i` in flight, at the phase its latch
names (spec/00_scope.md R13, spec/10_state.md R21). -/

namespace Sys2Proof.Machine

def exec (i : Instr) (s : State) : Host.Outcome State Fault Refusal :=
  match i with
  | .push item => Sys2Proof.Machine.execPush item s
  | .pushb cnt items => Sys2Proof.Machine.execPushb cnt items s
  | .pop => Sys2Proof.Machine.execPop s
  | .popb cnt => Sys2Proof.Machine.execPopb cnt s
  | .isempty => Sys2Proof.Machine.execIsempty s
  | .isfull => Sys2Proof.Machine.execIsfull s
  | .size => Sys2Proof.Machine.execSize s
  | .cap => Sys2Proof.Machine.execCap s
  | .crc32 addr len => Sys2Proof.Machine.execCrc32 addr len s
  | .mkmsg id ts topic flags addr len => Sys2Proof.Machine.execMkmsg id ts topic flags addr len s
  | .verify msg => Sys2Proof.Machine.execVerify msg s
  | .fset mask msg => Sys2Proof.Machine.execFset mask msg s
  | .fclr mask msg => Sys2Proof.Machine.execFclr mask msg s
  | .ftst mask msg => Sys2Proof.Machine.execFtst mask msg s

end Sys2Proof.Machine
end

