-- ==== Sys2Proof/Machine/Step.lean ====
section
/-! DEFINITION. One step of the machine: the schedule names an agent, and that agent takes one step (spec/20_memory.md R70,
spec/00_scope.md R13). -/

namespace Sys2Proof.Machine

/-- One step: the agent the schedule names moves. For a port this is one micro-step of its command; accepting a request
and the request's first micro-step are one step (log 1). -/
def step (s : State) : Host.Outcome State Fault Refusal :=
  match fetch s with
  | .moved t => .next t
  | .run i t => exec i t
  | .stop r => .refused r

/-- The state in which the very next step takes the table word `w` as a request (log 21). -/
def State.withFetchWord (s : State) (nbits w : Nat) : State :=
  let pkt := tablePacket s.cfg nbits w
  withRequest (portFor pkt) pkt s

end Sys2Proof.Machine
end

