-- ==== Sys2Proof/Safety.lean ====
section
/-! DEFINITION. What the claims speak of: the abstract queue and the ghost counters (spec/10_state.md R40), slot ownership
(R42), the invariant of every reachable state, a command run with the other port at rest, and the classes of runs
(spec/60_exceptions.md R252, spec/70_reset_and_hazards.md R271). Nothing here is used by the machine. -/

namespace Sys2Proof.Machine

/-! ### Occupancy, room and the abstract queue (10_state R35, R40) -/

/-- The occupancy of the buffer, `(head - tail) mod CAPACITY` (10_state R35). -/
def occ (s : State) : Nat := occOf s.cfg s.head s.tail

/-- The free room of the buffer, `(tail - head - 1) mod CAPACITY` (10_state R35). -/
def room (s : State) : Nat := roomOf s.cfg s.head s.tail

/-- The value of the slot `j` places behind the front of the queue. -/
def queueSlot (s : State) (j : Nat) : Option Elem := slotRead (cursorAdd s.cfg s.tail j) s

/-- The abstract queue `Q`, oldest first (10_state R40). -/
def queue (s : State) : List Elem := (List.range (occ s)).filterMap (queueSlot s)

/-- `Slot[i]` is consumer-owned (10_state R42). -/
def consumerOwns (s : State) (i : Nat) : Prop := ∃ j, j < occ s ∧ i = cursorAdd s.cfg s.tail j

/-! ### What has crossed the ports since reset -/

/-- The elements one answered command published: those a push-family command's `RET` counts (40_push R131, R136). -/
def acceptedBy (d : Done) : List Elem :=
  match d.req with
  | some (.push item) => if d.resp.ret = 1 then [item] else []
  | some (.pushb _ items) => items.take d.resp.ret
  | _ => []

/-- The elements one answered command released: its `ITEM` or `ITEMS` lane (41_pop R151, R156). -/
def deliveredBy (d : Done) : List Elem :=
  match d.resp.extra with
  | .item e => [e]
  | .items es => es
  | _ => []

/-- The elements accepted on port `P` since reset, in order. -/
def accepted (s : State) : List Elem := s.portP.done.flatMap acceptedBy

/-- The elements delivered on port `C` since reset, in order. -/
def delivered (s : State) : List Elem := s.portC.done.flatMap deliveredBy

/-- Ghost counter `H`, the number of elements published since reset (10_state R40). -/
def ghostH (s : State) : Nat := (accepted s).length

/-- Ghost counter `T`, the number of elements released since reset (10_state R40). -/
def ghostT (s : State) : Nat := (delivered s).length

/-! ### The invariant -/

/-- The latches of a checksum loop agree with the bytes read so far (43_checksum R194). -/
def checksumLatches (c : Config) (addr len : Nat) (p : PortState) : Prop :=
  match p.ph with
  | .ck0 => True
  | .ck1 => rangeLegal c addr len = true ∧ p.i < len ∧ p.bytes.length = p.i ∧ p.acc = crcBytes crcOnes p.bytes
  | .ck2 => rangeLegal c addr len = true ∧ p.i = len ∧ p.bytes.length = p.i ∧ p.acc = crcBytes crcOnes p.bytes
  | _ => False

/-- The room port `P` has seen: what its two latches say, and a lower bound of the true room (20_memory R83). -/
def roomSeen (s : State) : Prop := roomOf s.cfg s.portP.h s.portP.t ≤ room s

/-- The occupancy port `C` has seen: what its two latches say, and a lower bound of the true occupancy (20_memory R83). -/
def occSeen (s : State) : Prop := occOf s.cfg s.portC.h s.portC.t ≤ occ s

/-- The latches of the producer's port while a command is in flight: the phase is one of the command's, and what has been
loaded is the port's own cursor exactly and a lower bound of the room (20_memory R62, R83). A pop-family command is never in
flight here (30_encoding R97). -/
def producerLatches (s : State) : Prop :=
  let p := s.portP
  match p.req with
  | .push item =>
    match p.ph with
    | .pu1 => True
    | .pu2 => p.h = s.head
    | .pu3 => p.h = s.head ∧ roomSeen s ∧ 1 ≤ roomOf s.cfg p.h p.t
    | .pu4 => p.h = s.head ∧ roomSeen s ∧ 1 ≤ roomOf s.cfg p.h p.t ∧ slotRead s.head s = some item
    | _ => False
  | .pushb cnt items =>
    match p.ph with
    | .pb1 => True
    | .pb2 => p.h = s.head
    | .pb3 => p.h = s.head ∧ roomSeen s ∧ p.n = min cnt (roomOf s.cfg p.h p.t) ∧ p.i < p.n ∧
        ∀ j, j < p.i → slotRead (cursorAdd s.cfg s.head j) s = items[j]?
    | .pb4 => p.h = s.head ∧ roomSeen s ∧ p.n = min cnt (roomOf s.cfg p.h p.t) ∧ 0 < p.n ∧
        ∀ j, j < p.n → slotRead (cursorAdd s.cfg s.head j) s = items[j]?
    | _ => False
  | .pop | .popb _ => False
  | .isempty | .isfull | .size =>
    match p.ph with
    | .qp1 => True
    | .qp2 => p.h = s.head
    | _ => False
  | .crc32 addr len => checksumLatches s.cfg addr len.toNat p
  | .mkmsg _ _ _ _ addr len => checksumLatches s.cfg addr len.toNat p
  | .verify msg => checksumLatches s.cfg msg.pref msg.hdr.size.toNat p
  | .cap | .fset _ _ | .fclr _ _ | .ftst _ _ => p.ph = .only

/-- The latches of the consumer's port while a command is in flight (20_memory R62, R83). A push-family command is never in
flight here (30_encoding R97). -/
def consumerLatches (s : State) : Prop :=
  let p := s.portC
  match p.req with
  | .pop =>
    match p.ph with
    | .po1 => True
    | .po2 => p.t = s.tail
    | .po3 => p.t = s.tail ∧ occSeen s ∧ 1 ≤ occOf s.cfg p.h p.t
    | .po4 => p.t = s.tail ∧ occSeen s ∧ 1 ≤ occOf s.cfg p.h p.t ∧ p.out.length = 1 ∧ queueSlot s 0 = p.out[0]?
    | _ => False
  | .popb cnt =>
    match p.ph with
    | .pc1 => True
    | .pc2 => p.t = s.tail
    | .pc3 => p.t = s.tail ∧ occSeen s ∧ p.n = min cnt (occOf s.cfg p.h p.t) ∧ p.i < p.n ∧ p.out.length = p.i ∧
        ∀ j, j < p.i → queueSlot s j = p.out[j]?
    | .pc4 => p.t = s.tail ∧ occSeen s ∧ p.n = min cnt (occOf s.cfg p.h p.t) ∧ 0 < p.n ∧ p.out.length = p.n ∧
        ∀ j, j < p.n → queueSlot s j = p.out[j]?
    | _ => False
  | .push _ | .pushb _ _ => False
  | .isempty | .isfull | .size =>
    match p.ph with
    | .qc1 => True
    | .qc2 => p.t = s.tail
    | _ => False
  | .crc32 addr len => checksumLatches s.cfg addr len.toNat p
  | .mkmsg _ _ _ _ addr len => checksumLatches s.cfg addr len.toNat p
  | .verify msg => checksumLatches s.cfg msg.pref msg.hdr.size.toNat p
  | .cap | .fset _ _ | .fclr _ _ | .ftst _ _ => p.ph = .only

/-- What holds of the ring buffer and its memories whatever the ports are doing. -/
structure RingInv (s : State) : Prop where
  /-- The configuration is legal (00_scope R8). -/
  cfg_wf : s.cfg.wf = true
  /-- The cursors hold `K`-bit values (10_state R26). -/
  head_lt : s.head < s.cfg.capacity
  tail_lt : s.tail < s.cfg.capacity
  /-- The slot array and payload memory are in canonical form. -/
  slots_wf : SlotArray.wf s.slots = true
  mem_wf : Memory.wf s.mem = true
  /-- Slot indices and elements fit their widths (10_state R28). -/
  slots_fit : ∀ c ∈ s.slots, c.1 < s.cfg.capacity ∧ c.2 < 2 ^ s.cfg.elemBits
  /-- Payload addresses fit `PADDR_BITS` (20_memory R50). -/
  mem_fit : ∀ c ∈ s.mem, c.1 < 2 ^ s.cfg.paddrBits
  /-- Every consumer-owned slot holds a value (10_state R29, R42). -/
  live_written : ∀ j, j < occ s → (queueSlot s j).isSome = true
  /-- FIFO: what was accepted is what was delivered followed by the queue (10_state R41). -/
  fifo : accepted s = delivered s ++ queue s
  /-- The cursors are the ghost counters modulo `CAPACITY` (10_state R40). -/
  head_ghost : s.head = ghostH s % s.cfg.capacity
  tail_ghost : s.tail = ghostT s % s.cfg.capacity

/-- The invariant of the machine: the ring's, and on each port with a command in flight a well-formed request and latches
that fit its phase. -/
structure Inv (s : State) : Prop where
  ring : RingInv s
  reqP : s.portP.busy = true → s.portP.req.wf s.cfg = true ∧ producerLatches s
  reqC : s.portC.busy = true → s.portC.req.wf s.cfg = true ∧ consumerLatches s

/-! ### A command with the other port at rest -/

/-- A port that has just answered request `i` with `r` and is idle again (10_state R23, 30_encoding R90). -/
def answered (p : PortState) (i : Instr) (r : Response) : PortState :=
  { p with busy := false, done := p.done ++ [{ req := some i, resp := r }] }

/-- At most `n` micro-steps of command `i` on the port at `turn`, up to its response. -/
def runCommand : Nat → Instr → State → Result
  | 0, _, s => .next s
  | n + 1, i, s =>
    match exec i s with
    | .next t => if t.here.busy then runCommand n i t else .next t
    | r => r

/-- Port `x` has just accepted request `i`. -/
def begun (x : Port) (i : Instr) (s : State) : State := accept i { s with turn := x }

/-- How often the counted loop of a command can run: `CNT` of a batch, the payload length of a checksum loop. -/
def loopLength : Instr → Nat
  | .push _ => 0
  | .pushb cnt _ => cnt
  | .pop => 0
  | .popb cnt => cnt
  | .isempty => 0
  | .isfull => 0
  | .size => 0
  | .cap => 0
  | .crc32 _ len => len.toNat
  | .mkmsg _ _ _ _ _ len => len.toNat
  | .verify msg => msg.hdr.size.toNat
  | .fset _ _ => 0
  | .fclr _ _ => 0
  | .ftst _ _ => 0

/-- An upper bound of the micro-steps a command in flight still takes, whatever the other port does (20_memory R77). -/
def stepsLeft (p : PortState) : Nat :=
  match p.ph with
  | .pu1 | .po1 => 4
  | .pu2 | .po2 => 3
  | .pu3 | .po3 => 2
  | .pu4 | .po4 => 1
  | .pb1 | .pc1 => loopLength p.req + 4
  | .pb2 | .pc2 => loopLength p.req + 3
  | .pb3 | .pc3 => p.n - p.i + 1
  | .pb4 | .pc4 => 1
  | .qp1 | .qc1 => 2
  | .qp2 | .qc2 => 1
  | .ck0 => loopLength p.req + 2
  | .ck1 => loopLength p.req - p.i + 1
  | .ck2 => 1
  | .only => 1

/-! ### A batch of one beside the single command (40_push R140, 41_pop R158) -/

/-- Two states agree on everything the ports share. -/
def sameShared (s u : State) : Prop :=
  s.cfg = u.cfg ∧ s.head = u.head ∧ s.tail = u.tail ∧ s.slots = u.slots ∧ s.mem = u.mem

/-- In `s` a PUSH and in `u` a PUSHB of one element stand before corresponding micro-steps, in the same shared state. -/
def pushKeepsPace (s u : State) : Prop :=
  sameShared s u ∧ s.turn = .P ∧ u.turn = .P ∧ s.portP.busy = true ∧ u.portP.busy = true ∧
  ((s.portP.ph = .pu1 ∧ u.portP.ph = .pb1) ∨
   (s.portP.h = u.portP.h ∧
    ((s.portP.ph = .pu2 ∧ u.portP.ph = .pb2) ∨
     (s.portP.ph = .pu3 ∧ u.portP.ph = .pb3 ∧ u.portP.n = 1 ∧ u.portP.i = 0) ∨
     (s.portP.ph = .pu4 ∧ u.portP.ph = .pb4 ∧ u.portP.n = 1))))

/-- In `s` a POP and in `u` a POPB of one element stand before corresponding micro-steps, in the same shared state. -/
def popKeepsPace (s u : State) : Prop :=
  sameShared s u ∧ s.turn = .C ∧ u.turn = .C ∧ s.portC.busy = true ∧ u.portC.busy = true ∧
  ((s.portC.ph = .po1 ∧ u.portC.ph = .pc1) ∨
   (s.portC.t = u.portC.t ∧
    ((s.portC.ph = .po2 ∧ u.portC.ph = .pc2) ∨
     (s.portC.ph = .po3 ∧ u.portC.ph = .pc3 ∧ u.portC.n = 1 ∧ u.portC.i = 0 ∧ u.portC.out = []) ∨
     (s.portC.ph = .po4 ∧ u.portC.ph = .pc4 ∧ u.portC.n = 1 ∧ s.portC.out = u.portC.out ∧
       u.portC.out.length = 1))))

/-- Both commands have answered, in the same shared state, with the same `RET` and the same elements delivered by the
answer. -/
def answeredAlike (p q : PortState) : Prop :=
  p.busy = false ∧ q.busy = false ∧ lastRet p = lastRet q ∧
  p.done.getLast?.map deliveredBy = q.done.getLast?.map deliveredBy

/-! ### Payloads and Messages -/

/-- The bytes of a payload range, where all of them are readable (20_memory R52). -/
def payloadBytes (addr len : Nat) (s : State) : Option (List Byte) :=
  (List.range len).mapM (fun k => memRead (addr + k) s)

/-- A Message is well-formed: its `crc32` field is the code of the payload it refers to (30_encoding R113). -/
def messageWellFormed (m : Msg) (s : State) : Prop :=
  ∃ bs, payloadBytes m.pref m.hdr.size.toNat s = some bs ∧ m.hdr.crc32 = crc32 s.cfg bs

/-! ### The table method (43_checksum R192) -/

/-- Entry `k` of the 256-entry table: the eight shift steps of the byte `k` (43_checksum R192). -/
def crcTable (k : Byte) : Word32 := crcShifts 8 (k.setWidth 32)

/-- The byte step by table (43_checksum R192). -/
def crcTableByte (c : Word32) (b : Byte) : Word32 := (c >>> 8) ^^^ crcTable ((c ^^^ b.setWidth 32).setWidth 8)

/-! ### Classes of runs (60_exceptions R252, 70_reset R271) -/

/-- Some response with this status has been received in the run, on either port, since construction: a reset by the host
does not take it back (60_exceptions R252, 90_conflicts C8; the spec does not name this case: DESIGN CHOICE, log 27). -/
def received (st : Status) (s : State) : Bool :=
  (s.past ++ s.portP.done ++ s.portC.done).any (fun d => d.resp.status == st)

/-- The run is over: both ports are idle and neither master has a command to present (70_reset R271). -/
def runOver (s : State) : Bool :=
  !s.portP.busy && !s.portC.busy && (present s.cfg (lastRet s.portP) s.portP.lines).isNone &&
    (present s.cfg (lastRet s.portC) s.portC.lines).isNone

/-- A run that received `ST_PAYLOAD` is classed as faulted (60_exceptions R252, 90_conflicts C8). -/
def faultedRun (s : State) : Bool := received .payload s

/-- A run that received `ST_ILLEGAL` had a master outside its contract and is classed as refused (60_exceptions R252). -/
def refusedRun (s : State) : Bool := received .illegal s

/-- The normal end of a run: over, and neither faulted nor refused. -/
def normalEnd (s : State) : Bool := runOver s && !faultedRun s && !refusedRun s

end Sys2Proof.Machine
end

