-- ==== Sys2Proof/Certificates/Slice0/Obligations.lean ====
section
/-! DEFINITION. The statements about NMQ-CORE, each written from the numbered rules of spec/. -/

open Sys2Proof Sys2Proof.Machine

/-! ## Requests, responses and headers as bytes -/

/-- 30_encoding R93, R94, R101: what is encoded is decoded, whatever bytes follow. -/
def Obligations.DecodeEncodeRoundTrip : Prop :=
  ∀ (c : Config) (i : Instr) (rest : List Byte), i.wf c = true → decode c (encode c i ++ rest) = .ok (i, rest)

/-- 30_encoding R93, R99: whatever bytes the decoder accepts are the canonical form of a well-formed request. -/
def Obligations.DecodedRequestIsCanonical : Prop :=
  ∀ (c : Config) (i : Instr) (bs rest : List Byte),
    decode c bs = .ok (i, rest) → i.wf c = true ∧ bs = encode c i ++ rest

/-- 30_encoding R101: the length of a request follows from its opcode, and for PUSHB from its CNT lane. -/
def Obligations.RequestLengthFollowsFromOpcode : Prop :=
  ∀ (c : Config) (i : Instr) (rest : List Byte), i.wf c = true →
    requestLength c (encode c i ++ rest) = some (encode c i).length

/-- 30_encoding R98: every opcode value outside the table is reserved, and the table's fourteen are pairwise distinct. -/
def Obligations.OpcodesOutsideTheTableAreReserved : Prop :=
  (∀ (c : Config) (opc : Byte) (bs : List Byte),
    (∀ o : Op, o.code ≠ opc) → decode c (opc :: bs) = .error (.reservedOpcode opc)) ∧
  (∀ o p : Op, o.code = p.code → o = p)

/-- 30_encoding R93, R96 (sanity): words written out from the spec's encodings decode to what they stand for. -/
def Obligations.SpecWordsDecode : Prop :=
  decodePacket Config.default [0x01, 0x07, 0, 0, 0] = .ok (.push 7) ∧
  decodePacket Config.default [0x02, 0x02, 0, 0, 0, 0, 0, 0, 0, 0x07, 0, 0, 0, 0x08, 0, 0, 0] = .ok (.pushb 2 [7, 8]) ∧
  decodePacket Config.default [0x11] = .ok .pop ∧
  decodePacket Config.default [0x12, 0x08, 0, 0, 0, 0, 0, 0, 0] = .ok (.popb 8) ∧
  decodePacket Config.default [0x22] = .ok .size ∧
  decodePacket Config.default [0x30, 0x00, 0x10, 0, 0, 0, 0, 0, 0, 0x0E, 0, 0, 0] = .ok (.crc32 0x1000 14) ∧
  decodePacket Config.default
    [0x31, 0x2A, 0, 0, 0, 0, 0, 0, 0, 0, 0, 0x2A, 0x36, 0xFE, 0x9C, 0x97, 0x17, 0x07, 0, 0, 0, 0x05, 0, 0, 0,
     0x00, 0x10, 0, 0, 0, 0, 0, 0, 0x0E, 0, 0, 0] = .ok (.mkmsg 42 1700000000000000000 7 5 0x1000 14)

/-- 30_encoding R105, R106: the 64 header bytes, field after field, each least significant byte first; and the header's
512 bits and its fields determine each other. The byte offsets are the spec's own inference ("derived: from the field
table of §3", 92 D14). -/
def Obligations.HeaderBytesFollowTheLayout : Prop :=
  (∀ h : Header, putLane 512 h.toBits.toNat =
    leBytes 8 h.id.toNat ++ leBytes 8 h.timestamp.toNat ++ leBytes 4 h.topicId.toNat ++ leBytes 4 h.size.toNat ++
      leBytes 4 h.crc32.toNat ++ leBytes 4 h.flags.toNat ++ leBytes 32 h.reserved.toNat) ∧
  (∀ h : Header, Header.ofBits h.toBits = h) ∧ (∀ v : BitVec 512, (Header.ofBits v).toBits = v)

/-- 30_encoding R112: `msg = pref ++ hdr`, `msg[511:0] = hdr`, the reference above it; a Message and its element determine
each other, and the element of a Message fits `512 + PADDR_BITS` bits. -/
def Obligations.MessageIsAnElement : Prop :=
  (∀ m : Msg, BitVec.ofNat 512 m.toElem = m.hdr.toBits ∧ m.toElem / 2 ^ 512 = m.pref) ∧
  (∀ m : Msg, Msg.ofElem m.toElem = m) ∧ (∀ e : Elem, (Msg.ofElem e).toElem = e) ∧
  (∀ (c : Config) (m : Msg), m.wf c = true → m.toElem < 2 ^ (512 + c.paddrBits))

/-! ## Construction and reset -/

/-- 10_state R34: the values after construction or reset. That the equal cursors are 0 is "this spec's choice" (92 D9). -/
def Obligations.ResetLeavesTheSpecValues : Prop :=
  ∀ c : Config, (State.construct c).cfg = c ∧ (State.construct c).head = 0 ∧ (State.construct c).tail = 0 ∧
    (∀ i, slotRead i (State.construct c) = none) ∧ (State.construct c).portP.busy = false ∧
    (State.construct c).portC.busy = false ∧ ghostH (State.construct c) = 0 ∧ ghostT (State.construct c) = 0 ∧
    occ (State.construct c) = 0 ∧ queue (State.construct c) = []

/-- 70_reset R265: a constructed instance of any legal configuration meets the invariant, whatever its environment. The
environment fields are the model's (log 3). -/
def Obligations.ConstructedInstanceMeetsInv : Prop :=
  ∀ (c : Config) (linesP linesC : List MasterLine) (host : List HostAct) (sched : List Agent) (mem : Memory),
    c.wf = true → Memory.wf mem = true → (∀ a ∈ mem, a.1 < 2 ^ c.paddrBits) →
    Inv { State.construct c with portP := .idle linesP, portC := .idle linesC, host := host, sched := sched, mem := mem }

/-- `State.reset` is the constructed instance of the model's default configuration (the model's choice, log 5), and it
meets the invariant. -/
def Obligations.ResetMeetsInv : Prop := State.reset = State.construct Config.default ∧ Inv State.reset

/-- 70_reset R260, R261: the host's reset takes the block to the state of 10_state R34, drops the commands in flight
without a response, and leaves payload memory alone. Beyond R34, the model's choices: that it has such a move (log
18); the values of the latches R34 leaves unspecified, which `PortState.idle` names (log 4); what the masters go on to
present (`streamAfterReset`, log 18); that the responses given so far stay on record in `past` (log 27). -/
def Obligations.HostResetResetsTheBlock : Prop :=
  ∀ (s : State) (sched : List Agent) (host : List HostAct), s.sched = .host :: sched → s.host = .reset :: host →
    step s = .next { s with
      sched := sched, tick := s.tick + 1, host := host, head := 0, tail := 0, slots := [],
      past := s.past ++ s.portP.done ++ s.portC.done,
      portP := .idle (streamAfterReset s.portP), portC := .idle (streamAfterReset s.portC) }

/-- 70_reset R263: a generator that takes a capacity number rejects every value that is not a power of two and does not
round. The model's choice (log 25): the names of the two reports, that a legal power of two is accepted, and that a
record which breaks another constraint of 00_scope R8 is refused. -/
def Obligations.OnlyPowersOfTwoAreCapacities : Prop :=
  ∀ (cap elemBits cntBits paddrBits : Nat) (crc : CrcVariant) (flags : FlagMap),
    (∀ K, cap = 2 ^ K → (Config.mk K elemBits cntBits paddrBits crc flags).wf = true →
      constructConfig cap elemBits cntBits paddrBits crc flags = .ok ⟨K, elemBits, cntBits, paddrBits, crc, flags⟩) ∧
    ((∀ K, cap ≠ 2 ^ K) → constructConfig cap elemBits cntBits paddrBits crc flags = .error .notPowerOfTwo) ∧
    (∀ c, constructConfig cap elemBits cntBits paddrBits crc flags = .ok c → c.capacity = cap ∧ c.wf = true)

/-! ## The step -/

/-- 10_state R23, 30_encoding R101: an idle port takes its master's next request, and where the port accepts its opcode
the step is `exec` of the decoded request at its first micro-step (a refused one is IllegalRequestIsAnswered). Around
`exec` the step makes the draw (`sched`, `tick`, `turn`), removes the packet from the master's stream and latches the
request. That accepting and the first micro-step are one step is the model's reading of 95 PR3 (log 1); the draw is
the model's (logs 2, 3). -/
def Obligations.StepRunsTheDecodedRequest : Prop :=
  ∀ (s : State) (x : Port) (sched : List Agent) (pkt : List Byte) (lines : List MasterLine) (i : Instr),
    s.sched = .port x :: sched → (s.port x).busy = false →
    present s.cfg (lastRet (s.port x)) (s.port x).lines = some (pkt, lines) →
    illegalOn x pkt = false → decodePacket s.cfg pkt = .ok i →
    step s = exec i (State.setPort { s with sched := sched, tick := s.tick + 1, turn := x } x
      { s.port x with lines := lines, busy := true, req := i, ph := firstPhase x i })

/-- 10_state R22: while a command is in flight its port performs the command's next micro-step. The draw is the model's
(logs 2, 3). -/
def Obligations.StepContinuesTheCommandInFlight : Prop :=
  ∀ (s : State) (x : Port) (sched : List Agent), s.sched = .port x :: sched → (s.port x).busy = true →
    step s = exec (s.port x).req { s with sched := sched, tick := s.tick + 1, turn := x }

/-- 30_encoding R97, R98: a request whose opcode is reserved, or refused by its port, is consumed whole and answered
`ST_ILLEGAL`, `RET = 0`, and nothing else of the state changes, no latch of either port included; the step makes the
draw and takes the packet from the master's stream. That illegality is decided from `OPC` alone whatever follows, that
such a request is not latched, and which request the log entry names is log 15 (DEDUCED); the draw is the model's
(logs 2, 3). -/
def Obligations.IllegalRequestIsAnswered : Prop :=
  ∀ (s : State) (x : Port) (sched : List Agent) (pkt : List Byte) (lines : List MasterLine),
    s.sched = .port x :: sched → (s.port x).busy = false →
    present s.cfg (lastRet (s.port x)) (s.port x).lines = some (pkt, lines) → illegalOn x pkt = true →
    step s = .next (State.setPort { s with sched := sched, tick := s.tick + 1, turn := x } x
      { s.port x with
        lines := lines,
        done := (s.port x).done ++ [{ req := (decodePacket s.cfg pkt).toOption, resp := ⟨.illegal, 0, .none⟩ }] })

/-- 30_encoding R99: a legal opcode without exactly the bytes of its format is no request; the model refuses the run. That
the model then refuses the run is its choice (log 11). -/
def Obligations.MalformedPacketIsRefused : Prop :=
  ∀ (s : State) (x : Port) (sched : List Agent) (pkt : List Byte) (lines : List MasterLine) (r : Reject),
    s.sched = .port x :: sched → (s.port x).busy = false →
    present s.cfg (lastRet (s.port x)) (s.port x).lines = some (pkt, lines) → illegalOn x pkt = false →
    decodePacket s.cfg pkt = .error r → step s = .refused (.malformedRequest pkt)

/-- 60_exceptions R249: a port with no command in flight and none presented does nothing in its turn. That a schedule may
name such a port is the model's choice (log 22). -/
def Obligations.IdleTurnChangesNothing : Prop :=
  ∀ (s : State) (x : Port) (sched : List Agent), s.sched = .port x :: sched → (s.port x).busy = false →
    present s.cfg (lastRet (s.port x)) (s.port x).lines = none →
    step s = .next { s with sched := sched, tick := s.tick + 1, turn := x }

/-- 20_memory R53, R66; 44_envelope R222: a byte the host writes is what the next read of its address gives, a byte it
withdraws is refused, every other byte reads as before, and nothing of the block changes. That an unlisted byte is a
refused read is the model's form of payload memory (log 10). -/
def Obligations.HostWritesPayloadMemory : Prop :=
  ∀ (s : State) (sched : List Agent) (host : List HostAct) (a : Nat) (b : Byte),
    s.sched = .host :: sched → a < 2 ^ s.cfg.paddrBits →
    (s.host = .write a b :: host → ∃ t, step s = .next t ∧
      (∀ k, memRead k t = if k = a then some b else memRead k s) ∧
      { t with mem := s.mem } = { s with sched := sched, tick := s.tick + 1, host := host }) ∧
    (s.host = .withdraw a :: host → ∃ t, step s = .next t ∧
      (∀ k, memRead k t = if k = a then none else memRead k s) ∧
      { t with mem := s.mem } = { s with sched := sched, tick := s.tick + 1, host := host })

/-- 60_exceptions R245: past the end of the schedule who moves is a free value. The schedule as a list is the model's form
(log 2). -/
def Obligations.PastTheScheduleTheChoiceIsFree : Prop :=
  ∀ s : State, s.sched = [] → step s = step { s with sched := [Config.freeAgent s.tick] }

/-- 30_encoding R103: the retry loops present their request until a response ends them. Their form as lines of a master's
stream is the model's (log 23). -/
def Obligations.RetryLoopsPresentAgain : Prop :=
  ∀ (c : Config) (last : Nat) (e : Elem) (es : List Elem) (rest : List MasterLine),
    present c last (.spinPush e false :: rest) = some (encode c (.push e), .spinPush e true :: rest) ∧
    present c last (.spinPop false :: rest) = some (encode c .pop, .spinPop true :: rest) ∧
    (last ≠ 1 → present c last (.spinPush e true :: rest) = some (encode c (.push e), .spinPush e true :: rest)) ∧
    (last ≠ 1 → present c last (.spinPop true :: rest) = some (encode c .pop, .spinPop true :: rest)) ∧
    (last = 1 → present c last (.spinPush e true :: rest) = present c last rest) ∧
    (last = 1 → present c last (.spinPop true :: rest) = present c last rest) ∧
    (es ≠ [] → present c last (.pushAll es false :: rest) =
      some (encode c (.pushb es.length es), .pushAll es true :: rest)) ∧
    (last < es.length → present c last (.pushAll es true :: rest) =
      some (encode c (.pushb (es.length - last) (es.drop last)), .pushAll (es.drop last) true :: rest)) ∧
    (es.length ≤ last → present c last (.pushAll es true :: rest) = present c last rest)

/-! ## Cursor arithmetic -/

/-- 10_state R35, 20_memory R78: occupancy and room are the mathematical remainders, they add up to `CAPACITY - 1`, empty
is occupancy 0 and full is room 0. The last three are the spec's inference ("derived: from the two expressions and
rule R26"). -/
def Obligations.OccupancyAndRoom : Prop :=
  ∀ (c : Config) (h t : Nat),
    ((occOf c h t : Int) = ((h : Int) - t) % (c.capacity : Int)) ∧
    ((roomOf c h t : Int) = ((t : Int) - h - 1) % (c.capacity : Int)) ∧
    occOf c h t + roomOf c h t = c.capacity - 1 ∧
    (h < c.capacity → t < c.capacity → (isEmptyOf h t = true ↔ occOf c h t = 0)) ∧
    (h < c.capacity → t < c.capacity → (isFullOf c h t = true ↔ roomOf c h t = 0))

/-! ## The push family -/

/-- 40_push R131: PUSH, its encoding, its micro-steps on port `P` and the answer on port `C`. -/
def Obligations.PushMicroSteps : Prop :=
  ∀ (s : State) (item : Elem),
    ((Instr.push item).op.code = 0x01 ∧ (Instr.push item).op.format = .I) ∧
    (s.turn = .P → s.portP.ph = .pu1 →
      exec (.push item) s = .next { s with portP := { s.portP with h := s.head, ph := .pu2 } }) ∧
    (s.turn = .P → s.portP.ph = .pu2 → (s.portP.h + 1) % s.cfg.capacity = s.tail →
      exec (.push item) s = .next { s with
        portP := answered { s.portP with t := s.tail } (.push item) ⟨.ok, 0, .none⟩ }) ∧
    (s.turn = .P → s.portP.ph = .pu2 → (s.portP.h + 1) % s.cfg.capacity ≠ s.tail →
      exec (.push item) s = .next { s with portP := { s.portP with t := s.tail, ph := .pu3 } }) ∧
    (s.turn = .P → s.portP.ph = .pu3 → ∃ t, exec (.push item) s = .next t ∧
      (∀ j, slotRead j t = if j = s.portP.h % s.cfg.capacity then some item else slotRead j s) ∧
      { t with slots := s.slots } = { s with portP := { s.portP with ph := .pu4 } }) ∧
    (s.turn = .P → s.portP.ph = .pu4 →
      exec (.push item) s = .next { s with
        head := (s.portP.h + 1) % s.cfg.capacity,
        portP := answered s.portP (.push item) ⟨.ok, 1, .none⟩ }) ∧
    (s.turn = .C →
      exec (.push item) s = .next { s with portC := answered s.portC (.push item) ⟨.illegal, 0, .none⟩ })

/-- 40_push R136: PUSHB, its encoding, its micro-steps on port `P` (one element a micro-step at PB3, one store of `head` at
the end) and the answer on port `C`. -/
def Obligations.PushbMicroSteps : Prop :=
  ∀ (s : State) (cnt : Nat) (items : List Elem),
    ((Instr.pushb cnt items).op.code = 0x02 ∧ (Instr.pushb cnt items).op.format = .B) ∧
    (s.turn = .P → s.portP.ph = .pb1 →
      exec (.pushb cnt items) s = .next { s with portP := { s.portP with h := s.head, ph := .pb2 } }) ∧
    (s.turn = .P → s.portP.ph = .pb2 → min cnt (roomOf s.cfg s.portP.h s.tail) = 0 →
      exec (.pushb cnt items) s = .next { s with
        portP := answered { s.portP with t := s.tail, n := 0, i := 0 } (.pushb cnt items) ⟨.ok, 0, .none⟩ }) ∧
    (s.turn = .P → s.portP.ph = .pb2 → min cnt (roomOf s.cfg s.portP.h s.tail) ≠ 0 →
      exec (.pushb cnt items) s = .next { s with
        portP := { s.portP with
          t := s.tail, n := min cnt (roomOf s.cfg s.portP.h s.tail), i := 0, ph := .pb3 } }) ∧
    (∀ e, s.turn = .P → s.portP.ph = .pb3 → items[s.portP.i]? = some e → ∃ t, exec (.pushb cnt items) s = .next t ∧
      (∀ j, slotRead j t = if j = (s.portP.h + s.portP.i) % s.cfg.capacity then some e else slotRead j s) ∧
      { t with slots := s.slots } = { s with
        portP := { s.portP with i := s.portP.i + 1, ph := if s.portP.i + 1 < s.portP.n then .pb3 else .pb4 } }) ∧
    (s.turn = .P → s.portP.ph = .pb4 →
      exec (.pushb cnt items) s = .next { s with
        head := (s.portP.h + s.portP.n) % s.cfg.capacity,
        portP := answered s.portP (.pushb cnt items) ⟨.ok, s.portP.n, .none⟩ }) ∧
    (s.turn = .C →
      exec (.pushb cnt items) s = .next { s with
        portC := answered s.portC (.pushb cnt items) ⟨.illegal, 0, .none⟩ })

/-- 40_push R132: with port `C` at rest PUSH is the function of the abstract queue: with fewer than `CAPACITY - 1` live
elements the item is appended and `RET = 1`; with `CAPACITY - 1` nothing changes and `RET = 0`. The summary is the
spec's inference ("derived: from rule R131"). -/
def Obligations.PushAlone : Prop :=
  ∀ (s : State) (item : Elem), Inv s → s.portP.busy = false → item < 2 ^ s.cfg.elemBits →
    ∃ t, runCommand 4 (.push item) (begun .P (.push item) s) = .next t ∧
      t.portP.busy = false ∧ t.portC = s.portC ∧ t.tail = s.tail ∧ t.mem = s.mem ∧
      (occ s < s.cfg.capacity - 1 → queue t = queue s ++ [item] ∧ ghostH t = ghostH s + 1 ∧
        t.portP.done = s.portP.done ++ [{ req := some (.push item), resp := ⟨.ok, 1, .none⟩ }]) ∧
      (occ s = s.cfg.capacity - 1 → t.head = s.head ∧ t.slots = s.slots ∧
        t.portP.done = s.portP.done ++ [{ req := some (.push item), resp := ⟨.ok, 0, .none⟩ }])

/-- 40_push R136, R138, R139: with port `C` at rest PUSHB appends the first `min CNT (CAPACITY - 1 - occ)` elements, in
order, and returns that number. The summary is the spec's inference ("derived: from rule R136"). -/
def Obligations.PushbAlone : Prop :=
  ∀ (s : State) (cnt : Nat) (items : List Elem), Inv s → s.portP.busy = false →
    (Instr.pushb cnt items).wf s.cfg = true →
    ∃ t, runCommand (cnt + 4) (.pushb cnt items) (begun .P (.pushb cnt items) s) = .next t ∧
      t.portP.busy = false ∧ t.portC = s.portC ∧ t.tail = s.tail ∧ t.mem = s.mem ∧
      queue t = queue s ++ items.take (min cnt (s.cfg.capacity - 1 - occ s)) ∧
      t.portP.done = s.portP.done ++
        [{ req := some (.pushb cnt items), resp := ⟨.ok, min cnt (s.cfg.capacity - 1 - occ s), .none⟩ }]

/-! ## The pop family -/

/-- 41_pop R151, 10_state R29: POP, its encoding, its micro-steps on port `C` and the answer on port `P`; a SlotRead of a
never-written slot is the model's fault. The new `tail` is the spec's inference ("derived: from symmetric"). -/
def Obligations.PopMicroSteps : Prop :=
  ∀ (s : State),
    (Instr.pop.op.code = 0x11 ∧ Instr.pop.op.format = .N) ∧
    (s.turn = .C → s.portC.ph = .po1 →
      exec .pop s = .next { s with portC := { s.portC with t := s.tail, ph := .po2 } }) ∧
    (s.turn = .C → s.portC.ph = .po2 → s.head = s.portC.t →
      exec .pop s = .next { s with portC := answered { s.portC with h := s.head } .pop ⟨.ok, 0, .none⟩ }) ∧
    (s.turn = .C → s.portC.ph = .po2 → s.head ≠ s.portC.t →
      exec .pop s = .next { s with portC := { s.portC with h := s.head, ph := .po3 } }) ∧
    (∀ e, s.turn = .C → s.portC.ph = .po3 → slotRead (s.portC.t % s.cfg.capacity) s = some e →
      exec .pop s = .next { s with portC := { s.portC with out := [e], ph := .po4 } }) ∧
    (s.turn = .C → s.portC.ph = .po3 → slotRead (s.portC.t % s.cfg.capacity) s = none →
      exec .pop s = .fault (.slotNeverWritten (s.portC.t % s.cfg.capacity))) ∧
    (∀ e, s.turn = .C → s.portC.ph = .po4 → s.portC.out = [e] →
      exec .pop s = .next { s with
        tail := (s.portC.t + 1) % s.cfg.capacity, portC := answered s.portC .pop ⟨.ok, 1, .item e⟩ }) ∧
    (s.turn = .P → exec .pop s = .next { s with portP := answered s.portP .pop ⟨.illegal, 0, .none⟩ })

/-- 41_pop R156, 10_state R29: POPB, its encoding, its micro-steps on port `C` (one element a micro-step at PC3, one store
of `tail` at the end) and the answer on port `P`. The order of the steps is the spec's inference ("By symmetry with
`try_push_batch`"). -/
def Obligations.PopbMicroSteps : Prop :=
  ∀ (s : State) (cnt : Nat),
    ((Instr.popb cnt).op.code = 0x12 ∧ (Instr.popb cnt).op.format = .C) ∧
    (s.turn = .C → s.portC.ph = .pc1 →
      exec (.popb cnt) s = .next { s with portC := { s.portC with t := s.tail, ph := .pc2 } }) ∧
    (s.turn = .C → s.portC.ph = .pc2 → min cnt (occOf s.cfg s.head s.portC.t) = 0 →
      exec (.popb cnt) s = .next { s with
        portC := answered { s.portC with h := s.head, n := 0, i := 0, out := [] } (.popb cnt) ⟨.ok, 0, .items []⟩ }) ∧
    (s.turn = .C → s.portC.ph = .pc2 → min cnt (occOf s.cfg s.head s.portC.t) ≠ 0 →
      exec (.popb cnt) s = .next { s with
        portC := { s.portC with
          h := s.head, n := min cnt (occOf s.cfg s.head s.portC.t), i := 0, out := [], ph := .pc3 } }) ∧
    (∀ e, s.turn = .C → s.portC.ph = .pc3 → slotRead ((s.portC.t + s.portC.i) % s.cfg.capacity) s = some e →
      exec (.popb cnt) s = .next { s with
        portC := { s.portC with
          out := s.portC.out ++ [e], i := s.portC.i + 1,
          ph := if s.portC.i + 1 < s.portC.n then .pc3 else .pc4 } }) ∧
    (s.turn = .C → s.portC.ph = .pc3 → slotRead ((s.portC.t + s.portC.i) % s.cfg.capacity) s = none →
      exec (.popb cnt) s = .fault (.slotNeverWritten ((s.portC.t + s.portC.i) % s.cfg.capacity))) ∧
    (s.turn = .C → s.portC.ph = .pc4 →
      exec (.popb cnt) s = .next { s with
        tail := (s.portC.t + s.portC.n) % s.cfg.capacity,
        portC := answered s.portC (.popb cnt) ⟨.ok, s.portC.n, .items s.portC.out⟩ }) ∧
    (s.turn = .P → exec (.popb cnt) s = .next { s with
      portP := answered s.portP (.popb cnt) ⟨.illegal, 0, .none⟩ })

/-- 41_pop R152: with port `P` at rest POP is the function of the abstract queue: the front is removed and returned with
`RET = 1`; from an empty queue nothing changes and `RET = 0` comes without an ITEM lane. The summary is the spec's
inference ("derived: from rule R151"). -/
def Obligations.PopAlone : Prop :=
  ∀ s : State, Inv s → s.portC.busy = false →
    ∃ t, runCommand 4 .pop (begun .C .pop s) = .next t ∧
      t.portC.busy = false ∧ t.portP = s.portP ∧ t.head = s.head ∧ t.slots = s.slots ∧ t.mem = s.mem ∧
      (∀ e q, queue s = e :: q → queue t = q ∧ ghostT t = ghostT s + 1 ∧
        t.portC.done = s.portC.done ++ [{ req := some .pop, resp := ⟨.ok, 1, .item e⟩ }]) ∧
      (queue s = [] → t.tail = s.tail ∧
        t.portC.done = s.portC.done ++ [{ req := some .pop, resp := ⟨.ok, 0, .none⟩ }])

/-- 41_pop R156, R157: with port `P` at rest POPB removes the first `min CNT occ` elements and returns them in order. The
summary is the spec's inference from R156. -/
def Obligations.PopbAlone : Prop :=
  ∀ (s : State) (cnt : Nat), Inv s → s.portC.busy = false → cnt < 2 ^ s.cfg.cntBits →
    ∃ t, runCommand (cnt + 4) (.popb cnt) (begun .C (.popb cnt) s) = .next t ∧
      t.portC.busy = false ∧ t.portP = s.portP ∧ t.head = s.head ∧ t.slots = s.slots ∧ t.mem = s.mem ∧
      queue s = (queue s).take (min cnt (occ s)) ++ queue t ∧
      t.portC.done = s.portC.done ++
        [{ req := some (.popb cnt), resp := ⟨.ok, min cnt (occ s), .items ((queue s).take (min cnt (occ s)))⟩ }]

/-- 40_push R140, 41_pop R158: a batch of one and the single command have the same effect and the same `RET` in every
schedule. Micro-step by micro-step: from the same shared state, whatever the other port did to it, the two stand
before corresponding micro-steps again, or both answer alike (`pushKeepsPace`, `popKeepsPace`, `answeredAlike`); room
at least 1 is the same test as not full, occupancy at least 1 the same as not empty, and the store of one step is the
next cursor. And with the other port at rest the two whole commands leave the same shared state and the same `RET`.
Both rules are the spec's inferences. -/
def Obligations.BatchOfOneIsTheSingleCommand : Prop :=
  (∀ (c : Config) (h t : Nat), h < c.capacity → t < c.capacity →
    (1 ≤ roomOf c h t ↔ nextCursor c h ≠ t) ∧ (1 ≤ occOf c h t ↔ h ≠ t) ∧ nextCursor c h = cursorAdd c h 1) ∧
  (∀ (s u : State) (e : Elem), pushKeepsPace s u → s.tail < s.cfg.capacity →
    ∃ t v, exec (.push e) s = .next t ∧ exec (.pushb 1 [e]) u = .next v ∧ sameShared t v ∧
      (pushKeepsPace t v ∨ answeredAlike t.portP v.portP)) ∧
  (∀ (s u : State), popKeepsPace s u → s.head < s.cfg.capacity → s.portC.t < s.cfg.capacity →
    (s.portC.ph = .po3 → (slotRead (cursorAdd s.cfg s.portC.t 0) s).isSome = true) →
    ∃ t v, exec .pop s = .next t ∧ exec (.popb 1) u = .next v ∧ sameShared t v ∧
      (popKeepsPace t v ∨ answeredAlike t.portC v.portC)) ∧
  (∀ (s : State) (e : Elem), Inv s → s.portP.busy = false → e < 2 ^ s.cfg.elemBits →
    ∃ t u, runCommand 4 (.push e) (begun .P (.push e) s) = .next t ∧
      runCommand 5 (.pushb 1 [e]) (begun .P (.pushb 1 [e]) s) = .next u ∧
      t.head = u.head ∧ t.tail = u.tail ∧ t.slots = u.slots ∧ lastRet t.portP = lastRet u.portP) ∧
  (∀ s : State, Inv s → s.portC.busy = false →
    ∃ t u, runCommand 4 .pop (begun .C .pop s) = .next t ∧
      runCommand 5 (.popb 1) (begun .C (.popb 1) s) = .next u ∧
      t.head = u.head ∧ t.tail = u.tail ∧ t.slots = u.slots ∧ lastRet t.portC = lastRet u.portC ∧
      delivered t = delivered u)

/-! ## Queries -/

/-- 42_query R171 to R174, 30_encoding R96, R97: ISEMPTY, ISFULL and SIZE, their encodings, and that both ports accept
them; on each port a query loads the port's own cursor, then the other one, and answers from the two latched values. -/
def Obligations.QueryMicroSteps : Prop :=
  (Op.isempty.code = 0x20 ∧ Op.isfull.code = 0x21 ∧ Op.size.code = 0x22 ∧
    ∀ o ∈ [Op.isempty, Op.isfull, Op.size], o.format = .N ∧ ∀ x, o.accepts x = true) ∧
  ∀ (s : State) (i : Instr) (answer : Nat → Nat → Nat),
    ((i = .isempty ∧ answer = fun h t => if h = t then 1 else 0) ∨
     (i = .isfull ∧ answer = fun h t => if (h + 1) % s.cfg.capacity = t then 1 else 0) ∨
     (i = .size ∧ answer = occOf s.cfg)) →
    (s.turn = .P → s.portP.ph = .qp1 →
      exec i s = .next { s with portP := { s.portP with h := s.head, ph := .qp2 } }) ∧
    (s.turn = .P → s.portP.ph = .qp2 →
      exec i s = .next { s with
        portP := answered { s.portP with t := s.tail } i ⟨.ok, answer s.portP.h s.tail, .none⟩ }) ∧
    (s.turn = .C → s.portC.ph = .qc1 →
      exec i s = .next { s with portC := { s.portC with t := s.tail, ph := .qc2 } }) ∧
    (s.turn = .C → s.portC.ph = .qc2 →
      exec i s = .next { s with
        portC := answered { s.portC with h := s.head } i ⟨.ok, answer s.head s.portC.t, .none⟩ })

/-- 42_query R176: CAP answers `CAPACITY = 2^K` in one micro-step on either port, with no access. -/
def Obligations.CapAnswersTheCapacity : Prop :=
  (Instr.cap.op.code = 0x23 ∧ Instr.cap.op.format = .N ∧ ∀ x, Instr.cap.op.accepts x = true) ∧
  ∀ s : State, exec .cap s = .next (s.setHere (answered s.here .cap ⟨.ok, 2 ^ s.cfg.K, .none⟩))

/-- 42_query R175: with the other port at rest the queries are exact and consistent on either port. -/
def Obligations.QueriesAloneAreExact : Prop :=
  ∀ (s : State) (x : Port), Inv s → (s.port x).busy = false →
    ∃ t u v, runCommand 2 .isempty (begun x .isempty s) = .next t ∧
      runCommand 2 .isfull (begun x .isfull s) = .next u ∧
      runCommand 2 .size (begun x .size s) = .next v ∧
      lastRet (v.port x) = (queue s).length ∧
      (lastRet (t.port x) = 1 ↔ queue s = []) ∧ (lastRet (t.port x) = 0 ↔ queue s ≠ []) ∧
      (lastRet (u.port x) = 1 ↔ (queue s).length = s.cfg.capacity - 1) ∧
      (lastRet (u.port x) = 0 ↔ (queue s).length ≠ s.cfg.capacity - 1) ∧
      queue t = queue s ∧ queue u = queue s ∧ queue v = queue s

/-! ## The checksum engine -/

/-- 43_checksum R194, 20_memory R52: the micro-steps CK0 and CK1 of the loop, the same for CRC32, MKMSG and VERIFY. That
the latch `bytes` is emptied and extended for every checksum variant, the default included, is the model's reading
(DEDUCED, log 19): R194 asks for the collected bytes only with another function. -/
def Obligations.ChecksumLoopMicroSteps : Prop :=
  ∀ (s : State) (i : Instr) (addr : Nat) (len : Word32),
    (i = .crc32 addr len ∨ (∃ id ts topic flags, i = .mkmsg id ts topic flags addr len) ∨
      (∃ m : Msg, i = .verify m ∧ addr = m.pref ∧ len = m.hdr.size)) →
    (s.here.ph = .ck0 → 2 ^ s.cfg.paddrBits < addr + len.toNat →
      exec i s = .next (s.setHere (answered s.here i ⟨.payload, 0, .none⟩))) ∧
    (s.here.ph = .ck0 → addr + len.toNat ≤ 2 ^ s.cfg.paddrBits →
      exec i s = .next (s.setHere { s.here with
        acc := 0xFFFFFFFF, i := 0, bytes := [], ph := if len.toNat = 0 then .ck2 else .ck1 })) ∧
    (∀ b, s.here.ph = .ck1 → memRead (addr + s.here.i) s = some b →
      exec i s = .next (s.setHere { s.here with
        acc := crcByte s.here.acc b, i := s.here.i + 1, bytes := s.here.bytes ++ [b],
        ph := if s.here.i + 1 < len.toNat then .ck1 else .ck2 })) ∧
    (s.here.ph = .ck1 → memRead (addr + s.here.i) s = none →
      exec i s = .next (s.setHere (answered s.here i ⟨.payload, 0, .none⟩)))

/-- 43_checksum R195, 44_envelope R211, R213, 30_encoding R96, R97: CRC32, MKMSG and VERIFY, their encodings, and that
both ports accept them; and their last micro-step, when the running register stands for the bytes read: `CODE` is
`crc32` of them; the Message carries the operands, `size` and that code; `RET` says whether the recomputed code equals
the stored one. That this is one micro-step is the model's reading (log 17). -/
def Obligations.ChecksumCommandsAnswer : Prop :=
  (Op.crc32.code = 0x30 ∧ Op.crc32.format = .A ∧ Op.mkmsg.code = 0x31 ∧ Op.mkmsg.format = .K ∧
    Op.verify.code = 0x32 ∧ Op.verify.format = .M ∧
    ∀ o ∈ [Op.crc32, Op.mkmsg, Op.verify], ∀ x, o.accepts x = true) ∧
  ∀ s : State, s.here.ph = .ck2 → s.here.acc = crcBytes 0xFFFFFFFF s.here.bytes →
    (∀ (addr : Nat) (len : Word32), exec (.crc32 addr len) s = .next (s.setHere
      (answered s.here (.crc32 addr len) ⟨.ok, 1, .code (crc32 s.cfg s.here.bytes)⟩))) ∧
    (∀ (id ts : Word64) (topic flags : Word32) (addr : Nat) (len : Word32),
      exec (.mkmsg id ts topic flags addr len) s = .next (s.setHere
        (answered s.here (.mkmsg id ts topic flags addr len) ⟨.ok, 1, .msg
          { hdr := { id := id, timestamp := ts, topicId := topic, size := len, crc32 := crc32 s.cfg s.here.bytes,
                     flags := flags, reserved := 0 },
            pref := addr }⟩))) ∧
    (∀ m : Msg, exec (.verify m) s = .next (s.setHere
      (answered s.here (.verify m)
        ⟨.ok, if crc32 s.cfg s.here.bytes = m.hdr.crc32 then 1 else 0, .none⟩)))

/-- 43_checksum R194, R195: CRC32 over a legal range whose bytes are readable and unwritten during the loop answers
`crc32` of exactly those bytes, and touches no cursor and no slot. -/
def Obligations.Crc32OfReadablePayload : Prop :=
  ∀ (s : State) (x : Port) (addr : Nat) (len : Word32) (bs : List Byte),
    addr + len.toNat ≤ 2 ^ s.cfg.paddrBits → payloadBytes addr len.toNat s = some bs →
    ∃ t, runCommand (len.toNat + 2) (.crc32 addr len) (begun x (.crc32 addr len) s) = .next t ∧
      (t.port x).busy = false ∧
      (t.port x).done = (s.port x).done ++
        [{ req := some (.crc32 addr len), resp := ⟨.ok, 1, .code (crc32 s.cfg bs)⟩ }] ∧
      t.head = s.head ∧ t.tail = s.tail ∧ t.slots = s.slots ∧ t.mem = s.mem

/-- 20_memory R52, 43_checksum R194, 60_exceptions R231: over a range that is illegal, or legal with an unreadable byte,
CRC32, MKMSG and VERIFY answer `ST_PAYLOAD`, `RET = 0`, with no further lane. -/
def Obligations.UnreadablePayloadIsReported : Prop :=
  ∀ (s : State) (x : Port) (i : Instr) (addr : Nat) (len : Word32),
    (i = .crc32 addr len ∨ (∃ id ts topic flags, i = .mkmsg id ts topic flags addr len) ∨
      (∃ m : Msg, i = .verify m ∧ addr = m.pref ∧ len = m.hdr.size)) →
    (2 ^ s.cfg.paddrBits < addr + len.toNat ∨ payloadBytes addr len.toNat s = none) →
    ∃ t, runCommand (len.toNat + 2) i (begun x i s) = .next t ∧ (t.port x).busy = false ∧
      (t.port x).done = (s.port x).done ++ [{ req := some i, resp := ⟨.payload, 0, .none⟩ }] ∧
      t.head = s.head ∧ t.tail = s.tail ∧ t.slots = s.slots ∧ t.mem = s.mem

/-- 44_envelope R212, 30_encoding R113: the Message MKMSG returns over a readable payload is well-formed, and a VERIFY of
it on either port, with no host write in between, answers 1. The law is the spec's inference ("derived: from rules
R211, R213"). -/
def Obligations.VerifyAfterConstruction : Prop :=
  ∀ (s : State) (x y : Port) (id ts : Word64) (topic flags : Word32) (addr : Nat) (len : Word32) (bs : List Byte),
    addr + len.toNat ≤ 2 ^ s.cfg.paddrBits → payloadBytes addr len.toNat s = some bs →
    ∃ t m u, runCommand (len.toNat + 2) (.mkmsg id ts topic flags addr len)
        (begun x (.mkmsg id ts topic flags addr len) s) = .next t ∧
      (t.port x).done = (s.port x).done ++
        [{ req := some (.mkmsg id ts topic flags addr len), resp := ⟨.ok, 1, .msg m⟩ }] ∧
      messageWellFormed m t ∧ m.pref = addr ∧ m.hdr.size = len ∧
      runCommand (len.toNat + 2) (.verify m) (begun y (.verify m) t) = .next u ∧
      (u.port y).done = (t.port y).done ++ [{ req := some (.verify m), resp := ⟨.ok, 1, .none⟩ }]

/-- 43_checksum R193 (c): for the default variant, two byte sequences of the same length that differ in one byte (in
particular in one bit) have different codes. The variant is the spec's decision D18, its parameters are "from general
knowledge, not in source" (93 G1; log 8). -/
def Obligations.OneChangedByteChangesTheCode : Prop :=
  ∀ (before after : List Byte) (a b : Byte), a ≠ b →
    crcIsoHdlc (before ++ a :: after) ≠ crcIsoHdlc (before ++ b :: after)

/-- 43_checksum R197: the trace of the inner loop and the further values of the default variant. The values are the spec's
inference ("All computed from rule R191, none from the source"; log 8). -/
def Obligations.ChecksumTraceValues : Prop :=
  (crcOnes ^^^ (0x61#8).setWidth 32 = 0xFFFFFF9E#32) ∧
  (crcShifts 1 0xFFFFFF9E#32 = 0x7FFFFFCF#32) ∧ (crcShifts 2 0xFFFFFF9E#32 = 0xD2477CC7#32) ∧
  (crcShifts 3 0xFFFFFF9E#32 = 0x849B3D43#32) ∧ (crcShifts 4 0xFFFFFF9E#32 = 0xAFF51D81#32) ∧
  (crcShifts 5 0xFFFFFF9E#32 = 0xBA420DE0#32) ∧ (crcShifts 6 0xFFFFFF9E#32 = 0x5D2106F0#32) ∧
  (crcShifts 7 0xFFFFFF9E#32 = 0x2E908378#32) ∧ (crcShifts 8 0xFFFFFF9E#32 = 0x174841BC#32) ∧
  (crcIsoHdlc [0x61] = 0xE8B7BE43#32) ∧ (crcIsoHdlc [0x00] = 0xD202EF8D#32) ∧ (crcIsoHdlc [0xFF] = 0xFF000000#32) ∧
  (crcIsoHdlc [0x61, 0x62, 0x63] = 0x352441C2#32) ∧ (crcIsoHdlc [0, 0, 0, 0] = 0x2144DF1C#32) ∧
  (crcIsoHdlc [0xFF, 0xFF, 0xFF, 0xFF] = 0xFFFFFFFF#32)

/-- 43_checksum R192: the table method computes the byte step of the default variant, and the table has the spec's
reference entries. The method is the spec's, "from general knowledge, not in source" (92 D18; log 8). -/
def Obligations.TableMethodAgrees : Prop :=
  (∀ (c : Word32) (b : Byte), crcTableByte c b = crcByte c b) ∧
  crcTable 0 = 0x00000000 ∧ crcTable 1 = 0x77073096 ∧ crcTable 2 = 0xEE0E612C ∧ crcTable 3 = 0x990951BA ∧
  crcTable 128 = 0xEDB88320 ∧ crcTable 255 = 0x2D02EF8D

/-! ## Flags -/

/-- 44_envelope R216, R217, R218: FSET, FCLR and FTST answer in one micro-step on either port; every other bit of the
Message is copied unchanged, and FTST is true when at least one bit of the mask is set. -/
def Obligations.FlagCommandsAnswer : Prop :=
  (Op.fset.code = 0x40 ∧ Op.fclr.code = 0x41 ∧ Op.ftst.code = 0x42 ∧
    ∀ o ∈ [Op.fset, Op.fclr, Op.ftst], o.format = .F ∧ ∀ x, o.accepts x = true) ∧
  ∀ (s : State) (mask : Word32) (m : Msg),
    exec (.fset mask m) s = .next (s.setHere (answered s.here (.fset mask m)
      ⟨.ok, 1, .msg { m with hdr := { m.hdr with flags := m.hdr.flags ||| mask } }⟩)) ∧
    exec (.fclr mask m) s = .next (s.setHere (answered s.here (.fclr mask m)
      ⟨.ok, 1, .msg { m with hdr := { m.hdr with flags := m.hdr.flags &&& ~~~mask } }⟩)) ∧
    exec (.ftst mask m) s = .next (s.setHere (answered s.here (.ftst mask m)
      ⟨.ok, if m.hdr.flags &&& mask = 0 then 0 else 1, .none⟩))

/-- 44_envelope R220: the laws of the flag operations. They are the spec's inference ("derived: from rules R216, R217,
R218"). -/
def Obligations.FlagLaws : Prop :=
  (∀ (f : Word32) (j k : Nat), j < 32 → k < 32 → j ≠ k →
    flagsTest (flagsSet f (1#32 <<< j)) (1#32 <<< k) = flagsTest f (1#32 <<< k) ∧
    flagsTest (flagsClear f (1#32 <<< j)) (1#32 <<< k) = flagsTest f (1#32 <<< k)) ∧
  (∀ f a : Word32, (a ≠ 0 → flagsTest (flagsSet f a) a = true) ∧ flagsTest (flagsClear f a) a = false) ∧
  (∀ f a : Word32, flagsSet (flagsSet f a) a = flagsSet f a ∧ flagsClear (flagsClear f a) a = flagsClear f a) ∧
  (∀ f a b : Word32, flagsSet (flagsSet f a) b = flagsSet (flagsSet f b) a ∧
    flagsSet (flagsSet f a) b = flagsSet f (a ||| b) ∧ flagsClear (flagsClear f a) b = flagsClear f (a ||| b)) ∧
  flagsSet 0 0xF = 0xF ∧
  (∀ (m : Msg) (f : Word32), (withFlags m f).hdr.crc32 = m.hdr.crc32 ∧ (withFlags m f).hdr.size = m.hdr.size ∧
    (withFlags m f).pref = m.pref)

/-- 30_encoding R110: in a legal configuration the four named flags are four different bits. -/
def Obligations.NamedFlagsAreDistinctBits : Prop :=
  ∀ (c : Config) (f g : FlagName), c.wf = true →
    flagMask c f ≠ 0 ∧ (f ≠ g → flagMask c f &&& flagMask c g = 0)

/-! ## The whole machine -/

/-- 10_state R26, R29, R36, R40, R41, R42; 20_memory R83: every step, whoever takes it, keeps the invariant. -/
def Obligations.EveryStepKeepsInv : Prop :=
  ∀ s t : State, Inv s → step s = .next t → Inv t

/-- 10_state R29, 60_exceptions R245: from a state that meets the invariant no step faults, and a step is refused only for
a packet or a host action that cannot be presented. That no run reaches the fault is the spec's inference in R29; the
two refusals are the model's (logs 9, 11). -/
def Obligations.NoStepFaultsUnderInv : Prop :=
  ∀ s : State, Inv s →
    (∀ f, step s ≠ .fault f) ∧
    (∀ r, step s = .refused r → (∃ pkt, r = .malformedRequest pkt) ∨ (∃ a, r = .noSuchPayloadAddress a))

/-- Every step keeps the slot array and payload memory in canonical form. The form is the model's (log 10). -/
def Obligations.CellsStayCanonical : Prop :=
  ∀ s t : State, SlotArray.wf s.slots = true → Memory.wf s.mem = true → step s = .next t →
    SlotArray.wf t.slots = true ∧ Memory.wf t.mem = true

/-- 10_state R41: along every run of every legal instance, for every pair of command streams, every schedule and every
behaviour of the host, what has been delivered since reset, followed by the live elements, is what was accepted since reset:
no reordering, no duplication, no loss, bit for bit. -/
def Obligations.FifoAlongEveryRun : Prop :=
  ∀ (c : Config) (linesP linesC : List MasterLine) (host : List HostAct) (sched : List Agent) (mem : Memory)
    (k : Nat) (t : State),
    c.wf = true → Memory.wf mem = true → (∀ a ∈ mem, a.1 < 2 ^ c.paddrBits) →
    Sys2Proof.core.run k ({ State.construct c with
      portP := .idle linesP, portC := .idle linesC, host := host, sched := sched, mem := mem } : State) = .next t →
    accepted t = delivered t ++ queue t ∧ delivered t <+: accepted t

/-- 10_state R36, R40: along every such run at most `CAPACITY - 1` elements are live, the cursors are the ghost counters
modulo `CAPACITY` and the occupancy is their difference. These are the spec's inference ("derived: from rules R24, R25,
R26, R36 and reset rule R34"). -/
def Obligations.CountersAlongEveryRun : Prop :=
  ∀ (c : Config) (linesP linesC : List MasterLine) (host : List HostAct) (sched : List Agent) (mem : Memory)
    (k : Nat) (t : State),
    c.wf = true → Memory.wf mem = true → (∀ a ∈ mem, a.1 < 2 ^ c.paddrBits) →
    Sys2Proof.core.run k ({ State.construct c with
      portP := .idle linesP, portC := .idle linesC, host := host, sched := sched, mem := mem } : State) = .next t →
    ghostT t ≤ ghostH t ∧ ghostH t ≤ ghostT t + (t.cfg.capacity - 1) ∧
    t.head = ghostH t % t.cfg.capacity ∧ t.tail = ghostT t % t.cfg.capacity ∧ occ t = ghostH t - ghostT t

/-- 20_memory R84, 40_push R132, R138, 41_pop R152, R157: seen on the abstract queue, a micro-step appends what it makes
accepted (only the store of `head` does), or removes from the front what it delivers (only the store of `tail` does),
or changes nothing. The linearisation points are the spec's inference in R84. -/
def Obligations.MicroStepsRefineTheQueue : Prop :=
  ∀ (s t : State) (i : Instr), Inv s → s.here.busy = true → s.here.req = i → exec i s = .next t →
    (queue t = queue s ∧ accepted t = accepted s ∧ delivered t = delivered s) ∨
    (s.turn = .P ∧ (s.here.ph = .pu4 ∨ s.here.ph = .pb4) ∧ ∃ xs, xs ≠ [] ∧ queue t = queue s ++ xs ∧
      accepted t = accepted s ++ xs ∧ delivered t = delivered s) ∨
    (s.turn = .C ∧ (s.here.ph = .po4 ∨ s.here.ph = .pc4) ∧ ∃ xs, xs ≠ [] ∧ queue s = xs ++ queue t ∧
      accepted t = accepted s ∧ delivered t = delivered s ++ xs)

/-- 10_state R42, 20_memory R82: port `P` writes only producer-owned slots, and a SlotRead of port `C` is of a
consumer-owned slot. Who touches which slots is the spec's inference ("derived: from `40_push.md` rules R131, R136"). -/
def Obligations.SlotOwnershipIsRespected : Prop :=
  ∀ s : State, Inv s → s.here.busy = true →
    (∀ (t : State) (j : Nat), exec s.here.req s = .next t → slotRead j t ≠ slotRead j s →
      s.turn = .P ∧ ¬ consumerOwns s j) ∧
    (s.turn = .C → (s.portC.req = .pop → s.portC.ph = .po3 → consumerOwns s (cursorAdd s.cfg s.portC.t 0)) ∧
      (∀ cnt, s.portC.req = .popb cnt → s.portC.ph = .pc3 → consumerOwns s (cursorAdd s.cfg s.portC.t s.portC.i)))

/-- What a micro-step leaves unchanged. 10_state R20, R24, R25, R28; 20_memory R53: the configuration, payload memory, the
schedule, the host's and the masters' streams, every latch of the other port, the latched request; `head` but for PU4 and
PB4, `tail` but for PO4 and PC4; every slot but the one whose index PU3 or PB3 computes. -/
def Obligations.MicroStepFrame : Prop :=
  ∀ (s t : State) (i : Instr), exec i s = .next t →
    t.cfg = s.cfg ∧ t.mem = s.mem ∧ t.host = s.host ∧ t.sched = s.sched ∧ t.tick = s.tick ∧ t.turn = s.turn ∧
    t.past = s.past ∧
    (∀ a, memRead a t = memRead a s) ∧
    (∀ x, x ≠ s.turn → t.port x = s.port x) ∧ t.here.lines = s.here.lines ∧ t.here.req = s.here.req ∧
    (¬ (s.turn = .P ∧ ((i.op = .push ∧ s.portP.ph = .pu4) ∨ (i.op = .pushb ∧ s.portP.ph = .pb4))) → t.head = s.head) ∧
    (¬ (s.turn = .C ∧ ((i.op = .pop ∧ s.portC.ph = .po4) ∨ (i.op = .popb ∧ s.portC.ph = .pc4))) → t.tail = s.tail) ∧
    (∀ j, (s.turn = .P → i.op = .push → s.portP.ph = .pu3 → j ≠ cursorAdd s.cfg s.portP.h 0) →
      (s.turn = .P → i.op = .pushb → s.portP.ph = .pb3 → j ≠ cursorAdd s.cfg s.portP.h s.portP.i) →
      slotRead j t = slotRead j s)

/-- 60_exceptions R232: a micro-step that answers with `STATUS` other than `ST_OK` has no effect: no cursor, no slot, no
lane but `RET = 0`, and the port is idle; only CRC32, MKMSG and VERIFY answer `ST_PAYLOAD`. -/
def Obligations.ErrorResponsesHaveNoEffect : Prop :=
  ∀ (s t : State) (i : Instr) (d : Done), exec i s = .next t → t.here.done = s.here.done ++ [d] → d.resp.status ≠ .ok →
    t.head = s.head ∧ t.tail = s.tail ∧ t.slots = s.slots ∧ t.mem = s.mem ∧
    d.resp.ret = 0 ∧ d.resp.extra = .none ∧ t.here.busy = false ∧
    (d.resp.status = .payload → i.op = .crc32 ∨ i.op = .mkmsg ∨ i.op = .verify)

/-- 60_exceptions R233, 10_state R23: a micro-step either leaves its command in flight and emits nothing, or emits exactly
one response, to this command, and leaves the port idle. -/
def Obligations.OneResponsePerCommand : Prop :=
  ∀ (s t : State) (i : Instr), exec i s = .next t →
    (t.here.busy = s.here.busy ∧ t.here.done = s.here.done) ∨
    (t.here.busy = false ∧ ∃ r, t.here.done = s.here.done ++ [{ req := some i, resp := r }])

/-- 20_memory R77: every command finishes in a bounded number of its own micro-steps, whatever the other port does: each
of its micro-steps answers or lowers the bound, and a micro-step of the other port leaves the bound alone. -/
def Obligations.CommandsAreWaitFree : Prop :=
  ∀ s t : State, Inv s → s.here.busy = true → exec s.here.req s = .next t →
    (t.here.busy = false ∨ stepsLeft t.here < stepsLeft s.here) ∧
    (∀ x, x ≠ s.turn → stepsLeft (t.port x) = stepsLeft (s.port x))

/-- 20_memory R76: in ghost terms no cursor goes backwards: a port's step only extends what was accepted and what was
delivered. The rule is the spec's inference ("derived: from rule R70"). -/
def Obligations.GhostCountersAreMonotone : Prop :=
  ∀ (s t : State) (x : Port) (sched : List Agent), s.sched = .port x :: sched → step s = .next t →
    accepted s <+: accepted t ∧ delivered s <+: delivered t ∧ ghostH s ≤ ghostH t ∧ ghostT s ≤ ghostT t

/-- 20_memory R76, R83; 42_query R171 to R173: a step of one port never takes away what the other has seen: room does not
shrink by a step of `C`, occupancy does not shrink by a step of `P`. The rules are the spec's inference ("derived: from
rule R70"). -/
def Obligations.WhatAPortHasSeenStaysTrue : Prop :=
  ∀ (s t : State) (sched : List Agent), Inv s → step s = .next t →
    (s.sched = .port .C :: sched → room s ≤ room t ∧ occ t ≤ occ s) ∧
    (s.sched = .port .P :: sched → occ s ≤ occ t ∧ room t ≤ room s)

/-- 60_exceptions R252, 90_conflicts C8, 93 U2, U3: a run that received `ST_PAYLOAD` or `ST_ILLEGAL` is never a normal
end: no step, a reset by the host included, takes the received response back, and a state with one on record is no
normal end. That a reset does not take it back is the model's choice (log 27); C8 names no reset. -/
def Obligations.ErrorRunsNeverEndNormally : Prop :=
  (∀ (s t : State) (st : Status), step s = .next t → received st s = true → received st t = true) ∧
  (∀ s : State, received .payload s = true → faultedRun s = true ∧ normalEnd s = false) ∧
  (∀ s : State, received .illegal s = true → refusedRun s = true ∧ normalEnd s = false)

/-- 70_reset R262: the configuration is the same in every state of a run. -/
def Obligations.ConfigurationNeverChanges : Prop :=
  ∀ s t : State, step s = .next t → t.cfg = s.cfg

/-- 00_scope R9: with `K = 0` both cursors are 0, the buffer is at once empty and full, every PUSH and every POP returns
0. The rule is the spec's inference ("derived: from rule R8"). -/
def Obligations.CapacityOneHoldsNothing : Prop :=
  ∀ (s : State) (item : Elem), Inv s → s.cfg.K = 0 → s.portP.busy = false → s.portC.busy = false →
    item < 2 ^ s.cfg.elemBits →
    s.head = 0 ∧ s.tail = 0 ∧ isEmptyOf s.head s.tail = true ∧ isFullOf s.cfg s.head s.tail = true ∧
    (∃ t, runCommand 4 (.push item) (begun .P (.push item) s) = .next t ∧
      t.portP.done = s.portP.done ++ [{ req := some (.push item), resp := ⟨.ok, 0, .none⟩ }]) ∧
    (∃ t, runCommand 4 .pop (begun .C .pop s) = .next t ∧
      t.portC.done = s.portC.done ++ [{ req := some .pop, resp := ⟨.ok, 0, .none⟩ }])
end

