-- ==== Sys2Proof/Laws/Cells.lean ====
section
/-! SUPPORT. Read after write, and the canonical form of the slot array and of payload memory: every operation over cells
keeps it. -/

namespace Sys2Proof.Machine

variable {α : Type}

@[simp] theorem Cells.read_nil (a : Nat) : Cells.read a ([] : List (Nat × α)) = none := rfl

theorem Cells.read_cons (a k : Nat) (v : α) (m : List (Nat × α)) :
    Cells.read a ((k, v) :: m) = if k = a then some v else Cells.read a m := rfl

/-- Reading the number just written gives the value written; every other number reads as before. -/
theorem Cells.read_write (a b : Nat) (v : α) (m : List (Nat × α)) :
    Cells.read b (Cells.write a v m) = if b = a then some v else Cells.read b m := by
  induction m with
  | nil => simp [Cells.write, Cells.read_cons, eq_comm]
  | cons c m ih =>
    obtain ⟨k, w⟩ := c
    simp only [Cells.write]
    split
    · simp [Cells.read_cons, eq_comm]
    · split
      · rename_i h; subst h
        by_cases hb : b = a
        · simp [Cells.read_cons, hb]
        · simp [Cells.read_cons, hb, Ne.symm hb]
      · rename_i h
        by_cases hk : k = b
        · subst hk; simp [Cells.read_cons, Ne.symm h]
        · simp [Cells.read_cons, hk, ih]

/-- Reading an erased number gives nothing; every other number reads as before. -/
theorem Cells.read_erase (a b : Nat) (m : List (Nat × α)) :
    Cells.read b (Cells.erase a m) = if b = a then none else Cells.read b m := by
  induction m with
  | nil => simp [Cells.erase]
  | cons c m ih =>
    obtain ⟨k, w⟩ := c
    simp only [Cells.erase]
    split
    · rename_i hk; subst hk
      rw [ih, Cells.read_cons]
      by_cases hb : b = k
      · simp [hb]
      · simp [hb, Ne.symm hb]
    · rename_i hk
      rw [Cells.read_cons, Cells.read_cons, ih]
      by_cases hb : k = b
      · subst hb; simp [hk]
      · simp [hb]

/-- What a list with a value written may list. -/
theorem Cells.mem_write {a : Nat} {v : α} {m : List (Nat × α)} {c : Nat × α} (h : c ∈ Cells.write a v m) :
    c = (a, v) ∨ c ∈ m := by
  induction m with
  | nil => simpa [Cells.write] using h
  | cons d m ih =>
    obtain ⟨k, w⟩ := d
    simp only [Cells.write] at h
    split at h
    · simpa using h
    · split at h
      · rcases List.mem_cons.1 h with h | h
        · exact .inl h
        · exact .inr (List.mem_cons_of_mem _ h)
      · rcases List.mem_cons.1 h with h | h
        · exact .inr (by simp [h])
        · exact (ih h).imp id (List.mem_cons_of_mem _)

theorem Cells.mem_of_read {a : Nat} {v : α} {m : List (Nat × α)} (h : Cells.read a m = some v) : (a, v) ∈ m := by
  induction m with
  | nil => simp at h
  | cons d m ih =>
    obtain ⟨k, w⟩ := d
    rw [Cells.read_cons] at h
    split at h
    · rename_i hk; subst hk; simp_all
    · exact List.mem_cons_of_mem _ (ih h)

theorem Cells.wf_cons (k : Nat) (v : α) (m : List (Nat × α)) :
    Cells.wf ((k, v) :: m) = true ↔ (∀ c ∈ m, k < c.1) ∧ Cells.wf m = true := by
  simp [Cells.wf]

@[simp] theorem Cells.wf_nil : Cells.wf ([] : List (Nat × α)) = true := by simp [Cells.wf]

/-- A write keeps the canonical form. -/
theorem Cells.write_wf (a : Nat) (v : α) (m : List (Nat × α)) (h : Cells.wf m = true) :
    Cells.wf (Cells.write a v m) = true := by
  induction m with
  | nil => simp [Cells.write, Cells.wf]
  | cons d m ih =>
    obtain ⟨k, w⟩ := d
    have hc := (Cells.wf_cons k w m).1 h
    simp only [Cells.write]
    split
    · rename_i hak
      refine (Cells.wf_cons ..).2 ⟨?_, h⟩
      intro c hm
      rcases List.mem_cons.1 hm with rfl | hm
      · exact hak
      · exact hak.trans (hc.1 c hm)
    · split
      · rename_i hak; subst hak
        exact (Cells.wf_cons ..).2 hc
      · rename_i h1 h2
        refine (Cells.wf_cons ..).2 ⟨?_, ih hc.2⟩
        intro c hm
        rcases Cells.mem_write hm with rfl | hm
        · simp only; omega
        · exact hc.1 c hm

theorem Cells.mem_erase {a : Nat} {m : List (Nat × α)} {c : Nat × α} (h : c ∈ Cells.erase a m) : c ∈ m := by
  induction m with
  | nil => simp [Cells.erase] at h
  | cons d m ih =>
    obtain ⟨k, w⟩ := d
    simp only [Cells.erase] at h
    split at h
    · exact List.mem_cons_of_mem _ (ih h)
    · rcases List.mem_cons.1 h with h | h
      · simp [h]
      · exact List.mem_cons_of_mem _ (ih h)

/-- Erasing keeps the canonical form. -/
theorem Cells.erase_wf (a : Nat) (m : List (Nat × α)) (h : Cells.wf m = true) : Cells.wf (Cells.erase a m) = true := by
  induction m with
  | nil => simp [Cells.erase]
  | cons d m ih =>
    obtain ⟨k, w⟩ := d
    have hc := (Cells.wf_cons k w m).1 h
    simp only [Cells.erase]
    split
    · exact ih hc.2
    · exact (Cells.wf_cons ..).2 ⟨fun c hm => hc.1 c (Cells.mem_erase hm), ih hc.2⟩

theorem Memory.write_wf (a : Nat) (b : Byte) (m : Memory) (h : Memory.wf m = true) :
    Memory.wf (Cells.write a b m) = true :=
  Cells.write_wf a b m h

theorem Memory.erase_wf (a : Nat) (m : Memory) (h : Memory.wf m = true) : Memory.wf (Cells.erase a m) = true :=
  Cells.erase_wf a m h

theorem SlotArray.write_wf (i : Nat) (v : Elem) (m : SlotArray) (h : SlotArray.wf m = true) :
    SlotArray.wf (Cells.write i v m) = true :=
  Cells.write_wf i v m h

theorem reset_mem_wf : Memory.wf State.reset.mem = true := by decide

theorem reset_slots_wf : SlotArray.wf State.reset.slots = true := by decide

/-- A slot write seen by a slot read (20_memory R64, R65). -/
theorem slotRead_slotWrite (i j : Nat) (v : Elem) (s : State) :
    slotRead j (slotWrite i v s) = if j = i then some v else slotRead j s :=
  Cells.read_write i j v s.slots

end Sys2Proof.Machine
end

