-- ==== Sys2Proof/Laws/Cursor.lean ====
section
/-! SUPPORT. The cursor arithmetic as facts `omega` can use (spec/20_memory.md R78, spec/10_state.md R35). -/

namespace Sys2Proof.Machine

variable (c : Config)

theorem capacity_pos : 0 < c.capacity := Nat.two_pow_pos c.K

@[simp] theorem cursorAdd_lt (v n : Nat) : cursorAdd c v n < c.capacity := Nat.mod_lt _ (capacity_pos c)

@[simp] theorem cursorSub_lt (a b : Nat) : cursorSub c a b < c.capacity := Nat.mod_lt _ (capacity_pos c)

@[simp] theorem nextCursor_lt (v : Nat) : nextCursor c v < c.capacity := cursorAdd_lt c v 1

@[simp] theorem occOf_lt (h t : Nat) : occOf c h t < c.capacity := cursorSub_lt c h t

@[simp] theorem roomOf_lt (h t : Nat) : roomOf c h t < c.capacity := cursorSub_lt c t (h + 1)

variable {c}

/-- Adding less than a whole turn: at most one wrap-around. -/
theorem cursorAdd_of_lt {v n : Nat} (hv : v < c.capacity) (hn : n < c.capacity) :
    cursorAdd c v n = if v + n < c.capacity then v + n else v + n - c.capacity := by
  unfold cursorAdd
  split
  · exact Nat.mod_eq_of_lt ‹_›
  · rw [Nat.mod_eq_sub_mod (by omega), Nat.mod_eq_of_lt (by omega)]

theorem cursorAdd_zero {v : Nat} (hv : v < c.capacity) : cursorAdd c v 0 = v := by
  simpa [cursorAdd] using Nat.mod_eq_of_lt hv

/-- The remainder of a difference: one turn is added where the difference is negative. -/
theorem cursorSub_of_lt {a b : Nat} (ha : a < c.capacity) (hb : b < c.capacity) :
    cursorSub c a b = if b ≤ a then a - b else a + c.capacity - b := by
  unfold cursorSub
  rw [Nat.mod_eq_of_lt hb]
  split
  · rw [Nat.mod_eq_sub_mod (by omega), Nat.mod_eq_of_lt (by omega)]; omega
  · rw [Nat.mod_eq_of_lt (by omega)]; omega

/-- Occupancy, spelled out. -/
theorem occOf_of_lt {h t : Nat} (hh : h < c.capacity) (ht : t < c.capacity) :
    occOf c h t = if t ≤ h then h - t else h + c.capacity - t :=
  cursorSub_of_lt hh ht

/-- Room, spelled out. -/
theorem roomOf_of_lt {h t : Nat} (hh : h < c.capacity) (ht : t < c.capacity) :
    roomOf c h t = if t ≤ h then t + c.capacity - (h + 1) else t - (h + 1) := by
  have hsub : roomOf c h t = cursorSub c t ((h + 1) % c.capacity) := by simp [roomOf, cursorSub]
  rw [hsub, cursorSub_of_lt ht (Nat.mod_lt _ (capacity_pos c))]
  by_cases hw : h + 1 < c.capacity
  · rw [Nat.mod_eq_of_lt hw]; split <;> split <;> omega
  · have : h + 1 = c.capacity := by omega
    rw [this, Nat.mod_self]; split <;> split <;> omega

end Sys2Proof.Machine
end

