-- ==== Sys2Proof/Laws/Lanes.lean ====
section
/-! SUPPORT. Lanes of the canonical byte form (spec/30_encoding.md R93): what is put is what is taken. -/

namespace Sys2Proof

@[simp] theorem leBytes_length (n v : Nat) : (leBytes n v).length = n := by
  induction n generalizing v with
  | zero => rfl
  | succ n ih => simp [leBytes, ih]

@[simp] theorem putLane_length (bits v : Nat) : (putLane bits v).length = laneBytes bits := leBytes_length _ _

/-- The `n` low bytes of a number spell it modulo `256^n`. -/
theorem leValue_leBytes (n v : Nat) : leValue (leBytes n v) = v % 256 ^ n := by
  induction n generalizing v with
  | zero => simp [leBytes, leValue, Nat.mod_one]
  | succ n ih =>
    simp only [leBytes, leValue, ih, BitVec.toNat_ofNat]
    rw [show (256 : Nat) ^ (n + 1) = 256 * 256 ^ n from Nat.pow_succ', Nat.mod_mul]

theorem leValue_lt (bs : List Byte) : leValue bs < 256 ^ bs.length := by
  induction bs with
  | nil => simp [leValue]
  | cons b bs ih =>
    have := b.isLt
    simp only [leValue, List.length_cons, Nat.pow_succ]
    omega

/-- The bytes of the number a byte sequence spells are that sequence. -/
theorem leBytes_leValue (bs : List Byte) : leBytes bs.length (leValue bs) = bs := by
  induction bs with
  | nil => rfl
  | cons b bs ih =>
    have hb := b.isLt
    have h1 : (b.toNat + 256 * leValue bs) / 256 = leValue bs := by omega
    simp only [List.length_cons, leBytes, leValue, h1, ih]
    congr 1
    apply BitVec.eq_of_toNat_eq
    simp only [BitVec.toNat_ofNat]
    omega

theorem bits_le_laneBytes (bits : Nat) : bits ≤ 8 * laneBytes bits := by unfold laneBytes; omega

theorem two_pow_le_laneBytes (bits : Nat) : 2 ^ bits ≤ 256 ^ laneBytes bits := by
  have h : (256 : Nat) ^ laneBytes bits = 2 ^ (8 * laneBytes bits) := by
    rw [show (256 : Nat) = 2 ^ 8 from rfl, ← Nat.pow_mul]
  rw [h]
  exact Nat.pow_le_pow_right (by decide) (bits_le_laneBytes bits)

/-- A lane is read back as it was put, and what follows it is left. -/
theorem takeLane_putLane (bits v : Nat) (rest : List Byte) (h : v < 2 ^ bits) :
    takeLane bits (putLane bits v ++ rest) = .ok (v, rest) := by
  have hv : leValue (putLane bits v) = v := by
    rw [putLane, leValue_leBytes, Nat.mod_eq_of_lt (h.trans_le (two_pow_le_laneBytes bits))]
  simp [takeLane, hv, h]

/-- A lane that is read is the canonical form of its value. -/
theorem takeLane_ok {bits v : Nat} {bs rest : List Byte} (h : takeLane bits bs = .ok (v, rest)) :
    v < 2 ^ bits ∧ bs = putLane bits v ++ rest := by
  unfold takeLane at h
  split at h
  · cases h
  · rename_i hlen
    simp only at h
    split at h
    · rename_i hv
      simp only [Except.ok.injEq, Prod.mk.injEq] at h
      obtain ⟨rfl, rfl⟩ := h
      refine ⟨hv, ?_⟩
      have hl : (bs.take (laneBytes bits)).length = laneBytes bits := by simp; omega
      have := leBytes_leValue (bs.take (laneBytes bits))
      rw [hl] at this
      rw [putLane, this, List.take_append_drop]
    · cases h

@[simp] theorem andThen_ok {α β : Type} (v : α) (bs : List Byte) (f : α → List Byte → Parsed β) :
    andThen (.ok (v, bs)) f = f v bs := rfl

@[simp] theorem andThen_error {α β : Type} (r : Reject) (f : α → List Byte → Parsed β) :
    andThen (.error r) f = .error r := rfl

/-- If a chain of lanes reads something, its first lane did. -/
theorem andThen_eq_ok {α β : Type} {p : Parsed α} {f : α → List Byte → Parsed β} {r : β × List Byte}
    (h : andThen p f = .ok r) : ∃ v bs, p = .ok (v, bs) ∧ f v bs = .ok r := by
  match p with
  | .error _ => simp [andThen] at h
  | .ok (v, bs) => exact ⟨v, bs, rfl, h⟩

/-- A lane of fixed width is read back as it was put. -/
theorem takeWord_putLane (w : Nat) (v : BitVec w) (rest : List Byte) :
    takeWord w (putLane w v.toNat ++ rest) = .ok (v, rest) := by
  rw [takeWord, takeLane_putLane w v.toNat rest v.isLt, andThen_ok, BitVec.ofNat_toNat, BitVec.setWidth_eq]

theorem takeWord_ok {w : Nat} {v : BitVec w} {bs rest : List Byte} (h : takeWord w bs = .ok (v, rest)) :
    bs = putLane w v.toNat ++ rest := by
  unfold takeWord at h
  obtain ⟨n, bs', hl, hv⟩ := andThen_eq_ok h
  simp only [Except.ok.injEq, Prod.mk.injEq] at hv
  obtain ⟨rfl, rfl⟩ := hv
  obtain ⟨hn, rfl⟩ := takeLane_ok hl
  rw [BitVec.toNat_ofNat, Nat.mod_eq_of_lt hn]

/-- A sequence lane is read back as it was put. -/
theorem takeLanes_put (bits : Nat) (vs : List Nat) (rest : List Byte) (h : ∀ v ∈ vs, v < 2 ^ bits) :
    takeLanes bits vs.length (vs.flatMap (putLane bits) ++ rest) = .ok (vs, rest) := by
  induction vs with
  | nil => rfl
  | cons v vs ih =>
    simp only [List.length_cons, takeLanes, List.flatMap_cons, List.append_assoc]
    rw [takeLane_putLane bits v _ (h v (by simp)), andThen_ok, ih (fun w hw => h w (by simp [hw])), andThen_ok]

theorem takeLanes_ok {bits n : Nat} {bs rest : List Byte} {vs : List Nat} (h : takeLanes bits n bs = .ok (vs, rest)) :
    vs.length = n ∧ (∀ v ∈ vs, v < 2 ^ bits) ∧ bs = vs.flatMap (putLane bits) ++ rest := by
  induction n generalizing bs vs with
  | zero =>
    simp only [takeLanes, Except.ok.injEq, Prod.mk.injEq] at h
    obtain ⟨rfl, rfl⟩ := h
    simp
  | succ n ih =>
    unfold takeLanes at h
    obtain ⟨v, bs1, h1, hr⟩ := andThen_eq_ok h
    obtain ⟨ws, bs2, h2, hv⟩ := andThen_eq_ok hr
    simp only [Except.ok.injEq, Prod.mk.injEq] at hv
    obtain ⟨rfl, rfl⟩ := hv
    obtain ⟨hv, rfl⟩ := takeLane_ok h1
    obtain ⟨hl, hw, rfl⟩ := ih h2
    exact ⟨by simp [hl], by simpa using ⟨hv, hw⟩, by simp⟩

/-- Each opcode value selects its own row, so no two rows share one (spec/30_encoding.md R96). -/
@[simp] theorem Op.ofCode_code (o : Op) : Op.ofCode o.code = some o := by cases o <;> decide

/-- A byte that selects a row is that row's opcode value. -/
theorem Op.code_of_ofCode {b : Byte} {o : Op} (h : Op.ofCode b = some o) : o.code = b := by
  simpa using List.find?_some h

/-- The operand lanes of a row make an instruction of that row (30_encoding R94). -/
theorem takeOperands_op {c : Config} {o : Op} {bs rest : List Byte} {i : Instr}
    (h : takeOperands c o bs = .ok (i, rest)) : i.op = o := by
  cases o <;> simp only [takeOperands] at h
  case pop | isempty | isfull | size | cap => cases h; rfl
  case push | popb | verify =>
    obtain ⟨_, _, _, h⟩ := andThen_eq_ok h
    cases h; rfl
  case pushb | crc32 | fset | fclr | ftst =>
    obtain ⟨_, _, _, h⟩ := andThen_eq_ok h
    obtain ⟨_, _, _, h⟩ := andThen_eq_ok h
    cases h; rfl
  case mkmsg =>
    obtain ⟨_, _, _, h⟩ := andThen_eq_ok h
    obtain ⟨_, _, _, h⟩ := andThen_eq_ok h
    obtain ⟨_, _, _, h⟩ := andThen_eq_ok h
    obtain ⟨_, _, _, h⟩ := andThen_eq_ok h
    obtain ⟨_, _, _, h⟩ := andThen_eq_ok h
    obtain ⟨_, _, _, h⟩ := andThen_eq_ok h
    cases h; rfl

end Sys2Proof
end

