-- ==== Sys2Proof/Laws/State.lean ====
section
/-! SUPPORT. One lemma per field per update of the state, so that no later proof unfolds a record update. -/

namespace Sys2Proof.Machine

/-! ### `State.port` -/

@[simp] theorem State.port_P (s : State) : s.port .P = s.portP := rfl
@[simp] theorem State.port_C (s : State) : s.port .C = s.portC := rfl

/-! ### `State.setPort` -/

@[simp] theorem State.setPort_cfg (s : State) (x : Port) (p : PortState) : (s.setPort x p).cfg = s.cfg := by
  cases x <;> rfl
@[simp] theorem State.setPort_head (s : State) (x : Port) (p : PortState) : (s.setPort x p).head = s.head := by
  cases x <;> rfl
@[simp] theorem State.setPort_tail (s : State) (x : Port) (p : PortState) : (s.setPort x p).tail = s.tail := by
  cases x <;> rfl
@[simp] theorem State.setPort_slots (s : State) (x : Port) (p : PortState) : (s.setPort x p).slots = s.slots := by
  cases x <;> rfl
@[simp] theorem State.setPort_mem (s : State) (x : Port) (p : PortState) : (s.setPort x p).mem = s.mem := by
  cases x <;> rfl
@[simp] theorem State.setPort_past (s : State) (x : Port) (p : PortState) : (s.setPort x p).past = s.past := by
  cases x <;> rfl
@[simp] theorem State.setPort_host (s : State) (x : Port) (p : PortState) : (s.setPort x p).host = s.host := by
  cases x <;> rfl
@[simp] theorem State.setPort_sched (s : State) (x : Port) (p : PortState) : (s.setPort x p).sched = s.sched := by
  cases x <;> rfl
@[simp] theorem State.setPort_tick (s : State) (x : Port) (p : PortState) : (s.setPort x p).tick = s.tick := by
  cases x <;> rfl
@[simp] theorem State.setPort_turn (s : State) (x : Port) (p : PortState) : (s.setPort x p).turn = s.turn := by
  cases x <;> rfl
@[simp] theorem State.setPort_port_same (s : State) (x : Port) (p : PortState) : (s.setPort x p).port x = p := by
  cases x <;> rfl
theorem State.setPort_port_other (s : State) (x y : Port) (p : PortState) (h : y ≠ x) :
    (s.setPort x p).port y = s.port y := by
  cases x <;> cases y <;> first | rfl | exact absurd rfl h
@[simp] theorem State.setPort_P_portP (s : State) (p : PortState) : (s.setPort .P p).portP = p := rfl
@[simp] theorem State.setPort_P_portC (s : State) (p : PortState) : (s.setPort .P p).portC = s.portC := rfl
@[simp] theorem State.setPort_C_portP (s : State) (p : PortState) : (s.setPort .C p).portP = s.portP := rfl
@[simp] theorem State.setPort_C_portC (s : State) (p : PortState) : (s.setPort .C p).portC = p := rfl

/-! ### `State.here` and `State.setHere` -/

theorem State.here_eq_portP (s : State) (h : s.turn = .P) : s.here = s.portP := by simp [State.here, h]
theorem State.here_eq_portC (s : State) (h : s.turn = .C) : s.here = s.portC := by simp [State.here, h]

@[simp] theorem State.setHere_cfg (s : State) (p : PortState) : (s.setHere p).cfg = s.cfg := by
  simp [State.setHere]
@[simp] theorem State.setHere_head (s : State) (p : PortState) : (s.setHere p).head = s.head := by
  simp [State.setHere]
@[simp] theorem State.setHere_tail (s : State) (p : PortState) : (s.setHere p).tail = s.tail := by
  simp [State.setHere]
@[simp] theorem State.setHere_slots (s : State) (p : PortState) : (s.setHere p).slots = s.slots := by
  simp [State.setHere]
@[simp] theorem State.setHere_mem (s : State) (p : PortState) : (s.setHere p).mem = s.mem := by
  simp [State.setHere]
@[simp] theorem State.setHere_past (s : State) (p : PortState) : (s.setHere p).past = s.past := by
  simp [State.setHere]
@[simp] theorem State.setHere_host (s : State) (p : PortState) : (s.setHere p).host = s.host := by
  simp [State.setHere]
@[simp] theorem State.setHere_sched (s : State) (p : PortState) : (s.setHere p).sched = s.sched := by
  simp [State.setHere]
@[simp] theorem State.setHere_tick (s : State) (p : PortState) : (s.setHere p).tick = s.tick := by
  simp [State.setHere]
@[simp] theorem State.setHere_turn (s : State) (p : PortState) : (s.setHere p).turn = s.turn := by
  simp [State.setHere]
@[simp] theorem State.setHere_here (s : State) (p : PortState) : (s.setHere p).here = p := by
  simp [State.setHere, State.here]
@[simp] theorem State.setHere_setHere (s : State) (p q : PortState) : (s.setHere p).setHere q = s.setHere q := by
  cases h : s.turn <;> simp [State.setHere, State.setPort, h]
theorem State.setHere_port_other (s : State) (p : PortState) (x : Port) (h : x ≠ s.turn) :
    (s.setHere p).port x = s.port x :=
  State.setPort_port_other s s.turn x p h
theorem State.setHere_P (s : State) (p : PortState) (h : s.turn = .P) : s.setHere p = { s with portP := p } := by
  simp [State.setHere, State.setPort, h]
theorem State.setHere_C (s : State) (p : PortState) (h : s.turn = .C) : s.setHere p = { s with portC := p } := by
  simp [State.setHere, State.setPort, h]

/-! ### `goto` -/

@[simp] theorem goto_cfg (ph : Phase) (s : State) : (goto ph s).cfg = s.cfg := by
  simp [goto]
@[simp] theorem goto_head (ph : Phase) (s : State) : (goto ph s).head = s.head := by
  simp [goto]
@[simp] theorem goto_tail (ph : Phase) (s : State) : (goto ph s).tail = s.tail := by
  simp [goto]
@[simp] theorem goto_slots (ph : Phase) (s : State) : (goto ph s).slots = s.slots := by
  simp [goto]
@[simp] theorem goto_mem (ph : Phase) (s : State) : (goto ph s).mem = s.mem := by
  simp [goto]
@[simp] theorem goto_past (ph : Phase) (s : State) : (goto ph s).past = s.past := by
  simp [goto]
@[simp] theorem goto_host (ph : Phase) (s : State) : (goto ph s).host = s.host := by
  simp [goto]
@[simp] theorem goto_sched (ph : Phase) (s : State) : (goto ph s).sched = s.sched := by
  simp [goto]
@[simp] theorem goto_tick (ph : Phase) (s : State) : (goto ph s).tick = s.tick := by
  simp [goto]
@[simp] theorem goto_turn (ph : Phase) (s : State) : (goto ph s).turn = s.turn := by
  simp [goto]
@[simp] theorem goto_here (ph : Phase) (s : State) : (goto ph s).here = { s.here with ph := ph } := by simp [goto]
theorem goto_port_other (ph : Phase) (s : State) (x : Port) (h : x ≠ s.turn) : (goto ph s).port x = s.port x :=
  State.setHere_port_other s _ x h

/-! ### `respond` -/

@[simp] theorem respond_cfg (i : Option Instr) (r : Response) (s : State) : (respond i r s).cfg = s.cfg := by
  simp [respond]
@[simp] theorem respond_head (i : Option Instr) (r : Response) (s : State) : (respond i r s).head = s.head := by
  simp [respond]
@[simp] theorem respond_tail (i : Option Instr) (r : Response) (s : State) : (respond i r s).tail = s.tail := by
  simp [respond]
@[simp] theorem respond_slots (i : Option Instr) (r : Response) (s : State) : (respond i r s).slots = s.slots := by
  simp [respond]
@[simp] theorem respond_mem (i : Option Instr) (r : Response) (s : State) : (respond i r s).mem = s.mem := by
  simp [respond]
@[simp] theorem respond_past (i : Option Instr) (r : Response) (s : State) : (respond i r s).past = s.past := by
  simp [respond]
@[simp] theorem respond_host (i : Option Instr) (r : Response) (s : State) : (respond i r s).host = s.host := by
  simp [respond]
@[simp] theorem respond_sched (i : Option Instr) (r : Response) (s : State) : (respond i r s).sched = s.sched := by
  simp [respond]
@[simp] theorem respond_tick (i : Option Instr) (r : Response) (s : State) : (respond i r s).tick = s.tick := by
  simp [respond]
@[simp] theorem respond_turn (i : Option Instr) (r : Response) (s : State) : (respond i r s).turn = s.turn := by
  simp [respond]
@[simp] theorem respond_here (i : Option Instr) (r : Response) (s : State) :
    (respond i r s).here = { s.here with busy := false, done := s.here.done ++ [{ req := i, resp := r }] } := by
  simp [respond]
theorem respond_port_other (i : Option Instr) (r : Response) (s : State) (x : Port) (h : x ≠ s.turn) :
    (respond i r s).port x = s.port x :=
  State.setHere_port_other s _ x h

/-! ### `accept` -/

@[simp] theorem accept_cfg (i : Instr) (s : State) : (accept i s).cfg = s.cfg := by
  simp [accept]
@[simp] theorem accept_head (i : Instr) (s : State) : (accept i s).head = s.head := by
  simp [accept]
@[simp] theorem accept_tail (i : Instr) (s : State) : (accept i s).tail = s.tail := by
  simp [accept]
@[simp] theorem accept_slots (i : Instr) (s : State) : (accept i s).slots = s.slots := by
  simp [accept]
@[simp] theorem accept_mem (i : Instr) (s : State) : (accept i s).mem = s.mem := by
  simp [accept]
@[simp] theorem accept_past (i : Instr) (s : State) : (accept i s).past = s.past := by
  simp [accept]
@[simp] theorem accept_host (i : Instr) (s : State) : (accept i s).host = s.host := by
  simp [accept]
@[simp] theorem accept_sched (i : Instr) (s : State) : (accept i s).sched = s.sched := by
  simp [accept]
@[simp] theorem accept_tick (i : Instr) (s : State) : (accept i s).tick = s.tick := by
  simp [accept]
@[simp] theorem accept_turn (i : Instr) (s : State) : (accept i s).turn = s.turn := by
  simp [accept]
@[simp] theorem accept_here (i : Instr) (s : State) :
    (accept i s).here = { s.here with busy := true, req := i, ph := firstPhase s.turn i } := by
  simp [accept]
theorem accept_port_other (i : Instr) (s : State) (x : Port) (h : x ≠ s.turn) : (accept i s).port x = s.port x :=
  State.setHere_port_other s _ x h

/-! ### `storeCur` -/

@[simp] theorem storeCur_head_head (v : Nat) (s : State) : (storeCur .head v s).head = v % s.cfg.capacity := rfl
@[simp] theorem storeCur_head_tail (v : Nat) (s : State) : (storeCur .head v s).tail = s.tail := rfl
@[simp] theorem storeCur_tail_tail (v : Nat) (s : State) : (storeCur .tail v s).tail = v % s.cfg.capacity := rfl
@[simp] theorem storeCur_tail_head (v : Nat) (s : State) : (storeCur .tail v s).head = s.head := rfl
@[simp] theorem storeCur_cfg (c : Cursor) (v : Nat) (s : State) : (storeCur c v s).cfg = s.cfg := by
  cases c <;> rfl
@[simp] theorem storeCur_slots (c : Cursor) (v : Nat) (s : State) : (storeCur c v s).slots = s.slots := by
  cases c <;> rfl
@[simp] theorem storeCur_mem (c : Cursor) (v : Nat) (s : State) : (storeCur c v s).mem = s.mem := by
  cases c <;> rfl
@[simp] theorem storeCur_past (c : Cursor) (v : Nat) (s : State) : (storeCur c v s).past = s.past := by
  cases c <;> rfl
@[simp] theorem storeCur_host (c : Cursor) (v : Nat) (s : State) : (storeCur c v s).host = s.host := by
  cases c <;> rfl
@[simp] theorem storeCur_sched (c : Cursor) (v : Nat) (s : State) : (storeCur c v s).sched = s.sched := by
  cases c <;> rfl
@[simp] theorem storeCur_tick (c : Cursor) (v : Nat) (s : State) : (storeCur c v s).tick = s.tick := by
  cases c <;> rfl
@[simp] theorem storeCur_turn (c : Cursor) (v : Nat) (s : State) : (storeCur c v s).turn = s.turn := by
  cases c <;> rfl
@[simp] theorem storeCur_portP (c : Cursor) (v : Nat) (s : State) : (storeCur c v s).portP = s.portP := by
  cases c <;> rfl
@[simp] theorem storeCur_portC (c : Cursor) (v : Nat) (s : State) : (storeCur c v s).portC = s.portC := by
  cases c <;> rfl
@[simp] theorem storeCur_here (c : Cursor) (v : Nat) (s : State) : (storeCur c v s).here = s.here := by
  cases c <;> rfl
@[simp] theorem storeCur_port (c : Cursor) (v : Nat) (s : State) (x : Port) : (storeCur c v s).port x = s.port x := by
  cases c <;> cases x <;> rfl

/-! ### `slotWrite` -/

@[simp] theorem slotWrite_slots (i : Nat) (v : Elem) (s : State) : (slotWrite i v s).slots = Cells.write i v s.slots := rfl
@[simp] theorem slotWrite_cfg (i : Nat) (v : Elem) (s : State) : (slotWrite i v s).cfg = s.cfg := rfl
@[simp] theorem slotWrite_head (i : Nat) (v : Elem) (s : State) : (slotWrite i v s).head = s.head := rfl
@[simp] theorem slotWrite_tail (i : Nat) (v : Elem) (s : State) : (slotWrite i v s).tail = s.tail := rfl
@[simp] theorem slotWrite_mem (i : Nat) (v : Elem) (s : State) : (slotWrite i v s).mem = s.mem := rfl
@[simp] theorem slotWrite_past (i : Nat) (v : Elem) (s : State) : (slotWrite i v s).past = s.past := rfl
@[simp] theorem slotWrite_host (i : Nat) (v : Elem) (s : State) : (slotWrite i v s).host = s.host := rfl
@[simp] theorem slotWrite_sched (i : Nat) (v : Elem) (s : State) : (slotWrite i v s).sched = s.sched := rfl
@[simp] theorem slotWrite_tick (i : Nat) (v : Elem) (s : State) : (slotWrite i v s).tick = s.tick := rfl
@[simp] theorem slotWrite_turn (i : Nat) (v : Elem) (s : State) : (slotWrite i v s).turn = s.turn := rfl
@[simp] theorem slotWrite_portP (i : Nat) (v : Elem) (s : State) : (slotWrite i v s).portP = s.portP := rfl
@[simp] theorem slotWrite_portC (i : Nat) (v : Elem) (s : State) : (slotWrite i v s).portC = s.portC := rfl
@[simp] theorem slotWrite_here (i : Nat) (v : Elem) (s : State) : (slotWrite i v s).here = s.here := rfl
@[simp] theorem slotWrite_port (i : Nat) (v : Elem) (s : State) (x : Port) : (slotWrite i v s).port x = s.port x := by
  cases x <;> rfl

/-! ### `resetBlock` -/

@[simp] theorem resetBlock_cfg (s : State) : (resetBlock s).cfg = s.cfg := rfl
@[simp] theorem resetBlock_mem (s : State) : (resetBlock s).mem = s.mem := rfl
@[simp] theorem resetBlock_host (s : State) : (resetBlock s).host = s.host := rfl
@[simp] theorem resetBlock_sched (s : State) : (resetBlock s).sched = s.sched := rfl
@[simp] theorem resetBlock_tick (s : State) : (resetBlock s).tick = s.tick := rfl
@[simp] theorem resetBlock_turn (s : State) : (resetBlock s).turn = s.turn := rfl
@[simp] theorem resetBlock_head (s : State) : (resetBlock s).head = 0 := rfl
@[simp] theorem resetBlock_tail (s : State) : (resetBlock s).tail = 0 := rfl
@[simp] theorem resetBlock_past (s : State) :
    (resetBlock s).past = s.past ++ s.portP.done ++ s.portC.done := rfl
@[simp] theorem resetBlock_slots (s : State) : (resetBlock s).slots = [] := rfl
@[simp] theorem resetBlock_portP (s : State) : (resetBlock s).portP = .idle (streamAfterReset s.portP) := rfl
@[simp] theorem resetBlock_portC (s : State) : (resetBlock s).portC = .idle (streamAfterReset s.portC) := rfl

/-! ### Cursor loads -/

@[simp] theorem loadCur_head (o : LoadOrder) (s : State) : loadCur .head o s = s.head := rfl
@[simp] theorem loadCur_tail (o : LoadOrder) (s : State) : loadCur .tail o s = s.tail := rfl

end Sys2Proof.Machine
end

