-- ==== Sys2Proof/Laws/Ops.lean ====
section
/-! SUPPORT. What each shared operation, the fetch and the step can do, said once. -/

namespace Sys2Proof.Machine

/-! ### The step -/

/-- A step that answers a next state either moved without a command's micro-step or ran one. -/
theorem step_cases {s t : State} (h : step s = .next t) :
    fetch s = .moved t ∨ ∃ i u, fetch s = .run i u ∧ exec i u = .next t := by
  unfold step at h
  split at h
  · rename_i u hu; simp only [Host.Outcome.next.injEq] at h; subst h; exact .inl hu
  · rename_i i u hu; exact .inr ⟨i, u, hu, h⟩
  · cases h

/-- A step faults only where the micro-step it runs faults. -/
theorem step_fault_cases {s : State} {f : Fault} (h : step s = .fault f) :
    ∃ i u, fetch s = .run i u ∧ exec i u = .fault f := by
  unfold step at h
  split at h
  · cases h
  · rename_i i u hu; exact ⟨i, u, hu, h⟩
  · cases h

/-! ### The fetch -/

@[simp] theorem draw_cfg (s : State) : (draw s).2.cfg = s.cfg := by unfold draw; split <;> rfl
@[simp] theorem draw_head (s : State) : (draw s).2.head = s.head := by unfold draw; split <;> rfl
@[simp] theorem draw_tail (s : State) : (draw s).2.tail = s.tail := by unfold draw; split <;> rfl
@[simp] theorem draw_slots (s : State) : (draw s).2.slots = s.slots := by unfold draw; split <;> rfl
@[simp] theorem draw_portP (s : State) : (draw s).2.portP = s.portP := by unfold draw; split <;> rfl
@[simp] theorem draw_portC (s : State) : (draw s).2.portC = s.portC := by unfold draw; split <;> rfl
@[simp] theorem draw_mem (s : State) : (draw s).2.mem = s.mem := by unfold draw; split <;> rfl
@[simp] theorem draw_past (s : State) : (draw s).2.past = s.past := by unfold draw; split <;> rfl
@[simp] theorem draw_host (s : State) : (draw s).2.host = s.host := by unfold draw; split <;> rfl

theorem draw_of_sched {s : State} {a : Agent} {rest : List Agent} (h : s.sched = a :: rest) :
    draw s = (a, { s with sched := rest, tick := s.tick + 1 }) := by
  simp [draw, h]

theorem fetch_of_host {s : State} (h : (draw s).1 = .host) : fetch s = fetchHost (draw s).2 := by
  unfold fetch
  split
  · rename_i t ht; simp [ht]
  · rename_i x t ht; simp [ht] at h

theorem fetch_of_port {s : State} {x : Port} (h : (draw s).1 = .port x) : fetch s = fetchPort x (draw s).2 := by
  unfold fetch
  split
  · rename_i t ht; simp [ht] at h
  · rename_i y t ht; simp only [ht, Agent.port.injEq] at h; simp [ht, h]

/-- What an idle port's packet comes to. -/
theorem fetchPacket_cases (pkt : List Byte) (s : State) :
    (illegalOn s.turn pkt = true ∧
      fetchPacket pkt s = .moved (respond (decodePacket s.cfg pkt).toOption .illegal s)) ∨
    (illegalOn s.turn pkt = false ∧
      ((∃ i, decodePacket s.cfg pkt = .ok i ∧ fetchPacket pkt s = .run i (accept i s)) ∨
       (∃ r, decodePacket s.cfg pkt = .error r ∧ fetchPacket pkt s = .stop (.malformedRequest pkt)))) := by
  unfold fetchPacket
  cases hl : illegalOn s.turn pkt
  · cases hd : decodePacket s.cfg pkt with
    | ok i => exact .inr ⟨rfl, .inl ⟨i, rfl, by simp⟩⟩
    | error r => exact .inr ⟨rfl, .inr ⟨r, rfl, by simp⟩⟩
  · exact .inl ⟨rfl, by simp⟩

/-- A port accepts what it decodes from a packet that is not illegal on it (30_encoding R97). -/
theorem accepts_of_decode {c : Config} {x : Port} {pkt : List Byte} {i : Instr} (hl : illegalOn x pkt = false)
    (hd : decodePacket c pkt = .ok i) : i.op.accepts x = true := by
  unfold decodePacket decode at hd
  unfold illegalOn at hl
  cases pkt with
  | nil => simp at hd
  | cons opc bs =>
    cases ho : Op.ofCode opc with
    | none => simp [ho] at hl
    | some o =>
      simp only [ho, Bool.not_eq_false'] at hl hd
      split at hd
      · cases hd
      · rename_i j hj; cases hd; rw [takeOperands_op hj]; exact hl
      · cases hd

/-- What a port's turn comes to. -/
theorem fetchPort_cases (x : Port) (s : State) :
    let u : State := { s with turn := x }
    (u.here.busy = true ∧ fetchPort x s = .run u.here.req u) ∨
    (u.here.busy = false ∧ present s.cfg (lastRet u.here) u.here.lines = none ∧ fetchPort x s = .moved u) ∨
    (u.here.busy = false ∧ ∃ pkt lines, present s.cfg (lastRet u.here) u.here.lines = some (pkt, lines) ∧
      fetchPort x s = fetchPacket pkt (u.setHere { u.here with lines := lines })) := by
  intro u
  unfold fetchPort
  cases hb : u.here.busy
  · cases hp : present s.cfg (lastRet u.here) u.here.lines with
    | none => simp only [u] at hb hp; simp [u, hb, hp]
    | some pl =>
      obtain ⟨pkt, lines⟩ := pl
      refine .inr (.inr ⟨rfl, pkt, lines, rfl, ?_⟩)
      simp only [u] at hb hp
      simp [u, hb, hp]
  · refine .inl ⟨rfl, ?_⟩
    simp only [u] at hb
    simp [u, hb]

/-! ### The shared micro-steps -/

/-- A query changes only its own port, and answers or not. -/
theorem queryStep_next {i : Instr} {f : Config → Nat → Nat → Nat} {s t : State} (h : queryStep i f s = .next t) :
    ∃ p : PortState, t = s.setHere p ∧ p.lines = s.here.lines ∧ p.req = s.here.req ∧
      ((p.busy = s.here.busy ∧ p.done = s.here.done) ∨
       (p.busy = false ∧ ∃ r, p.done = s.here.done ++ [{ req := some i, resp := .okRet r }])) := by
  unfold queryStep at h
  split at h
  all_goals first
    | (cases h; done)
    | (simp only [Host.Outcome.next.injEq] at h; subst h
       refine ⟨_, by simp only [goto, respond, State.setHere_setHere]; rfl, ?_⟩; simp)

/-- The checksum loop changes only its own port: it goes on, or it answers ST_PAYLOAD, or at CK2 it answers with the
result (43_checksum R194). -/
theorem checksumStep_next {i : Instr} {addr len : Nat} {answer : Word32 → Response} {s t : State}
    (h : checksumStep i addr len answer s = .next t) :
    ∃ p : PortState, t = s.setHere p ∧ p.lines = s.here.lines ∧ p.req = s.here.req ∧
      ((p.busy = s.here.busy ∧ p.done = s.here.done) ∨
       (p.busy = false ∧ p.done = s.here.done ++ [{ req := some i, resp := .payloadFault }]) ∨
       (p.busy = false ∧ s.here.ph = .ck2 ∧
         p.done = s.here.done ++ [{ req := some i, resp := answer (crcResult s.cfg s.here) }])) := by
  unfold checksumStep at h
  split at h
  · split at h
    all_goals
      simp only [Host.Outcome.next.injEq] at h; subst h
      refine ⟨_, by simp only [goto, respond, State.setHere_setHere]; rfl, ?_⟩; simp
  · split at h
    all_goals
      simp only [Host.Outcome.next.injEq] at h; subst h
      refine ⟨_, by simp only [goto, respond, State.setHere_setHere]; rfl, ?_⟩; simp
  · rename_i hph
    simp only [Host.Outcome.next.injEq] at h; subst h
    refine ⟨_, by simp only [respond]; rfl, ?_⟩; simp [hph]
  · cases h

/-- The running register is the fold of the bytes read (43_checksum R194). -/
theorem crcBytes_append (c : Word32) (bs : List Byte) (b : Byte) :
    crcBytes c (bs ++ [b]) = crcByte (crcBytes c bs) b := by
  simp [crcBytes]

/-- At CK2 the result is the configured function of the bytes read (43_checksum R194, R196). -/
theorem crcResult_eq (c : Config) (p : PortState) (h : p.acc = crcBytes crcOnes p.bytes) :
    crcResult c p = crc32 c p.bytes := by
  unfold crcResult crc32 crcIsoHdlc
  split <;> simp_all

end Sys2Proof.Machine
end

