-- ==== Sys2Proof/Laws/PerInstr.lean ====
section
/-! SUPPORT. Statements about every instruction as syntax, one lemma per constructor. -/

namespace Sys2Proof.Laws.OpcodeFirst

/-- The first byte of an encoded request is its row's `OPC`, and that byte selects the row (spec/30_encoding.md R94,
R96). -/
def Statement (i : Instr) : Prop := ∀ c : Config, (encode c i).head? = some i.op.code ∧ Op.ofCode i.op.code = some i.op

theorem push (item : Elem) : Statement (.push item) := fun _ => ⟨rfl, Op.ofCode_code _⟩
theorem pushb (cnt : Nat) (items : List Elem) : Statement (.pushb cnt items) := fun _ => ⟨rfl, Op.ofCode_code _⟩
theorem pop : Statement .pop := fun _ => ⟨rfl, Op.ofCode_code _⟩
theorem popb (cnt : Nat) : Statement (.popb cnt) := fun _ => ⟨rfl, Op.ofCode_code _⟩
theorem isempty : Statement .isempty := fun _ => ⟨rfl, Op.ofCode_code _⟩
theorem isfull : Statement .isfull := fun _ => ⟨rfl, Op.ofCode_code _⟩
theorem size : Statement .size := fun _ => ⟨rfl, Op.ofCode_code _⟩
theorem cap : Statement .cap := fun _ => ⟨rfl, Op.ofCode_code _⟩
theorem crc32 (addr : Nat) (len : Word32) : Statement (.crc32 addr len) := fun _ => ⟨rfl, Op.ofCode_code _⟩
theorem mkmsg (id ts : Word64) (topic flags : Word32) (addr : Nat) (len : Word32) :
    Statement (.mkmsg id ts topic flags addr len) := fun _ => ⟨rfl, Op.ofCode_code _⟩
theorem verify (msg : Msg) : Statement (.verify msg) := fun _ => ⟨rfl, Op.ofCode_code _⟩
theorem fset (mask : Word32) (msg : Msg) : Statement (.fset mask msg) := fun _ => ⟨rfl, Op.ofCode_code _⟩
theorem fclr (mask : Word32) (msg : Msg) : Statement (.fclr mask msg) := fun _ => ⟨rfl, Op.ofCode_code _⟩
theorem ftst (mask : Word32) (msg : Msg) : Statement (.ftst mask msg) := fun _ => ⟨rfl, Op.ofCode_code _⟩

end Sys2Proof.Laws.OpcodeFirst
end

