-- ==== Sys2Proof/Laws/Ring.lean ====
section
/-! SUPPORT. What one micro-step of a ring command, and one action of the host, can do: each said once. -/

namespace Sys2Proof.Machine

/-- A micro-step of PUSH that answers a next state (spec/40_push.md R131). -/
theorem execPush_next {item : Elem} {s t : State} (h : execPush item s = .next t) :
    (s.turn = .C ∧ t = respond (some (.push item)) .illegal s) ∨
    (s.turn = .P ∧ s.portP.ph = .pu1 ∧ t = goto .pu2 (s.setHere { s.here with h := s.head })) ∨
    (s.turn = .P ∧ s.portP.ph = .pu2 ∧ nextCursor s.cfg s.portP.h = s.tail ∧
      t = respond (some (.push item)) (.okRet 0) (s.setHere { s.here with t := s.tail })) ∨
    (s.turn = .P ∧ s.portP.ph = .pu2 ∧ nextCursor s.cfg s.portP.h ≠ s.tail ∧
      t = goto .pu3 (s.setHere { s.here with t := s.tail })) ∨
    (s.turn = .P ∧ s.portP.ph = .pu3 ∧ t = goto .pu4 (slotWrite (cursorAdd s.cfg s.portP.h 0) item s)) ∨
    (s.turn = .P ∧ s.portP.ph = .pu4 ∧
      t = respond (some (.push item)) (.okRet 1) (storeCur .head (nextCursor s.cfg s.portP.h) s)) := by
  unfold execPush refusedByPort at h
  split at h
  · rename_i ht; cases h; exact .inl ⟨ht, rfl⟩
  · rename_i ht
    have hh := State.here_eq_portP s ht
    split at h
    · rename_i hp; cases h; exact .inr (.inl ⟨ht, hp, by simp⟩)
    · rename_i hp
      simp only [State.setHere_here, State.setHere_cfg, loadCur_tail, hh] at h
      split at h
      · rename_i hf; cases h; exact .inr (.inr (.inl ⟨ht, hp, hf, by simp [hh]⟩))
      · rename_i hf; cases h; exact .inr (.inr (.inr (.inl ⟨ht, hp, hf, by simp [hh]⟩)))
    · rename_i hp; cases h; exact .inr (.inr (.inr (.inr (.inl ⟨ht, hp, by rw [hh]⟩))))
    · rename_i hp; cases h; exact .inr (.inr (.inr (.inr (.inr ⟨ht, hp, by rw [hh]⟩))))
    · cases h

/-- A micro-step of PUSHB that answers a next state (spec/40_push.md R136). -/
theorem execPushb_next {cnt : Nat} {items : List Elem} {s t : State} (h : execPushb cnt items s = .next t) :
    (s.turn = .C ∧ t = respond (some (.pushb cnt items)) .illegal s) ∨
    (s.turn = .P ∧ s.portP.ph = .pb1 ∧ t = goto .pb2 (s.setHere { s.here with h := s.head })) ∨
    (s.turn = .P ∧ s.portP.ph = .pb2 ∧ min cnt (roomOf s.cfg s.portP.h s.tail) = 0 ∧
      t = respond (some (.pushb cnt items)) (.okRet 0)
        (s.setHere { s.here with t := s.tail, n := min cnt (roomOf s.cfg s.portP.h s.tail), i := 0 })) ∨
    (s.turn = .P ∧ s.portP.ph = .pb2 ∧ min cnt (roomOf s.cfg s.portP.h s.tail) ≠ 0 ∧
      t = goto .pb3
        (s.setHere { s.here with t := s.tail, n := min cnt (roomOf s.cfg s.portP.h s.tail), i := 0 })) ∨
    (s.turn = .P ∧ s.portP.ph = .pb3 ∧ ∃ e, items[s.portP.i]? = some e ∧
      t = goto (if s.portP.i + 1 < s.portP.n then .pb3 else .pb4)
        ((slotWrite (cursorAdd s.cfg s.portP.h s.portP.i) e s).setHere { s.here with i := s.portP.i + 1 })) ∨
    (s.turn = .P ∧ s.portP.ph = .pb4 ∧
      t = respond (some (.pushb cnt items)) (.okRet s.portP.n)
        (storeCur .head (cursorAdd s.cfg s.portP.h s.portP.n) s)) := by
  unfold execPushb refusedByPort at h
  split at h
  · rename_i ht; cases h; exact .inl ⟨ht, rfl⟩
  · rename_i ht
    have hh := State.here_eq_portP s ht
    split at h
    · rename_i hp; cases h; exact .inr (.inl ⟨ht, hp, by simp⟩)
    · rename_i hp
      simp only [loadCur_tail, hh] at h
      split at h
      · rename_i hf; cases h; exact .inr (.inr (.inl ⟨ht, hp, hf, by simp [hh]⟩))
      · rename_i hf; cases h; exact .inr (.inr (.inr (.inl ⟨ht, hp, hf, by simp [hh]⟩)))
    · rename_i hp
      split at h
      · cases h
      · rename_i e he
        cases h
        exact .inr (.inr (.inr (.inr (.inl ⟨ht, hp, e, by rw [← hh]; exact he, by simp [hh]⟩))))
    · rename_i hp; cases h; exact .inr (.inr (.inr (.inr (.inr ⟨ht, hp, by rw [hh]⟩))))
    · cases h

/-- A micro-step of POP that answers a next state (spec/41_pop.md R151). -/
theorem execPop_next {s t : State} (h : execPop s = .next t) :
    (s.turn = .P ∧ t = respond (some .pop) .illegal s) ∨
    (s.turn = .C ∧ s.portC.ph = .po1 ∧ t = goto .po2 (s.setHere { s.here with t := s.tail })) ∨
    (s.turn = .C ∧ s.portC.ph = .po2 ∧ s.head = s.portC.t ∧
      t = respond (some .pop) (.okRet 0) (s.setHere { s.here with h := s.head })) ∨
    (s.turn = .C ∧ s.portC.ph = .po2 ∧ s.head ≠ s.portC.t ∧
      t = goto .po3 (s.setHere { s.here with h := s.head })) ∨
    (s.turn = .C ∧ s.portC.ph = .po3 ∧ ∃ e, slotRead (cursorAdd s.cfg s.portC.t 0) s = some e ∧
      t = goto .po4 (s.setHere { s.here with out := [e] })) ∨
    (s.turn = .C ∧ s.portC.ph = .po4 ∧ ∃ e, s.portC.out.head? = some e ∧
      t = respond (some .pop) (.okWith 1 (.item e)) (storeCur .tail (nextCursor s.cfg s.portC.t) s)) := by
  unfold execPop refusedByPort at h
  split at h
  · rename_i ht; cases h; exact .inl ⟨ht, rfl⟩
  · rename_i ht
    have hh := State.here_eq_portC s ht
    split at h
    · rename_i hp; cases h; exact .inr (.inl ⟨ht, hp, by simp⟩)
    · rename_i hp
      simp only [State.setHere_here, loadCur_head, hh] at h
      split at h
      · rename_i hf; cases h; exact .inr (.inr (.inl ⟨ht, hp, hf, by simp [hh]⟩))
      · rename_i hf; cases h; exact .inr (.inr (.inr (.inl ⟨ht, hp, hf, by simp [hh]⟩)))
    · rename_i hp
      split at h
      · cases h
      · rename_i e he; cases h; exact .inr (.inr (.inr (.inr (.inl ⟨ht, hp, e, by rw [← hh]; exact he, rfl⟩))))
    · rename_i hp
      split at h
      · cases h
      · rename_i e he
        cases h
        exact .inr (.inr (.inr (.inr (.inr ⟨ht, hp, e, by rw [← hh]; exact he, by rw [hh]⟩))))
    · cases h

/-- A micro-step of POPB that answers a next state (spec/41_pop.md R156). -/
theorem execPopb_next {cnt : Nat} {s t : State} (h : execPopb cnt s = .next t) :
    (s.turn = .P ∧ t = respond (some (.popb cnt)) .illegal s) ∨
    (s.turn = .C ∧ s.portC.ph = .pc1 ∧ t = goto .pc2 (s.setHere { s.here with t := s.tail })) ∨
    (s.turn = .C ∧ s.portC.ph = .pc2 ∧ min cnt (occOf s.cfg s.head s.portC.t) = 0 ∧
      t = respond (some (.popb cnt)) (.okWith 0 (.items []))
        (s.setHere { s.here with h := s.head, n := min cnt (occOf s.cfg s.head s.portC.t), i := 0, out := [] })) ∨
    (s.turn = .C ∧ s.portC.ph = .pc2 ∧ min cnt (occOf s.cfg s.head s.portC.t) ≠ 0 ∧
      t = goto .pc3
        (s.setHere { s.here with h := s.head, n := min cnt (occOf s.cfg s.head s.portC.t), i := 0, out := [] })) ∨
    (s.turn = .C ∧ s.portC.ph = .pc3 ∧ ∃ e, slotRead (cursorAdd s.cfg s.portC.t s.portC.i) s = some e ∧
      t = goto (if s.portC.i + 1 < s.portC.n then .pc3 else .pc4)
        (s.setHere { s.here with out := s.portC.out ++ [e], i := s.portC.i + 1 })) ∨
    (s.turn = .C ∧ s.portC.ph = .pc4 ∧
      t = respond (some (.popb cnt)) (.okWith s.portC.n (.items s.portC.out))
        (storeCur .tail (cursorAdd s.cfg s.portC.t s.portC.n) s)) := by
  unfold execPopb refusedByPort at h
  split at h
  · rename_i ht; cases h; exact .inl ⟨ht, rfl⟩
  · rename_i ht
    have hh := State.here_eq_portC s ht
    split at h
    · rename_i hp; cases h; exact .inr (.inl ⟨ht, hp, by simp⟩)
    · rename_i hp
      simp only [loadCur_head, hh] at h
      split at h
      · rename_i hf; cases h; exact .inr (.inr (.inl ⟨ht, hp, hf, by simp [hh]⟩))
      · rename_i hf; cases h; exact .inr (.inr (.inr (.inl ⟨ht, hp, hf, by simp [hh]⟩)))
    · rename_i hp
      split at h
      · cases h
      · rename_i e he
        cases h
        exact .inr (.inr (.inr (.inr (.inl ⟨ht, hp, e, by rw [← hh]; exact he, by simp [hh]⟩))))
    · rename_i hp; cases h; exact .inr (.inr (.inr (.inr (.inr ⟨ht, hp, by rw [hh]⟩))))
    · cases h

/-- The host's turn, where it moves: nothing, a byte written, a byte withdrawn, or a reset (spec/70_reset_and_hazards.md
R270). -/
theorem fetchHost_moved {s t : State} (h : fetchHost s = .moved t) :
    (s.host = [] ∧ t = s) ∨
    (∃ a b rest, s.host = .write a b :: rest ∧ a < 2 ^ s.cfg.paddrBits ∧
      t = { s with host := rest, mem := Cells.write a b s.mem }) ∨
    (∃ a rest, s.host = .withdraw a :: rest ∧ a < 2 ^ s.cfg.paddrBits ∧
      t = { s with host := rest, mem := Cells.erase a s.mem }) ∨
    (∃ rest, s.host = .reset :: rest ∧ t = resetBlock { s with host := rest }) := by
  unfold fetchHost at h
  split at h
  · rename_i hs; cases h; exact .inl ⟨hs, rfl⟩
  · rename_i a rest hs
    unfold hostAct at h
    split at h
    · split at h
      · rename_i hb; cases h; exact .inr (.inl ⟨_, _, rest, hs, hb, rfl⟩)
      · cases h
    · split at h
      · rename_i hb; cases h; exact .inr (.inr (.inl ⟨_, rest, hs, hb, rfl⟩))
      · cases h
    · cases h; exact .inr (.inr (.inr ⟨rest, hs, rfl⟩))

end Sys2Proof.Machine
end

