-- ==== Sys2Proof/Tests/Slice0.lean ====
section
/-! SUPPORT. The model's own tests: ill-formed terms, words written out from the spec's encodings, single micro-steps from
spec/95_test_vectors.md, and a witness for the hypotheses of each statement. -/

namespace Sys2Proof.Tests

open Sys2Proof Sys2Proof.Machine

/-! ### Helpers -/

/-- The test configuration of spec/95_test_vectors.md with capacity `2 ^ K`. -/
def cfgK (K : Nat) : Config := { Config.default with K := K }

/-- Capacity 4, otherwise the default. -/
def cfg2 : Config := cfgK 2

/-- A state of capacity `2 ^ K` with these cursors and slots, both ports idle. -/
def ringAt (K head tail : Nat) (slots : SlotArray) : State :=
  { State.construct (cfgK K) with head := head, tail := tail, slots := slots }

/-- A port with request `i` in flight at phase `ph`, its latches zero. -/
def portAt (i : Instr) (ph : Phase) : PortState := { PortState.idle [] with busy := true, req := i, ph := ph }

/-- `s` with port `P` moving, in the given port state. -/
def movingP (p : PortState) (s : State) : State := { s with portP := p, turn := .P }

/-- `s` with port `C` moving, in the given port state. -/
def movingC (p : PortState) (s : State) : State := { s with portC := p, turn := .C }

/-- The outcome is a next state with property `p`. -/
def nextIs (r : Result) (p : State → Bool) : Bool :=
  match r with
  | .next t => p t
  | _ => false

/-- The last response on a port is `r`. -/
def lastIs (p : PortState) (r : Response) : Bool := (p.done.getLast?.map (fun d => d.resp)) == some r

/-- "Hello, NanoMQ!" (95 T6). -/
def hello : List Byte := [0x48, 0x65, 0x6C, 0x6C, 0x6F, 0x2C, 0x20, 0x4E, 0x61, 0x6E, 0x6F, 0x4D, 0x51, 0x21]

/-- "Hello, World!" (95 T6). -/
def world : List Byte := [0x48, 0x65, 0x6C, 0x6C, 0x6F, 0x2C, 0x20, 0x57, 0x6F, 0x72, 0x6C, 0x64, 0x21]

/-- Payload memory holding `bs` from `a` on. -/
def memAt (a : Nat) (bs : List Byte) : Memory := bs.zipIdx.map (fun x => (a + x.2, x.1))

/-- A header with only an id. -/
def idHeader (id : Word64) : Header :=
  { id := id, timestamp := 0, topicId := 0, size := 0, crc32 := 0, flags := 0, reserved := 0 }

/-- The Message of V-MKMSG, fields by hand. -/
def msg0 : Msg :=
  { hdr := { id := 42, timestamp := 0x17979CFE362A0000, topicId := 7, size := 14, crc32 := 0x7F1E0E5D, flags := 5,
             reserved := 0 },
    pref := 0x1000 }

/-- The first 32 header bytes of V-MKMSG as its table prints them. -/
def msg0Head : List Byte :=
  [0x2A, 0, 0, 0, 0, 0, 0, 0, 0x00, 0x00, 0x2A, 0x36, 0xFE, 0x9C, 0x97, 0x17,
   0x07, 0, 0, 0, 0x0E, 0, 0, 0, 0x5D, 0x0E, 0x1E, 0x7F, 0x05, 0, 0, 0]

/-- The 72 bytes of V-MKMSG: the header's first half, 32 reserved bytes, the payload reference. -/
def msg0Bytes : List Byte := msg0Head ++ List.replicate 32 0 ++ [0x00, 0x10, 0, 0, 0, 0, 0, 0]

/-- Both decoders' answers are compared through this: the request, if the packet is one. -/
def readPacket (c : Config) (bs : List Byte) : Option Instr := (decodePacket c bs).toOption

/-- The rejection, if the packet is refused. -/
def rejectOf (c : Config) (bs : List Byte) : Option Reject :=
  match decodePacket c bs with
  | .ok _ => none
  | .error r => some r

/-! ### Well-formedness: one ill-formed term per check (00_scope R8, 30_encoding R91, R99, R110, R112) -/

theorem test_wf_item_too_wide : (Instr.push (2 ^ 32)).wf Config.default = false := by decide
theorem test_wf_item_widest : (Instr.push (2 ^ 32 - 1)).wf Config.default = true := by decide
theorem test_wf_pushb_count_too_wide : (Instr.pushb 256 []).wf { cfg2 with cntBits := 8 } = false := by decide
theorem test_wf_pushb_count_not_length : (Instr.pushb 2 [7]).wf cfg2 = false := by decide
theorem test_wf_pushb_item_too_wide : (Instr.pushb 1 [2 ^ 32]).wf cfg2 = false := by decide
theorem test_wf_popb_count_too_wide : (Instr.popb 256).wf { cfg2 with cntBits := 8 } = false := by decide
theorem test_wf_crc32_address_too_wide : (Instr.crc32 256 0).wf { cfg2 with paddrBits := 8 } = false := by decide
theorem test_wf_mkmsg_address_too_wide :
    (Instr.mkmsg 0 0 0 0 256 0).wf { cfg2 with paddrBits := 8 } = false := by decide
theorem test_wf_message_reference_too_wide :
    Msg.wf { cfg2 with paddrBits := 8 } { msg0 with pref := 256 } = false ∧
    (Instr.verify { msg0 with pref := 256 }).wf { cfg2 with paddrBits := 8 } = false ∧
    (Instr.fset 1 { msg0 with pref := 256 }).wf { cfg2 with paddrBits := 8 } = false ∧
    (Instr.fclr 1 { msg0 with pref := 256 }).wf { cfg2 with paddrBits := 8 } = false ∧
    (Instr.ftst 1 { msg0 with pref := 256 }).wf { cfg2 with paddrBits := 8 } = false := by decide
theorem test_config_default_wf : Config.default.wf = true := by decide
theorem test_config_degenerate_wf : (cfgK 0).wf = true := by decide
theorem test_config_no_element_bit : Config.wf { cfg2 with elemBits := 0 } = false := by decide
theorem test_config_count_not_bytes : Config.wf { cfg2 with cntBits := 12 } = false := by decide
theorem test_config_count_too_narrow : Config.wf { cfgK 8 with cntBits := 8 } = false := by decide
theorem test_config_address_not_bytes : Config.wf { cfg2 with paddrBits := 12 } = false := by decide
theorem test_config_address_too_narrow : Config.wf { cfg2 with paddrBits := 0 } = false := by decide
theorem test_flagmap_out_of_word : FlagMap.wf { FlagMap.default with priority := 32 } = false ∧
    FlagMap.wf { FlagMap.default with compressed := 32 } = false ∧
    FlagMap.wf { FlagMap.default with encrypted := 32 } = false ∧
    FlagMap.wf { FlagMap.default with persistent := 32 } = false := by decide
theorem test_flagmap_not_injective : FlagMap.wf { FlagMap.default with priority := 0 } = false := by decide

/-! ### Decoding: one word of every row, from the byte forms of spec/95_test_vectors.md -/

theorem test_decode_push : readPacket Config.default [0x01, 0xE7, 0x03, 0, 0] = some (.push 999) := by decide
theorem test_decode_pushb :
    readPacket Config.default
      [0x02, 3, 0, 0, 0, 0, 0, 0, 0, 7, 0, 0, 0, 8, 0, 0, 0, 9, 0, 0, 0] = some (.pushb 3 [7, 8, 9]) := by decide
theorem test_decode_pop : readPacket Config.default [0x11] = some .pop := by decide
theorem test_decode_popb :
    readPacket Config.default [0x12, 0xE8, 0x03, 0, 0, 0, 0, 0, 0] = some (.popb 1000) := by decide
theorem test_decode_isempty : readPacket Config.default [0x20] = some .isempty := by decide
theorem test_decode_isfull : readPacket Config.default [0x21] = some .isfull := by decide
theorem test_decode_size : readPacket Config.default [0x22] = some .size := by decide
theorem test_decode_cap : readPacket Config.default [0x23] = some .cap := by decide
theorem test_decode_crc32 :
    readPacket Config.default [0x30, 0xF8, 0xFF, 0xFF, 0xFF, 0xFF, 0xFF, 0xFF, 0xFF, 0x10, 0, 0, 0]
      = some (.crc32 0xFFFFFFFFFFFFFFF8 16) := by decide
theorem test_decode_mkmsg :
    readPacket Config.default
      [0x31, 0x2A, 0, 0, 0, 0, 0, 0, 0, 0x00, 0x00, 0x2A, 0x36, 0xFE, 0x9C, 0x97, 0x17, 0x07, 0, 0, 0, 0x05, 0, 0, 0,
       0x00, 0x10, 0, 0, 0, 0, 0, 0, 0x0E, 0, 0, 0]
      = some (.mkmsg 42 1700000000000000000 7 5 0x1000 14) := by decide
theorem test_decode_verify : readPacket Config.default (0x32 :: msg0Bytes) = some (.verify msg0) := by decide +kernel
theorem test_decode_fset :
    readPacket Config.default ([0x40, 8, 0, 0, 0] ++ msg0Bytes) = some (.fset 8 msg0) := by decide +kernel
theorem test_decode_fclr :
    readPacket Config.default ([0x41, 8, 0, 0, 0] ++ msg0Bytes) = some (.fclr 8 msg0) := by decide +kernel
theorem test_decode_ftst :
    readPacket Config.default ([0x42, 8, 0, 0, 0] ++ msg0Bytes) = some (.ftst 8 msg0) := by decide +kernel

/-- The encoder gives the same bytes (V-PUSHB and V-FLAG byte forms). -/
theorem test_encode_words :
    encode Config.default (.pushb 3 [7, 8, 9])
      = [0x02, 3, 0, 0, 0, 0, 0, 0, 0, 7, 0, 0, 0, 8, 0, 0, 0, 9, 0, 0, 0] ∧
    encode Config.default (.fset 8 msg0) = [0x40, 8, 0, 0, 0] ++ msg0Bytes ∧
    (encode Config.default (.fset 8 msg0)).length = 77 := by decide +kernel

/-- V-ILL: the reserved opcodes the table names; 30_encoding R98. -/
theorem test_reserved_opcodes :
    [0x00, 0x03, 0x10, 0x13, 0x24, 0x33, 0x43, 0x7F, 0xFF].all
      (fun b : Byte => rejectOf Config.default [b] == some (.reservedOpcode b)) = true := by decide

theorem test_reject_no_opcode : rejectOf Config.default [] = some .noOpcode := by decide
theorem test_reject_truncated : rejectOf Config.default [0x01, 0x07, 0, 0] = some .truncated := by decide
theorem test_reject_trailing : rejectOf Config.default [0x11, 0x00] = some .trailing := by decide
theorem test_reject_pushb_short :
    rejectOf Config.default [0x02, 2, 0, 0, 0, 0, 0, 0, 0, 7, 0, 0, 0] = some .truncated := by decide
theorem test_reject_padding :
    rejectOf { Config.default with elemBits := 12 } [0x01, 0xFF, 0x1F] = some .padding ∧
    readPacket { Config.default with elemBits := 12 } [0x01, 0xFF, 0x0F] = some (.push 0xFFF) := by decide

/-- Log 26: with 12-bit elements each element of `ITEMS` takes two bytes. -/
theorem test_sequence_padded_per_element :
    readPacket { Config.default with elemBits := 12, cntBits := 8 } [0x02, 2, 0xAB, 0x0C, 0x12, 0x03]
      = some (.pushb 2 [0xCAB, 0x312]) := by decide

/-- No two rows of the opcode map share a code (30_encoding R96). -/
theorem test_opcode_rows_distinct : Op.all.Pairwise (fun o p => o.code ≠ p.code) ∧ Op.all.length = 14 := by decide

/-- 30_encoding R97: who accepts what. -/
theorem test_port_acceptance :
    Op.all.filter (fun o => !o.accepts .P) = [.pop, .popb] ∧
    Op.all.filter (fun o => !o.accepts .C) = [.push, .pushb] := by decide

/-- V-PUSH, V-POP, V-POPB, V-CRC, V-ILL: response byte forms. -/
theorem test_response_bytes :
    (Response.okRet 1).encode Config.default = [0, 1, 0, 0, 0, 0, 0, 0, 0] ∧
    (Response.okWith 1 (.item 7)).encode Config.default = [0, 1, 0, 0, 0, 0, 0, 0, 0, 7, 0, 0, 0] ∧
    (Response.okWith 3 (.items [11, 12, 13])).encode Config.default =
      [0, 3, 0, 0, 0, 0, 0, 0, 0, 0x0B, 0, 0, 0, 0x0C, 0, 0, 0, 0x0D, 0, 0, 0] ∧
    (Response.okWith 1 (.code 0x7F1E0E5D)).encode Config.default =
      [0, 1, 0, 0, 0, 0, 0, 0, 0, 0x5D, 0x0E, 0x1E, 0x7F] ∧
    Response.illegal.encode Config.default = [1, 0, 0, 0, 0, 0, 0, 0, 0] ∧
    Response.payloadFault.encode Config.default = [2, 0, 0, 0, 0, 0, 0, 0, 0] := by decide

/-- V-MKMSG: the 72 bytes of the Message; 30_encoding R105, R106, R112. -/
theorem test_message_bytes : putMsg Config.default msg0 = msg0Bytes := by decide +kernel

/-- 30_encoding R105: `size` is bits 191 to 160 of the header, `flags` bits 255 to 224. -/
theorem test_header_bit_positions :
    (Header.ofBits (1#512 <<< 160)).size = 1 ∧ (Header.ofBits (1#512 <<< 255)).flags = 0x80000000 ∧
    (Header.ofBits (1#512 <<< 192)).crc32 = 1 ∧ (Header.ofBits (1#512 <<< 128)).topicId = 1 := by decide +kernel

/-! ### Single micro-steps (95 part 2) -/

/-- V-PUSH `(15, 3)`: the cursor wraps from 15 to 0 at PU4. -/
theorem test_push_wraps_head :
    nextIs (exec (.push 7) (movingP { portAt (.push 7) .pu4 with h := 15, t := 3 } (ringAt 4 15 3 [])))
      (fun t => t.head == 0 && t.tail == 3 && lastIs t.portP (.okRet 1) && !t.portP.busy) = true := by decide

/-- V-PUSH `(2, 3)`: full at PU2, `RET = 0`, the cursor stays. -/
theorem test_push_full :
    nextIs (exec (.push 7) (movingP { portAt (.push 7) .pu2 with h := 2 } (ringAt 4 2 3 [])))
      (fun t => t.head == 2 && t.slots == [] && lastIs t.portP (.okRet 0)) = true := by decide

/-- V-PUSHB `(5, 2)`, count 100: the room is 12, and the batch goes on to its writes. -/
theorem test_pushb_room :
    nextIs (exec (.pushb 100 []) (movingP { portAt (.pushb 100 []) .pb2 with h := 5 } (ringAt 4 5 2 [])))
      (fun t => t.portP.n == 12 && t.portP.ph == .pb3 && t.head == 5) = true := by decide

/-- V-PUSHB `(14, 3)`, count 3: the third element goes to slot 0, and `head` is stored only by the next micro-step. -/
theorem test_pushb_slot_wraps :
    nextIs (exec (.pushb 3 [7, 8, 9])
        (movingP { portAt (.pushb 3 [7, 8, 9]) .pb3 with h := 14, t := 3, n := 3, i := 2 } (ringAt 4 14 3 [])))
      (fun t => t.slots == [(0, 9)] && t.head == 14 && t.portP.ph == .pb4) = true := by decide

/-- V-POP `(3, 15)`: the tail wraps to 0 and the element comes back. -/
theorem test_pop_wraps_tail :
    nextIs (exec .pop (movingC { portAt .pop .po4 with t := 15, h := 3, out := [21] } (ringAt 4 3 15 [(15, 21)])))
      (fun t => t.tail == 0 && lastIs t.portC (.okWith 1 (.item 21)) && t.slots == [(15, 21)]) = true := by decide

/-- V-POP `(9, 9)`: empty, `RET = 0` without an `ITEM` lane. -/
theorem test_pop_empty :
    nextIs (exec .pop (movingC { portAt .pop .po2 with t := 9 } (ringAt 4 9 9 [(9, 5)])))
      (fun t => t.tail == 9 && lastIs t.portC (.okRet 0)) = true := by decide

/-- V-POPB `(0, 1)`, count 16: occupancy 15. -/
theorem test_popb_occupancy :
    nextIs (exec (.popb 16) (movingC { portAt (.popb 16) .pc2 with t := 1 } (ringAt 4 0 1 [])))
      (fun t => t.portC.n == 15 && t.portC.ph == .pc3) = true := by decide

/-- V-POPB `(2, 14)`, count 3: `tail` goes from 14 to 1 in one store. -/
theorem test_popb_releases_at_once :
    nextIs (exec (.popb 3)
        (movingC { portAt (.popb 3) .pc4 with t := 14, h := 2, n := 3, i := 3, out := [5, 6, 7] } (ringAt 4 2 14 [])))
      (fun t => t.tail == 1 && lastIs t.portC (.okWith 3 (.items [5, 6, 7]))) = true := by decide

/-- V-QUERY `(7, 7)`, `K = 4`, on port `C`. -/
theorem test_isempty_on_consumer :
    nextIs (exec .isempty (movingC { portAt .isempty .qc2 with t := 7 } (ringAt 4 7 7 [])))
      (fun t => lastIs t.portC (.okRet 1)) = true := by decide

/-- V-QUERY `(0, 1)`, `K = 4`, on port `P`: full with `head` wrapped. -/
theorem test_isfull_wrapped :
    nextIs (exec .isfull (movingP { portAt .isfull .qp2 with h := 0 } (ringAt 4 0 1 [])))
      (fun t => lastIs t.portP (.okRet 1)) = true := by decide

/-- V-QUERY `(6, 10)`, `K = 8`: size 252 by wrap-around. -/
theorem test_size_wrapped :
    nextIs (exec .size (movingP { portAt .size .qp2 with h := 6 } (ringAt 8 6 10 [])))
      (fun t => lastIs t.portP (.okRet 252)) = true := by decide

/-- V-QUERY: `CAP` with `K = 8` and with `K = 0`. -/
theorem test_cap :
    nextIs (exec .cap (movingC (portAt .cap .only) (ringAt 8 0 0 []))) (fun t => lastIs t.portC (.okRet 256)) = true ∧
    nextIs (exec .cap (movingP (portAt .cap .only) (ringAt 0 0 0 []))) (fun t => lastIs t.portP (.okRet 1)) = true := by
  decide

/-- V-CRC: the codes of the default variant. -/
theorem test_crc_values :
    crcIsoHdlc [] = 0x00000000 ∧ crcIsoHdlc hello = 0x7F1E0E5D ∧ crcIsoHdlc world = 0xEC4AC3D0 ∧
    crcIsoHdlc [0x31, 0x32, 0x33, 0x34, 0x35, 0x36, 0x37, 0x38, 0x39] = 0xCBF43926 := by decide +kernel

/-- V-CRC: `CRC32 0xFFFFFFFFFFFFFFF8, 16` passes the top of payload memory and is refused at CK0. -/
theorem test_crc32_range_over_top :
    nextIs (exec (.crc32 0xFFFFFFFFFFFFFFF8 16) (movingP (portAt (.crc32 0xFFFFFFFFFFFFFFF8 16) .ck0) State.reset))
      (fun t => lastIs t.portP .payloadFault) = true := by decide +kernel

/-- V-CRC: a refused byte ends the command with `ST_PAYLOAD`. -/
theorem test_crc32_refused_byte :
    nextIs (exec (.crc32 0x1000 14) (movingC { portAt (.crc32 0x1000 14) .ck1 with i := 5 }
        { State.reset with mem := memAt 0x1000 [0x48, 0x65, 0x6C, 0x6C, 0x6F] }))
      (fun t => lastIs t.portC .payloadFault && !t.portC.busy) = true := by decide +kernel

/-- V-MKMSG: the answer at CK2 over the fourteen bytes. -/
theorem test_mkmsg_answer :
    nextIs (exec (.mkmsg 42 1700000000000000000 7 5 0x1000 14)
        (movingP { portAt (.mkmsg 42 1700000000000000000 7 5 0x1000 14) .ck2 with
          i := 14, bytes := hello, acc := crcBytes crcOnes hello } State.reset))
      (fun t => lastIs t.portP (.okWith 1 (.msg msg0))) = true := by decide +kernel

/-- V-VERIFY: the same payload verifies, and with byte 13 changed to 0xA1 it does not. -/
theorem test_verify_answer :
    nextIs (exec (.verify msg0) (movingC { portAt (.verify msg0) .ck2 with
        i := 14, bytes := hello, acc := crcBytes crcOnes hello } State.reset))
      (fun t => lastIs t.portC (.okRet 1)) = true ∧
    nextIs (exec (.verify msg0) (movingC { portAt (.verify msg0) .ck2 with
        i := 14, bytes := hello.dropLast ++ [0xA1], acc := crcBytes crcOnes (hello.dropLast ++ [0xA1]) } State.reset))
      (fun t => lastIs t.portC (.okRet 0)) = true := by decide +kernel

/-- V-VERIFY: a Message with `size = 0` verifies when its stored code is 0. -/
theorem test_verify_empty_payload :
    nextIs (exec (.verify { hdr := idHeader 1, pref := 0 }) (movingP { portAt (.verify { hdr := idHeader 1, pref := 0 }) .ck2
        with acc := crcOnes } State.reset))
      (fun t => lastIs t.portP (.okRet 1)) = true := by decide +kernel

/-- V-FLAG rows of FSET and FCLR. -/
theorem test_flag_set_and_clear :
    flagsSet 0 1 = 1 ∧ flagsSet 1 8 = 9 ∧ flagsSet 9 8 = 9 ∧ flagsSet 5 0 = 5 ∧ flagsClear 9 1 = 8 ∧
    flagsClear 8 1 = 8 ∧ flagsClear 0xF 0xFFFFFFFF = 0 ∧ flagsClear 0x80000005 4 = 0x80000001 := by decide

/-- V-FLAG rows of FTST: any bit of the mask (D17). -/
theorem test_flag_test :
    flagsTest 9 8 = true ∧ flagsTest 9 2 = false ∧ flagsTest 9 6 = false ∧ flagsTest 9 3 = true ∧
    flagsTest 9 0 = false := by decide

/-- V-FLAG: FSET 0x8 of the Message of V-MKMSG changes byte 28 from 05 to 0D and nothing else. -/
theorem test_fset_answer :
    nextIs (exec (.fset 8 msg0) (movingP (portAt (.fset 8 msg0) .only) State.reset))
      (fun t => (t.portP.done.getLast?.map (fun d => d.resp.encode Config.default)) ==
        some ([0, 1, 0, 0, 0, 0, 0, 0, 0] ++ msg0Bytes.set 28 0x0D)) = true := by decide +kernel

/-- FCLR 0x4 of the same Message leaves flags 1. -/
theorem test_fclr_answer :
    nextIs (exec (.fclr 4 msg0) (movingC (portAt (.fclr 4 msg0) .only) State.reset))
      (fun t => lastIs t.portC (.okWith 1 (.msg { msg0 with hdr := { msg0.hdr with flags := 1 } }))) = true := by
  decide +kernel

/-- PR4 rows 5 and 6: FTST returns no Message. -/
theorem test_ftst_answer :
    nextIs (exec (.ftst 4 msg0) (movingC (portAt (.ftst 4 msg0) .only) State.reset))
      (fun t => lastIs t.portC (.okRet 1)) = true ∧
    nextIs (exec (.ftst 2 msg0) (movingC (portAt (.ftst 2 msg0) .only) State.reset))
      (fun t => lastIs t.portC (.okRet 0)) = true := by decide +kernel

/-- V-ILL: the push family on `C` and the pop family on `P` answer `ST_ILLEGAL` in one step. -/
theorem test_wrong_port :
    nextIs (step (withRequest .C [0x01, 7, 0, 0, 0] State.reset))
      (fun t => lastIs t.portC .illegal && t.head == 0 && t.slots == []) = true ∧
    nextIs (step (withRequest .P [0x11] State.reset)) (fun t => lastIs t.portP .illegal && t.tail == 0) = true ∧
    nextIs (step (withRequest .P [0x7F] State.reset)) (fun t => lastIs t.portP .illegal) = true := by decide +kernel

/-- 30_encoding R98 "changes no state": a refused request is not latched (log 15). -/
theorem test_refused_request_not_latched :
    nextIs (step (withRequest .C [0x01, 7, 0, 0, 0] State.reset))
      (fun t => t.portC.req == .cap && t.portC.ph == .only && !t.portC.busy &&
        t.portC.done == [{ req := some (.push 7), resp := .illegal }]) = true := by decide +kernel

/-- 30_encoding R103 over a reset (log 18): a spin loop that has had its `RET = 1` is over, one whose request was dropped
presents it again. -/
theorem test_retry_loop_over_reset :
    streamAfterReset { PortState.idle [.spinPush 7 true] with done := [{ req := some (.push 7), resp := .okRet 1 }] }
      = [] ∧
    streamAfterReset { portAt (.push 7) .pu2 with lines := [.spinPush 7 true] } = [.spinPush 7 false] ∧
    streamAfterReset { PortState.idle [.pushAll [7, 8, 9] true] with
      done := [{ req := some (.pushb 3 [7, 8, 9]), resp := .okRet 2 }] } = [.pushAll [9] false] := by decide

/-! ### The host's questions on the table -/

theorem test_table_words :
    decodeTableWord 8 0x01 = some (.push 0) ∧ decodeTableWord 8 0x02 = some (.pushb 0 []) ∧
    decodeTableWord 8 0x11 = some .pop ∧ decodeTableWord 8 0x12 = some (.popb 0) ∧ decodeTableWord 8 0x23 = some .cap ∧
    decodeTableWord 8 0x30 = some (.crc32 0 0) ∧ decodeTableWord 8 0x7F = none := by decide +kernel

theorem test_table_words_envelope :
    decodeTableWord 8 0x31 = some (.mkmsg 0 0 0 0 0 0) ∧
    decodeTableWord 8 0x32 = some (.verify { hdr := idHeader 0, pref := 0 }) ∧
    decodeTableWord 8 0x42 = some (.ftst 0 { hdr := idHeader 0, pref := 0 }) := by decide +kernel

theorem test_step_runs_table_word :
    nextIs (step (State.reset.withFetchWord 8 0x11)) (fun t => t.portC.busy && t.portC.req == .pop && t.portC.ph == .po2)
      = true ∧
    nextIs (step (State.reset.withFetchWord 8 0x01)) (fun t => t.portP.busy && t.portP.req == .push 0) = true ∧
    nextIs (step (State.reset.withFetchWord 8 0x23)) (fun t => lastIs t.portP (.okRet 16)) = true := by decide +kernel

/-! ### Witnesses: states in which the hypotheses of the statements hold

Capacity 4. `oneLive` has delivered nothing and holds one element; the four `flight` states have both ports in flight. -/

/-- One `PUSH 7` has been answered. -/
def oneLive : State :=
  { ringAt 2 1 0 [(0, 7)] with
    portP := { PortState.idle [] with done := [{ req := some (.push 7), resp := .okRet 1 }] } }

/-- Capacity 2 and full with one element. -/
def fullOne : State :=
  { ringAt 1 1 0 [(0, 7)] with
    portP := { PortState.idle [] with done := [{ req := some (.push 7), resp := .okRet 1 }] } }

/-- `oneLive` with a producer and a consumer command in flight, port `x` to move. -/
def flight (x : Port) (p c : PortState) (slots : SlotArray) : State :=
  { oneLive with slots := slots, turn := x, portP := { p with done := oneLive.portP.done }, portC := c }

/-- PUSH 8 before PU3, POP before PO3. -/
def flightSingle (x : Port) : State :=
  flight x { portAt (.push 8) .pu3 with h := 1, t := 0 } { portAt .pop .po3 with t := 0, h := 1 } [(0, 7)]

/-- PUSH 8 before PU4, POP before PO4. -/
def flightSingleLast (x : Port) : State :=
  flight x { portAt (.push 8) .pu4 with h := 1, t := 0 } { portAt .pop .po4 with t := 0, h := 1, out := [7] }
    [(0, 7), (1, 8)]

/-- PUSHB of two elements and POPB of one, each before its first loop step. -/
def flightBatch (x : Port) : State :=
  flight x { portAt (.pushb 2 [8, 9]) .pb3 with h := 1, t := 0, n := 2 }
    { portAt (.popb 1) .pc3 with t := 0, h := 1, n := 1 } [(0, 7)]

/-- The same commands before their last micro-steps. -/
def flightBatchLast (x : Port) : State :=
  flight x { portAt (.pushb 2 [8, 9]) .pb4 with h := 1, t := 0, n := 2, i := 2 }
    { portAt (.popb 1) .pc4 with t := 0, h := 1, n := 1, i := 1, out := [7] } [(0, 7), (1, 8), (2, 9)]

/-- A checksum loop half way on port `P`. -/
def flightChecksum : State :=
  movingP { portAt (.crc32 0x10 2) .ck1 with i := 1, bytes := [0x61], acc := crcBytes crcOnes [0x61] }
    { ringAt 2 0 0 [] with mem := memAt 0x10 [0x61, 0x62] }

/-- The fields of the ring's invariant from one closed check. -/
theorem ringInv_of_check {s : State}
    (h : (s.cfg.wf = true ∧ s.head < s.cfg.capacity ∧ s.tail < s.cfg.capacity ∧ SlotArray.wf s.slots = true ∧
      Memory.wf s.mem = true) ∧
      ((∀ c ∈ s.slots, c.1 < s.cfg.capacity ∧ c.2 < 2 ^ s.cfg.elemBits) ∧
        (∀ c ∈ s.mem, c.1 < 2 ^ s.cfg.paddrBits) ∧ (∀ j, j < occ s → (queueSlot s j).isSome = true)) ∧
      accepted s = delivered s ++ queue s ∧ s.head = ghostH s % s.cfg.capacity ∧
      s.tail = ghostT s % s.cfg.capacity) : RingInv s :=
  ⟨h.1.1, h.1.2.1, h.1.2.2.1, h.1.2.2.2.1, h.1.2.2.2.2, h.2.1.1, h.2.1.2.1, h.2.1.2.2, h.2.2.1, h.2.2.2.1, h.2.2.2.2⟩

/-- A state with both ports idle meets the invariant when its ring does. -/
theorem inv_of_idle {s : State} (h : RingInv s) (hP : s.portP.busy = false) (hC : s.portC.busy = false) : Inv s :=
  ⟨h, fun hb => by simp [hP] at hb, fun hb => by simp [hC] at hb⟩

theorem inv_empty (K : Nat) (hK : K = 0 ∨ K = 1 ∨ K = 2 ∨ K = 4) : Inv (ringAt K 0 0 []) := by
  rcases hK with rfl | rfl | rfl | rfl <;> exact inv_of_idle (ringInv_of_check (by decide)) rfl rfl

theorem inv_oneLive : Inv oneLive := inv_of_idle (ringInv_of_check (by decide)) rfl rfl

theorem inv_fullOne : Inv fullOne := inv_of_idle (ringInv_of_check (by decide)) rfl rfl

theorem inv_flightSingle (x : Port) : Inv (flightSingle x) := by
  refine ⟨ringInv_of_check (by cases x <;> decide), fun _ => ⟨by cases x <;> decide, ?_⟩, fun _ => ⟨by cases x <;> decide, ?_⟩⟩
  · show (1 = 1 ∧ roomOf cfg2 1 0 ≤ roomOf cfg2 1 0 ∧ 1 ≤ roomOf cfg2 1 0)
    decide
  · show (0 = 0 ∧ occOf cfg2 1 0 ≤ occOf cfg2 1 0 ∧ 1 ≤ occOf cfg2 1 0)
    decide

theorem inv_flightSingleLast (x : Port) : Inv (flightSingleLast x) := by
  refine ⟨ringInv_of_check (by cases x <;> decide), fun _ => ⟨by cases x <;> decide, ?_⟩, fun _ => ⟨by cases x <;> decide, ?_⟩⟩
  · show (1 = 1 ∧ roomOf cfg2 1 0 ≤ roomOf cfg2 1 0 ∧ 1 ≤ roomOf cfg2 1 0 ∧
      slotRead 1 (flightSingleLast x) = some 8)
    cases x <;> decide
  · show (0 = 0 ∧ occOf cfg2 1 0 ≤ occOf cfg2 1 0 ∧ 1 ≤ occOf cfg2 1 0 ∧ [7].length = 1 ∧
      queueSlot (flightSingleLast x) 0 = [7][0]?)
    cases x <;> decide

theorem inv_flightBatch (x : Port) : Inv (flightBatch x) := by
  refine ⟨ringInv_of_check (by cases x <;> decide), fun _ => ⟨by cases x <;> decide, ?_⟩, fun _ => ⟨by cases x <;> decide, ?_⟩⟩
  · show (1 = 1 ∧ roomOf cfg2 1 0 ≤ roomOf cfg2 1 0 ∧ 2 = min 2 (roomOf cfg2 1 0) ∧ 0 < 2 ∧
      ∀ j, j < 0 → slotRead (cursorAdd cfg2 1 j) (flightBatch x) = [8, 9][j]?)
    cases x <;> decide
  · show (0 = 0 ∧ occOf cfg2 1 0 ≤ occOf cfg2 1 0 ∧ 1 = min 1 (occOf cfg2 1 0) ∧ 0 < 1 ∧ ([] : List Elem).length = 0 ∧
      ∀ j, j < 0 → queueSlot (flightBatch x) j = ([] : List Elem)[j]?)
    cases x <;> decide

theorem inv_flightBatchLast (x : Port) : Inv (flightBatchLast x) := by
  refine ⟨ringInv_of_check (by cases x <;> decide), fun _ => ⟨by cases x <;> decide, ?_⟩, fun _ => ⟨by cases x <;> decide, ?_⟩⟩
  · show (1 = 1 ∧ roomOf cfg2 1 0 ≤ roomOf cfg2 1 0 ∧ 2 = min 2 (roomOf cfg2 1 0) ∧ 0 < 2 ∧
      ∀ j, j < 2 → slotRead (cursorAdd cfg2 1 j) (flightBatchLast x) = [8, 9][j]?)
    cases x <;> decide
  · show (0 = 0 ∧ occOf cfg2 1 0 ≤ occOf cfg2 1 0 ∧ 1 = min 1 (occOf cfg2 1 0) ∧ 0 < 1 ∧ [7].length = 1 ∧
      ∀ j, j < 1 → queueSlot (flightBatchLast x) j = [7][j]?)
    cases x <;> decide

theorem inv_flightChecksum : Inv flightChecksum := by
  refine ⟨ringInv_of_check (by decide +kernel), fun _ => ⟨by decide, ?_⟩, fun h => absurd h (by decide)⟩
  show (rangeLegal cfg2 0x10 2 = true ∧ 1 < 2 ∧ [(0x61 : Byte)].length = 1 ∧ crcBytes crcOnes [0x61] = crcBytes crcOnes [0x61])
  decide

/-- The presented request's packet stands first in `s`'s stream and the schedule names port `x`. -/
def offered (x : Port) (pkt : List Byte) : State := withRequest x pkt (ringAt 2 0 0 [])

/-! #### Encodings -/

theorem witness_DecodeEncodeRoundTrip :
    (Instr.push (2 ^ 32 - 1)).wf Config.default = true ∧ (Instr.pushb 2 [0, 2 ^ 32 - 1]).wf Config.default = true ∧
    (Instr.pushb 0 []).wf Config.default = true ∧ (Instr.popb (2 ^ 64 - 1)).wf Config.default = true ∧
    (Instr.crc32 (2 ^ 64 - 1) 0xFFFFFFFF).wf Config.default = true ∧ (Instr.fset 1 msg0).wf Config.default = true := by
  decide

theorem witness_DecodedRequestIsCanonical :
    decode Config.default [0x12, 8, 0, 0, 0, 0, 0, 0, 0, 0x11] = .ok (.popb 8, [0x11]) := by decide

theorem witness_RequestLengthFollowsFromOpcode :
    (Instr.pushb 2 [7, 8]).wf Config.default = true ∧
    requestLength Config.default [0x02, 2, 0, 0, 0, 0, 0, 0, 0, 7, 0, 0, 0, 8, 0, 0, 0] = some 17 := by decide

theorem witness_OpcodesOutsideTheTableAreReserved :
    (∀ o : Op, o.code ≠ 0x00) ∧ (∀ o : Op, o.code ≠ 0x24) ∧ (∀ o : Op, o.code ≠ 0xFF) := by
  refine ⟨?_, ?_, ?_⟩ <;> intro o <;> cases o <;> decide

theorem witness_MessageIsAnElement :
    Msg.wf Config.default { msg0 with pref := 2 ^ 64 - 1 } = true ∧
    Msg.wf { Config.default with paddrBits := 8 } { msg0 with pref := 0 } = true := by decide

/-! #### Construction, reset and the step -/

theorem witness_ConstructedInstanceMeetsInv :
    (cfgK 0).wf = true ∧ Memory.wf (memAt 0x1000 [0x48, 0x65]) = true ∧
    (∀ a ∈ memAt 0x1000 [0x48, 0x65], a.1 < 2 ^ (cfgK 0).paddrBits) := by decide

theorem witness_HostResetResetsTheBlock :
    ({ flightSingle .P with sched := [.host], host := [.reset] } : State).sched = .host :: [] ∧
    ({ flightSingle .P with sched := [.host], host := [.reset] } : State).host = .reset :: [] := by decide

theorem witness_OnlyPowersOfTwoAreCapacities :
    ((16 = 2 ^ 4 ∧ (cfgK 4).wf = true) ∧ (1 = 2 ^ 0 ∧ (cfgK 0).wf = true)) ∧
    ((∀ K, 3 ≠ 2 ^ K) ∧ (∀ K, 0 ≠ 2 ^ K)) ∧
    (constructConfig 256 32 64 64 .isoHdlc .default).toOption = some (cfgK 8) := by
  refine ⟨by decide, ⟨fun K => ?_, fun K => ?_⟩, by decide +kernel⟩
  · rcases K with _ | _ | K
    · decide
    · decide
    · have := Nat.one_le_two_pow (n := K); omega
  · have := Nat.one_le_two_pow (n := K); omega

theorem witness_StepRunsTheDecodedRequest :
    (offered .P [0x01, 7, 0, 0, 0]).sched = .port .P :: [] ∧ ((offered .P [0x01, 7, 0, 0, 0]).port .P).busy = false ∧
    present cfg2 0 ((offered .P [0x01, 7, 0, 0, 0]).port .P).lines = some ([0x01, 7, 0, 0, 0], []) ∧
    illegalOn .P [0x01, 7, 0, 0, 0] = false ∧ readPacket cfg2 [0x01, 7, 0, 0, 0] = some (.push 7) := by decide

theorem witness_StepContinuesTheCommandInFlight :
    ({ flightSingle .P with sched := [.port .C] } : State).sched = .port .C :: [] ∧
    (({ flightSingle .P with sched := [.port .C] } : State).port .C).busy = true := by decide

theorem witness_IllegalRequestIsAnswered :
    ((offered .C [0x01, 7, 0, 0, 0]).sched = .port .C :: [] ∧ ((offered .C [0x01, 7, 0, 0, 0]).port .C).busy = false ∧
      present cfg2 0 ((offered .C [0x01, 7, 0, 0, 0]).port .C).lines = some ([0x01, 7, 0, 0, 0], []) ∧
      illegalOn .C [0x01, 7, 0, 0, 0] = true) ∧
    ((offered .P [0x7F]).sched = .port .P :: [] ∧ ((offered .P [0x7F]).port .P).busy = false ∧
      present cfg2 0 ((offered .P [0x7F]).port .P).lines = some ([0x7F], []) ∧ illegalOn .P [0x7F] = true) := by decide

theorem witness_MalformedPacketIsRefused :
    (offered .P [0x01, 7]).sched = .port .P :: [] ∧ ((offered .P [0x01, 7]).port .P).busy = false ∧
    present cfg2 0 ((offered .P [0x01, 7]).port .P).lines = some ([0x01, 7], []) ∧ illegalOn .P [0x01, 7] = false ∧
    rejectOf cfg2 [0x01, 7] = some .truncated := by decide

theorem witness_IdleTurnChangesNothing :
    ({ oneLive with sched := [.port .C] } : State).sched = .port .C :: [] ∧ (oneLive.port .C).busy = false ∧
    present oneLive.cfg (lastRet (oneLive.port .C)) (oneLive.port .C).lines = none := by decide

/-- The state the host's memory statements start from: byte 0x10 readable, the last address not. -/
def hostTurn (a : HostAct) : State :=
  { ringAt 2 0 0 [] with mem := memAt 0x10 [0x61], sched := [.host], host := [a] }

theorem witness_HostWritesPayloadMemory :
    ((hostTurn (.write (2 ^ 64 - 1) 5)).sched = .host :: [] ∧ 2 ^ 64 - 1 < 2 ^ cfg2.paddrBits ∧
      (hostTurn (.write (2 ^ 64 - 1) 5)).host = .write (2 ^ 64 - 1) 5 :: []) ∧
    ((hostTurn (.withdraw 0x10)).sched = .host :: [] ∧ 0x10 < 2 ^ cfg2.paddrBits ∧
      (hostTurn (.withdraw 0x10)).host = .withdraw 0x10 :: []) := by decide

theorem witness_PastTheScheduleTheChoiceIsFree : State.reset.sched = [] := rfl

/-- Each clause's condition: not yet answered, answered 0, answered 1; for PUSHALL a rest, and none. -/
theorem witness_RetryLoopsPresentAgain :
    (0 ≠ 1 ∧ (1 : Nat) = 1) ∧ ([7, 8] : List Elem) ≠ [] ∧ 1 < ([7, 8] : List Elem).length ∧
    ([7, 8] : List Elem).length ≤ 2 := by decide

/-- `(15, 0)` is full, `(0, 1)` is full with `head` wrapped, `(7, 7)` is empty, and `K = 0` is both. -/
theorem witness_OccupancyAndRoom :
    (15 < (cfgK 4).capacity ∧ 0 < (cfgK 4).capacity ∧ isFullOf (cfgK 4) 15 0 = true) ∧
    (1 < (cfgK 4).capacity ∧ isFullOf (cfgK 4) 0 1 = true) ∧ (7 < (cfgK 4).capacity ∧ isEmptyOf 7 7 = true) ∧
    (0 < (cfgK 0).capacity ∧ isEmptyOf 0 0 = true ∧ isFullOf (cfgK 0) 0 0 = true) := by decide

/-! #### Micro-steps: each clause's conditions -/

/-- A producer state at phase `ph` with `P.h = h`. -/
def pushAt (i : Instr) (ph : Phase) (h : Nat) (s : State) : State := movingP { portAt i ph with h := h } s

theorem witness_PushMicroSteps :
    (∀ ph ∈ [Phase.pu1, .pu3, .pu4], (pushAt (.push 7) ph 3 (ringAt 2 3 0 [])).turn = .P ∧
      (pushAt (.push 7) ph 3 (ringAt 2 3 0 [])).portP.ph = ph) ∧
    ((pushAt (.push 7) .pu2 3 (ringAt 2 3 0 [])).portP.ph = .pu2 ∧ (3 + 1) % cfg2.capacity = (ringAt 2 3 0 []).tail) ∧
    ((pushAt (.push 7) .pu2 3 (ringAt 2 3 1 [])).portP.ph = .pu2 ∧ (3 + 1) % cfg2.capacity ≠ (ringAt 2 3 1 []).tail) ∧
    (movingC (portAt (.push 7) .pu1) (ringAt 2 0 0 [])).turn = .C := by decide

theorem witness_PushbMicroSteps :
    (∀ ph ∈ [Phase.pb1, .pb4], (pushAt (.pushb 1 [7]) ph 3 (ringAt 2 3 0 [])).turn = .P ∧
      (pushAt (.pushb 1 [7]) ph 3 (ringAt 2 3 0 [])).portP.ph = ph) ∧
    ((pushAt (.pushb 1 [7]) .pb2 3 (ringAt 2 3 0 [])).portP.ph = .pb2 ∧ min 1 (roomOf cfg2 3 0) = 0) ∧
    ((pushAt (.pushb 1 [7]) .pb2 3 (ringAt 2 3 1 [])).portP.ph = .pb2 ∧ min 1 (roomOf cfg2 3 1) ≠ 0) ∧
    ((flightBatch .P).turn = .P ∧ (flightBatch .P).portP.ph = .pb3 ∧
      ([8, 9] : List Elem)[(flightBatch .P).portP.i]? = some 8) ∧
    (movingC (portAt (.pushb 0 []) .pb1) (ringAt 2 0 0 [])).turn = .C := by decide

theorem witness_PopMicroSteps :
    ((movingC (portAt .pop .po1) (ringAt 2 0 0 [])).turn = .C ∧ (portAt .pop .po1).ph = .po1) ∧
    ((movingC { portAt .pop .po2 with t := 1 } (ringAt 2 1 1 [])).head = 1) ∧
    ((movingC { portAt .pop .po2 with t := 3 } (ringAt 2 0 3 [])).head ≠ 3) ∧
    ((flightSingle .C).turn = .C ∧ (flightSingle .C).portC.ph = .po3 ∧
      slotRead ((flightSingle .C).portC.t % cfg2.capacity) (flightSingle .C) = some 7) ∧
    ((movingC (portAt .pop .po3) (ringAt 2 1 0 [])).portC.ph = .po3 ∧
      slotRead (0 % cfg2.capacity) (movingC (portAt .pop .po3) (ringAt 2 1 0 [])) = none) ∧
    ((flightSingleLast .C).turn = .C ∧ (flightSingleLast .C).portC.ph = .po4 ∧
      (flightSingleLast .C).portC.out = [7]) ∧
    (movingP (portAt .pop .po1) (ringAt 2 0 0 [])).turn = .P := by decide

theorem witness_PopbMicroSteps :
    ((movingC (portAt (.popb 3) .pc1) (ringAt 2 0 0 [])).turn = .C ∧ (portAt (.popb 3) .pc1).ph = .pc1) ∧
    (min 3 (occOf cfg2 1 1) = 0 ∧ min 0 (occOf cfg2 1 0) = 0) ∧ (min 3 (occOf cfg2 0 3) ≠ 0) ∧
    ((flightBatch .C).turn = .C ∧ (flightBatch .C).portC.ph = .pc3 ∧
      slotRead (((flightBatch .C).portC.t + (flightBatch .C).portC.i) % cfg2.capacity) (flightBatch .C) = some 7) ∧
    ((movingC (portAt (.popb 3) .pc3) (ringAt 2 1 0 [])).portC.ph = .pc3 ∧
      slotRead ((0 + 0) % cfg2.capacity) (movingC (portAt (.popb 3) .pc3) (ringAt 2 1 0 [])) = none) ∧
    ((flightBatchLast .C).turn = .C ∧ (flightBatchLast .C).portC.ph = .pc4) ∧
    (movingP (portAt (.popb 3) .pc1) (ringAt 2 0 0 [])).turn = .P := by decide

theorem witness_QueryMicroSteps :
    (∀ ph ∈ [Phase.qp1, .qp2], (pushAt .size ph 0 (ringAt 2 0 0 [])).turn = .P ∧
      (pushAt .size ph 0 (ringAt 2 0 0 [])).portP.ph = ph) ∧
    (∀ ph ∈ [Phase.qc1, .qc2], (movingC (portAt .isfull ph) (ringAt 2 0 0 [])).turn = .C ∧
      (movingC (portAt .isfull ph) (ringAt 2 0 0 [])).portC.ph = ph) := by decide

theorem witness_ChecksumLoopMicroSteps :
    ((portAt (.crc32 (2 ^ 64 - 1) 2) .ck0).ph = .ck0 ∧ 2 ^ cfg2.paddrBits < 2 ^ 64 - 1 + (2 : Word32).toNat) ∧
    (2 ^ 64 - 1 + (1 : Word32).toNat ≤ 2 ^ cfg2.paddrBits ∧ 2 ^ 64 - 1 + (0 : Word32).toNat ≤ 2 ^ cfg2.paddrBits) ∧
    (flightChecksum.here.ph = .ck1 ∧ memRead (0x10 + flightChecksum.here.i) flightChecksum = some 0x62) ∧
    (({ flightChecksum with mem := [] } : State).here.ph = .ck1 ∧
      memRead (0x10 + flightChecksum.here.i) { flightChecksum with mem := [] } = none) := by decide +kernel

theorem witness_ChecksumCommandsAnswer :
    (movingP { portAt (.verify msg0) .ck2 with i := 14, bytes := hello, acc := crcBytes crcOnes hello }
      State.reset).here.ph = .ck2 ∧
    (movingP { portAt (.verify msg0) .ck2 with i := 14, bytes := hello, acc := crcBytes crcOnes hello }
      State.reset).here.acc = crcBytes 0xFFFFFFFF hello := by decide +kernel

/-! #### Commands with the other port at rest -/

/-- Room, and none (capacity 2 with one element; capacity 1). -/
theorem witness_PushAlone :
    (Inv oneLive ∧ oneLive.portP.busy = false ∧ 2 ^ 32 - 1 < 2 ^ oneLive.cfg.elemBits ∧
      occ oneLive < oneLive.cfg.capacity - 1) ∧
    (Inv fullOne ∧ fullOne.portP.busy = false ∧ 8 < 2 ^ fullOne.cfg.elemBits ∧
      occ fullOne = fullOne.cfg.capacity - 1) ∧
    (Inv (ringAt 0 0 0 []) ∧ (ringAt 0 0 0 []).portP.busy = false ∧ 8 < 2 ^ (cfgK 0).elemBits ∧
      occ (ringAt 0 0 0 []) = (cfgK 0).capacity - 1) :=
  ⟨⟨inv_oneLive, by decide⟩, ⟨inv_fullOne, by decide⟩, ⟨inv_empty 0 (by decide), by decide⟩⟩

theorem witness_PushbAlone :
    (Inv oneLive ∧ oneLive.portP.busy = false ∧ (Instr.pushb 3 [8, 9, 10]).wf oneLive.cfg = true) ∧
    (Inv fullOne ∧ fullOne.portP.busy = false ∧ (Instr.pushb 0 []).wf fullOne.cfg = true) :=
  ⟨⟨inv_oneLive, by decide⟩, ⟨inv_fullOne, by decide⟩⟩

/-- A queue with a front, and an empty one. -/
theorem witness_PopAlone :
    (Inv oneLive ∧ oneLive.portC.busy = false ∧ queue oneLive = [7]) ∧
    (Inv (ringAt 2 0 0 []) ∧ (ringAt 2 0 0 []).portC.busy = false ∧ queue (ringAt 2 0 0 []) = []) :=
  ⟨⟨inv_oneLive, by decide⟩, ⟨inv_empty 2 (by decide), by decide⟩⟩

theorem witness_PopbAlone :
    (Inv oneLive ∧ oneLive.portC.busy = false ∧ 2 ^ 64 - 1 < 2 ^ oneLive.cfg.cntBits) ∧
    (Inv (ringAt 2 0 0 []) ∧ (ringAt 2 0 0 []).portC.busy = false ∧ 0 < 2 ^ cfg2.cntBits) :=
  ⟨⟨inv_oneLive, by decide⟩, ⟨inv_empty 2 (by decide), by decide⟩⟩

/-- The states beside which `flightBatch` and its kin stand at the same micro-step, with a batch of one. -/
def paceBatch (x : Port) : State :=
  flight x { portAt (.pushb 1 [8]) .pb3 with h := 1, t := 0, n := 1 }
    { portAt (.popb 1) .pc3 with t := 0, h := 1, n := 1 } [(0, 7)]

/-- The same before the last micro-steps. -/
def paceBatchLast (x : Port) : State :=
  flight x { portAt (.pushb 1 [8]) .pb4 with h := 1, t := 0, n := 1, i := 1 }
    { portAt (.popb 1) .pc4 with t := 0, h := 1, n := 1, i := 1, out := [7] } [(0, 7), (1, 8)]

/-- Full, where both answer 0, and at both loop steps; empty, where both answer 0. -/
theorem witness_BatchOfOneKeepsPace :
    (pushKeepsPace (pushAt (.push 8) .pu2 3 (ringAt 2 3 0 [])) (pushAt (.pushb 1 [8]) .pb2 3 (ringAt 2 3 0 [])) ∧
      (ringAt 2 3 0 []).tail < cfg2.capacity) ∧
    (pushKeepsPace (flightSingle .P) (paceBatch .P) ∧ (flightSingle .P).tail < cfg2.capacity) ∧
    (pushKeepsPace (flightSingleLast .P) (paceBatchLast .P) ∧ (flightSingleLast .P).tail < cfg2.capacity) ∧
    (popKeepsPace (movingC (portAt .pop .po2) (ringAt 2 0 0 [])) (movingC (portAt (.popb 1) .pc2) (ringAt 2 0 0 [])) ∧
      0 < cfg2.capacity) ∧
    (popKeepsPace (flightSingle .C) (paceBatch .C) ∧ (flightSingle .C).head < cfg2.capacity ∧
      (flightSingle .C).portC.t < cfg2.capacity ∧
      (slotRead (cursorAdd cfg2 (flightSingle .C).portC.t 0) (flightSingle .C)).isSome = true) ∧
    (popKeepsPace (flightSingleLast .C) (paceBatchLast .C) ∧ (flightSingleLast .C).head < cfg2.capacity ∧
      (flightSingleLast .C).portC.t < cfg2.capacity) := by
  unfold pushKeepsPace popKeepsPace sameShared
  refine ⟨?_, ?_, ?_, ?_, ?_, ?_⟩ <;> decide

theorem witness_BatchOfOneIsTheSingleCommand :
    Inv oneLive ∧ oneLive.portP.busy = false ∧ oneLive.portC.busy = false ∧ 2 ^ 32 - 1 < 2 ^ oneLive.cfg.elemBits :=
  ⟨inv_oneLive, by decide⟩

/-- Empty, full, and at once both. -/
theorem witness_QueriesAloneAreExact :
    (Inv (ringAt 2 0 0 []) ∧ ((ringAt 2 0 0 []).port .C).busy = false ∧ queue (ringAt 2 0 0 []) = []) ∧
    (Inv fullOne ∧ (fullOne.port .P).busy = false ∧ (queue fullOne).length = fullOne.cfg.capacity - 1) ∧
    (Inv (ringAt 0 0 0 []) ∧ ((ringAt 0 0 0 []).port .P).busy = false ∧ queue (ringAt 0 0 0 []) = []) :=
  ⟨⟨inv_empty 2 (by decide), by decide⟩, ⟨inv_fullOne, by decide⟩, ⟨inv_empty 0 (by decide), by decide⟩⟩

/-! #### Checksums -/

/-- Two readable bytes at the top of payload memory. -/
def topBytes : State := { State.reset with mem := memAt (2 ^ 64 - 2) [0x61, 0x62] }

theorem witness_Crc32OfReadablePayload :
    (2 ^ 64 - 2 + (2 : Word32).toNat ≤ 2 ^ topBytes.cfg.paddrBits ∧
      payloadBytes (2 ^ 64 - 2) (2 : Word32).toNat topBytes = some [0x61, 0x62]) ∧
    (0xDEAD0000 + (0 : Word32).toNat ≤ 2 ^ topBytes.cfg.paddrBits ∧
      payloadBytes 0xDEAD0000 (0 : Word32).toNat topBytes = some []) := by decide +kernel

theorem witness_UnreadablePayloadIsReported :
    (2 ^ topBytes.cfg.paddrBits < 2 ^ 64 - 2 + (3 : Word32).toNat) ∧
    (2 ^ 64 - 3 + (3 : Word32).toNat ≤ 2 ^ topBytes.cfg.paddrBits ∧
      payloadBytes (2 ^ 64 - 3) (3 : Word32).toNat topBytes = none) := by decide +kernel

theorem witness_VerifyAfterConstruction :
    2 ^ 64 - 2 + (2 : Word32).toNat ≤ 2 ^ topBytes.cfg.paddrBits ∧
    payloadBytes (2 ^ 64 - 2) (2 : Word32).toNat topBytes = some [0x61, 0x62] := by decide +kernel

theorem witness_OneChangedByteChangesTheCode : (0x48 : Byte) ≠ 0x49 := by decide

/-! #### Flags -/

theorem witness_FlagLaws : (0 < 32 ∧ 31 < 32 ∧ 0 ≠ 31) ∧ (0x80000000 : Word32) ≠ 0 := by decide

theorem witness_NamedFlagsAreDistinctBits :
    Config.default.wf = true ∧ FlagName.compressed ≠ FlagName.priority ∧
    Config.wf { cfg2 with flags := { FlagMap.default with priority := 31 } } = true := by decide

/-! #### The whole machine -/

theorem witness_EveryStepKeepsInv :
    (Inv State.reset ∧ State.reset = ringAt 4 0 0 []) ∧ Inv (flightBatchLast .C) ∧ Inv flightChecksum ∧
    nextIs (step (State.reset.withFetchWord 8 0x11)) (fun _ => true) = true :=
  ⟨⟨inv_empty 4 (by decide), rfl⟩, inv_flightBatchLast .C, inv_flightChecksum, by decide +kernel⟩

theorem witness_NoStepFaultsUnderInv :
    Inv (ringAt 2 0 0 []) ∧
    step { ringAt 2 0 0 [] with sched := [.host], host := [.withdraw (2 ^ 64)] }
      = .refused (.noSuchPayloadAddress (2 ^ 64)) ∧
    step (offered .P [0x01, 7]) = .refused (.malformedRequest [0x01, 7]) :=
  ⟨inv_empty 2 (by decide), rfl, rfl⟩

theorem witness_CellsStayCanonical :
    SlotArray.wf (flightSingle .P).slots = true ∧ Memory.wf (flightSingle .P).mem = true ∧
    nextIs (step { flightSingle .P with sched := [.port .P] }) (fun t => t.slots == [(0, 7), (1, 8)]) = true := by decide

theorem witness_FifoAlongEveryRun :
    (cfgK 4).wf = true ∧ Memory.wf (memAt 0x10 [0x61]) = true ∧
    (∀ a ∈ memAt 0x10 [0x61], a.1 < 2 ^ (cfgK 4).paddrBits) ∧
    nextIs (Sys2Proof.core.run 4 ({ State.construct (cfgK 4) with
      portP := .idle [.request [0x01, 7, 0, 0, 0]], portC := .idle [], host := [],
      sched := [.port .P, .port .P, .port .P, .port .P], mem := memAt 0x10 [0x61] } : State))
      (fun t => accepted t == [7] && delivered t == [] && queue t == [7]) = true := by decide +kernel

/-- The same at capacity 1, where nothing is accepted. -/
theorem witness_CountersAlongEveryRun :
    (cfgK 0).wf = true ∧ Memory.wf [] = true ∧ (∀ a ∈ ([] : Memory), a.1 < 2 ^ (cfgK 0).paddrBits) ∧
    nextIs (Sys2Proof.core.run 2 ({ State.construct (cfgK 0) with
      portP := .idle [.request [0x01, 7, 0, 0, 0]], portC := .idle [], host := [],
      sched := [.port .P, .port .P], mem := [] } : State))
      (fun t => ghostH t == 0 && lastIs t.portP (.okRet 0)) = true := by decide +kernel

/-- A micro-step that changes nothing of the queue, one that appends, one that removes; single and batch. -/
theorem witness_MicroStepsRefineTheQueue :
    (Inv (flightSingle .P) ∧ (flightSingle .P).here.busy = true ∧ (flightSingle .P).here.req = .push 8 ∧
      nextIs (exec (.push 8) (flightSingle .P)) (fun t => queue t == [7]) = true) ∧
    (Inv (flightSingleLast .P) ∧ (flightSingleLast .P).here.busy = true ∧
      (flightSingleLast .P).here.req = .push 8 ∧
      nextIs (exec (.push 8) (flightSingleLast .P)) (fun t => queue t == [7, 8]) = true) ∧
    (Inv (flightBatchLast .C) ∧ (flightBatchLast .C).here.busy = true ∧ (flightBatchLast .C).here.req = .popb 1 ∧
      nextIs (exec (.popb 1) (flightBatchLast .C)) (fun t => queue t == [] && delivered t == [7]) = true) :=
  ⟨⟨inv_flightSingle .P, by decide⟩, ⟨inv_flightSingleLast .P, by decide⟩, ⟨inv_flightBatchLast .C, by decide⟩⟩

theorem witness_SlotOwnershipIsRespected :
    (Inv (flightSingle .P) ∧ (flightSingle .P).here.busy = true ∧
      nextIs (exec (flightSingle .P).here.req (flightSingle .P))
        (fun t => slotRead 1 t != slotRead 1 (flightSingle .P)) = true) ∧
    (Inv (flightSingle .C) ∧ (flightSingle .C).portC.req = .pop ∧ (flightSingle .C).portC.ph = .po3) ∧
    (Inv (flightBatch .C) ∧ (flightBatch .C).portC.req = .popb 1 ∧ (flightBatch .C).portC.ph = .pc3) :=
  ⟨⟨inv_flightSingle .P, by decide⟩, ⟨inv_flightSingle .C, by decide⟩, ⟨inv_flightBatch .C, by decide⟩⟩

/-- A step that stores nothing, one that writes a slot, one that stores `head`, one that stores `tail`. -/
theorem witness_MicroStepFrame :
    nextIs (exec .cap (flightSingle .C)) (fun t => t.tail == 0) = true ∧
    nextIs (exec (.push 8) (flightSingle .P)) (fun t => slotRead 0 t == some 7 && t.head == 1) = true ∧
    nextIs (exec (.push 8) (flightSingleLast .P)) (fun t => t.head == 2) = true ∧
    nextIs (exec .pop (flightSingleLast .C)) (fun t => t.tail == 1) = true := by decide

/-- An illegal command, and a refused payload byte. -/
theorem witness_ErrorResponsesHaveNoEffect :
    nextIs (exec .pop (flightSingle .P))
      (fun t => t.here.done == (flightSingle .P).here.done ++ [{ req := some .pop, resp := .illegal }]) = true ∧
    nextIs (exec (.crc32 0x10 2) { flightChecksum with mem := [] })
      (fun t => t.here.done == [{ req := some (.crc32 0x10 2), resp := .payloadFault }]) = true := by decide +kernel

theorem witness_OneResponsePerCommand :
    nextIs (exec (.push 8) (flightSingle .P)) (fun t => t.here.busy) = true ∧
    nextIs (exec (.push 8) (flightSingleLast .P)) (fun t => !t.here.busy) = true := by decide

theorem witness_CommandsAreWaitFree :
    (Inv (flightBatch .P) ∧ (flightBatch .P).here.busy = true ∧
      nextIs (exec (flightBatch .P).here.req (flightBatch .P)) (fun t => t.here.busy) = true) ∧
    (Inv flightChecksum ∧ flightChecksum.here.busy = true ∧
      nextIs (exec flightChecksum.here.req flightChecksum) (fun t => t.here.ph == .ck2) = true) :=
  ⟨⟨inv_flightBatch .P, by decide⟩, ⟨inv_flightChecksum, by decide +kernel⟩⟩

theorem witness_GhostCountersAreMonotone :
    ({ flightSingleLast .C with sched := [.port .C] } : State).sched = .port .C :: [] ∧
    nextIs (step { flightSingleLast .C with sched := [.port .C] }) (fun t => ghostT t == 1) = true := by decide

theorem witness_WhatAPortHasSeenStaysTrue :
    (Inv { flightBatchLast .C with sched := [.port .C] } ∧
      nextIs (step { flightBatchLast .C with sched := [.port .C] }) (fun t => occ t == 0 && room t == 3) = true) ∧
    (Inv { flightBatchLast .P with sched := [.port .P] } ∧
      nextIs (step { flightBatchLast .P with sched := [.port .P] }) (fun t => occ t == 3 && room t == 0) = true) := by
  refine ⟨⟨?_, by decide⟩, ⟨?_, by decide⟩⟩
  · obtain ⟨⟨a, b, c, d, e, f, g, h, i, j, k⟩, p, q⟩ := inv_flightBatchLast .C
    exact ⟨⟨a, b, c, d, e, f, g, h, i, j, k⟩, p, q⟩
  · obtain ⟨⟨a, b, c, d, e, f, g, h, i, j, k⟩, p, q⟩ := inv_flightBatchLast .P
    exact ⟨⟨a, b, c, d, e, f, g, h, i, j, k⟩, p, q⟩

/-- A state that has received `ST_ILLEGAL`, before and after the host's reset; and one with `ST_PAYLOAD`. -/
theorem witness_ErrorRunsNeverEndNormally :
    (received .illegal { ringAt 2 0 0 [] with
        portP := { PortState.idle [] with done := [{ req := none, resp := .illegal }] } } = true ∧
      nextIs (step { ringAt 2 0 0 [] with
        portP := { PortState.idle [] with done := [{ req := none, resp := .illegal }] },
        sched := [.host], host := [.reset] })
        (fun t => t.portP.done == [] && received .illegal t && runOver t && !normalEnd t) = true) ∧
    received .payload { ringAt 2 0 0 [] with
      portC := { PortState.idle [] with done := [{ req := none, resp := .payloadFault }] } } = true := by decide

theorem witness_ConfigurationNeverChanges :
    nextIs (step (State.reset.withFetchWord 8 0x23)) (fun t => t.cfg == Config.default) = true := by decide +kernel

theorem witness_CapacityOneHoldsNothing :
    Inv (ringAt 0 0 0 []) ∧ (ringAt 0 0 0 []).cfg.K = 0 ∧ (ringAt 0 0 0 []).portP.busy = false ∧
    (ringAt 0 0 0 []).portC.busy = false ∧ 1 < 2 ^ (ringAt 0 0 0 []).cfg.elemBits :=
  ⟨inv_empty 0 (by decide), by decide⟩

end Sys2Proof.Tests
end

section
/-! PROOFS, spec/00_scope.md R9. How a command alone runs from one micro-step to the next, the first two micro-steps of PUSH
on a full buffer and of POP from an empty one, and what follows where the capacity is one. -/

namespace Sys2Proof.Machine

/-! ### A command with the other port at rest -/

theorem begun_P (i : Instr) (s : State) :
    begun .P i s = { s with
      turn := .P, portP := { s.portP with busy := true, req := i, ph := firstPhase .P i } } := rfl

theorem begun_C (i : Instr) (s : State) :
    begun .C i s = { s with
      turn := .C, portC := { s.portC with busy := true, req := i, ph := firstPhase .C i } } := rfl

/-- A micro-step that leaves the port busy: the run goes on from its next state. -/
theorem runCommand_succ_of_busy {n : Nat} {i : Instr} {s t : State} (h : exec i s = .next t)
    (hb : t.here.busy = true) : runCommand (n + 1) i s = runCommand n i t := by
  simp [runCommand, h, hb]

/-- A micro-step that answers: the run ends in its next state. -/
theorem runCommand_succ_of_idle {n : Nat} {i : Instr} {s t : State} (h : exec i s = .next t)
    (hb : t.here.busy = false) : runCommand (n + 1) i s = .next t := by
  simp [runCommand, h, hb]

/-! ### PUSH on a full buffer (40_push R131) -/

theorem exec_push_pu1 (item : Elem) {s : State} (ht : s.turn = .P) (hp : s.portP.ph = .pu1) :
    exec (.push item) s = .next { s with portP := { s.portP with h := s.head, ph := .pu2 } } := by
  simp [exec, execPush, ht, hp, goto, State.setHere_P, State.here_eq_portP]

theorem exec_push_pu2_of_full (item : Elem) {s : State} (ht : s.turn = .P) (hp : s.portP.ph = .pu2)
    (hfull : isFullOf s.cfg s.portP.h s.tail = true) :
    exec (.push item) s = .next { s with
      portP := answered { s.portP with t := s.tail } (.push item) (.okRet 0) } := by
  have hnext : nextCursor s.cfg s.portP.h = s.tail := by simpa [isFullOf] using hfull
  simp [exec, execPush, ht, hp, hnext, respond, answered, State.setHere_P, State.here_eq_portP]

/-- A PUSH alone on a full buffer answers 0 at its second micro-step; only latches of port `P` have changed. -/
theorem runCommand_push_of_full (n : Nat) (item : Elem) {s : State} (hfull : isFullOf s.cfg s.head s.tail = true) :
    runCommand (n + 2) (.push item) (begun .P (.push item) s) = .next { s with
      turn := .P,
      portP := answered { s.portP with req := .push item, ph := .pu2, h := s.head, t := s.tail }
        (.push item) (.okRet 0) } := by
  rw [begun_P, runCommand_succ_of_busy (exec_push_pu1 item rfl rfl) rfl,
    runCommand_succ_of_idle (exec_push_pu2_of_full item rfl rfl hfull) rfl]
  rfl

/-! ### POP from an empty buffer (41_pop R151) -/

theorem exec_pop_po1 {s : State} (ht : s.turn = .C) (hp : s.portC.ph = .po1) :
    exec .pop s = .next { s with portC := { s.portC with t := s.tail, ph := .po2 } } := by
  simp [exec, execPop, ht, hp, goto, State.setHere_C, State.here_eq_portC]

theorem exec_pop_po2_of_empty {s : State} (ht : s.turn = .C) (hp : s.portC.ph = .po2)
    (hempty : isEmptyOf s.head s.portC.t = true) :
    exec .pop s = .next { s with portC := answered { s.portC with h := s.head } .pop (.okRet 0) } := by
  have heq : s.head = s.portC.t := by simpa [isEmptyOf] using hempty
  simp [exec, execPop, ht, hp, heq, respond, answered, State.setHere_C, State.here_eq_portC]

/-- A POP alone from an empty buffer answers 0 at its second micro-step; only latches of port `C` have changed. -/
theorem runCommand_pop_of_empty (n : Nat) {s : State} (hempty : isEmptyOf s.head s.tail = true) :
    runCommand (n + 2) .pop (begun .C .pop s) = .next { s with
      turn := .C,
      portC := answered { s.portC with req := .pop, ph := .po2, t := s.tail, h := s.head } .pop (.okRet 0) } := by
  rw [begun_C, runCommand_succ_of_busy (exec_pop_po1 rfl rfl) rfl,
    runCommand_succ_of_idle (exec_pop_po2_of_empty rfl rfl hempty) rfl]
  rfl

/-! ### Capacity one (00_scope R9) -/

theorem capacity_eq_one {c : Config} (hK : c.K = 0) : c.capacity = 1 := by simp [Config.capacity, hK]

/-- With one slot a cursor has only one value, so the next cursor is the cursor itself. -/
theorem isFullOf_zero {c : Config} (hcap : c.capacity = 1) : isFullOf c 0 0 = true := by
  simp [isFullOf, nextCursor, cursorAdd, hcap]

/-- Settles O60: a cursor below the capacity 1 is 0, equal cursors 0 are at once empty and full, and so PUSH and POP each
take the branch that answers 0. -/
theorem capacityOneHoldsNothing : Obligations.CapacityOneHoldsNothing := by
  unfold Obligations.CapacityOneHoldsNothing
  intro s item hinv hK _ _ _
  have hcap := capacity_eq_one hK
  have hhead : s.head = 0 := by have := hinv.ring.head_lt; omega
  have htail : s.tail = 0 := by have := hinv.ring.tail_lt; omega
  have hempty : isEmptyOf s.head s.tail = true := by simp [isEmptyOf, hhead, htail]
  have hfull : isFullOf s.cfg s.head s.tail = true := by rw [hhead, htail]; exact isFullOf_zero hcap
  exact ⟨hhead, htail, hempty, hfull,
    ⟨_, runCommand_push_of_full 2 item hfull, rfl⟩, ⟨_, runCommand_pop_of_empty 2 hempty, rfl⟩⟩

end Sys2Proof.Machine
end

section
/-! PROOFS, spec/10_state.md R35, spec/20_memory.md R78, R79. The laws of the cursor arithmetic: occupancy and room as
mathematical remainders, and how they move when a cursor is moved on. -/

namespace Sys2Proof.Machine

variable {c : Config}

/-! ### Occupancy and room of any two numbers -/

/-- The wrap-around difference is the mathematical remainder of the difference. -/
theorem cursorSub_cast (c : Config) (a b : Nat) :
    (cursorSub c a b : Int) = ((a : Int) - b) % (c.capacity : Int) := by
  have hle : b % c.capacity ≤ c.capacity := (Nat.mod_lt b (capacity_pos c)).le
  have hsum : ((a + (c.capacity - b % c.capacity) : Nat) : Int)
      = ((a : Int) - b) + c.capacity * (1 + (b : Int) / c.capacity) := by
    have hb := Int.mul_ediv_add_emod (b : Int) c.capacity
    push_cast [Nat.cast_sub hle]
    linear_combination -hb
  rw [cursorSub, Int.natCast_mod, hsum, Int.add_mul_emod_self_left]

theorem occOf_cast (c : Config) (h t : Nat) : (occOf c h t : Int) = ((h : Int) - t) % (c.capacity : Int) :=
  cursorSub_cast c h t

theorem roomOf_cast (c : Config) (h t : Nat) : (roomOf c h t : Int) = ((t : Int) - h - 1) % (c.capacity : Int) := by
  rw [roomOf, cursorSub_cast]; push_cast; congr 1; ring

/-- One slot stays free: `t - h - 1 = -(h - t) - 1`, and the remainders of `x` and `-x - 1` are each other's complement
in `CAPACITY - 1`. -/
theorem occOf_add_roomOf (c : Config) (h t : Nat) : occOf c h t + roomOf c h t = c.capacity - 1 := by
  have hpos : (0 : Int) < c.capacity := by exact_mod_cast capacity_pos c
  have hdiv := Int.mul_ediv_add_emod ((h : Int) - t) c.capacity
  have hlt := Int.emod_lt_of_pos ((h : Int) - t) hpos
  have hnn := Int.emod_nonneg ((h : Int) - t) hpos.ne'
  have hroom : ((t : Int) - h - 1) % c.capacity = c.capacity - 1 - ((h : Int) - t) % c.capacity := by
    have hsplit : (t : Int) - h - 1 = (c.capacity - 1 - ((h : Int) - t) % c.capacity)
        + c.capacity * (-(((h : Int) - t) / c.capacity) - 1) := by linear_combination hdiv
    rw [hsplit, Int.add_mul_emod_self_left, Int.emod_eq_of_lt (by omega) (by omega)]
  have ho := occOf_cast c h t
  have hr := roomOf_cast c h t
  omega

/-! ### Empty and full -/

/-- The next cursor, spelled out. -/
theorem nextCursor_of_lt {v : Nat} (hv : v < c.capacity) :
    nextCursor c v = if v + 1 = c.capacity then 0 else v + 1 := by
  unfold nextCursor cursorAdd
  split
  · rename_i hw; rw [hw, Nat.mod_self]
  · exact Nat.mod_eq_of_lt (by omega)

theorem isEmptyOf_iff {h t : Nat} (hh : h < c.capacity) (ht : t < c.capacity) :
    isEmptyOf h t = true ↔ occOf c h t = 0 := by
  rw [occOf_of_lt hh ht, isEmptyOf, beq_iff_eq]
  split <;> omega

theorem nextCursor_eq_iff {h t : Nat} (hh : h < c.capacity) (ht : t < c.capacity) :
    nextCursor c h = t ↔ roomOf c h t = 0 := by
  rw [roomOf_of_lt hh ht, nextCursor_of_lt hh]
  split <;> split <;> omega

/-- Settles O21: the difference computed by wrap-around is the remainder over the integers, and the rest is
arithmetic on remainders. -/
theorem occupancyAndRoom : Obligations.OccupancyAndRoom := by
  unfold Obligations.OccupancyAndRoom
  intro c h t
  refine ⟨occOf_cast c h t, roomOf_cast c h t, occOf_add_roomOf c h t, isEmptyOf_iff, fun hh ht => ?_⟩
  rw [isFullOf, beq_iff_eq, nextCursor_eq_iff hh ht]

/-! ### A cursor moved on -/

theorem cursorAdd_cursorAdd (c : Config) (v m n : Nat) : cursorAdd c (cursorAdd c v m) n = cursorAdd c v (m + n) := by
  simp [cursorAdd, Nat.mod_add_mod, Nat.add_assoc]

theorem cursorAdd_mod (c : Config) (v n : Nat) : cursorAdd c v n % c.capacity = cursorAdd c v n :=
  Nat.mod_eq_of_lt (cursorAdd_lt c v n)

/-- Less than a turn apart, different distances reach different slots. -/
theorem cursorAdd_inj {v m n : Nat} (hm : m < c.capacity) (hn : n < c.capacity)
    (h : cursorAdd c v m = cursorAdd c v n) : m = n := by
  have hmod : m ≡ n [MOD c.capacity] := Nat.ModEq.add_left_cancel' v h
  rwa [Nat.ModEq, Nat.mod_eq_of_lt hm, Nat.mod_eq_of_lt hn] at hmod

/-- The occupancy is the distance from `tail` to `head`. -/
theorem cursorAdd_occOf {h t : Nat} (hh : h < c.capacity) (ht : t < c.capacity) :
    cursorAdd c t (occOf c h t) = h := by
  rw [cursorAdd_of_lt ht (occOf_lt c h t), occOf_of_lt hh ht]
  split <;> split <;> omega

/-- A distance of less than a turn from `tail` is an occupancy. -/
theorem occOf_cursorAdd {t n : Nat} (ht : t < c.capacity) (hn : n < c.capacity) :
    occOf c (cursorAdd c t n) t = n :=
  cursorAdd_inj (occOf_lt _ _ _) hn (cursorAdd_occOf (cursorAdd_lt c t n) ht)

/-- `head` moved on within the room: the occupancy grows by as much (40_push R131, R136). -/
theorem occOf_cursorAdd_head {h t n : Nat} (hh : h < c.capacity) (ht : t < c.capacity) (hn : n ≤ roomOf c h t) :
    occOf c (cursorAdd c h n) t = occOf c h t + n := by
  have hsum := occOf_add_roomOf c h t
  have hpos := capacity_pos c
  calc occOf c (cursorAdd c h n) t
      = occOf c (cursorAdd c t (occOf c h t + n)) t := by rw [← cursorAdd_cursorAdd, cursorAdd_occOf hh ht]
    _ = occOf c h t + n := occOf_cursorAdd ht (by omega)

/-- `tail` moved on within the occupancy: the occupancy shrinks by as much (41_pop R151, R156). -/
theorem occOf_cursorAdd_tail {h t n : Nat} (hh : h < c.capacity) (ht : t < c.capacity) (hn : n ≤ occOf c h t) :
    occOf c h (cursorAdd c t n) = occOf c h t - n := by
  have hlt := occOf_lt c h t
  calc occOf c h (cursorAdd c t n)
      = occOf c (cursorAdd c (cursorAdd c t n) (occOf c h t - n)) (cursorAdd c t n) := by
        rw [cursorAdd_cursorAdd, Nat.add_sub_cancel' hn, cursorAdd_occOf hh ht]
    _ = occOf c h t - n := occOf_cursorAdd (cursorAdd_lt c t n) (by omega)

end Sys2Proof.Machine
end

section
/-! PROOFS, spec/10_state.md R34 to R42. The four ways a micro-step can touch the ring (nothing, a free slot written,
`head` moved on, `tail` moved on), and that each keeps the ring's invariant. -/

namespace Sys2Proof.Machine

variable {s t : State}

/-! ### The queue of a state that meets the ring's invariant -/

/-- A list is collected from the numbers below its length by a function that reads its entries. -/
theorem filterMap_range_eq {f : Nat → Option Elem} {xs : List Elem} (h : ∀ j, j < xs.length → f j = xs[j]?) :
    (List.range xs.length).filterMap f = xs := by
  induction xs using List.reverseRecOn with
  | nil => rfl
  | append_singleton xs x ih =>
    have hx : f xs.length = some x := by simpa using h xs.length (by simp)
    have hxs : (List.range xs.length).filterMap f = xs := ih fun j hj => by
      rw [h j (by simp; omega), List.getElem?_append_left hj]
    rw [List.length_append, List.length_singleton, List.range_succ, List.filterMap_append, hxs]
    simp [hx]

/-- The first `m + n` queue places are the first `m` and then `n` more. -/
theorem filterMap_range_add (f : Nat → Option Elem) (m n : Nat) :
    (List.range (m + n)).filterMap f =
      (List.range m).filterMap f ++ (List.range n).filterMap (fun j => f (m + j)) := by
  rw [List.range_add, List.filterMap_append, List.filterMap_map]; rfl

theorem occ_add_room (s : State) : occ s + room s = s.cfg.capacity - 1 := occOf_add_roomOf _ _ _

theorem occ_add_room_lt (s : State) : occ s + room s < s.cfg.capacity := by
  have := occ_add_room s
  have := capacity_pos s.cfg
  omega

theorem RingInv.cursorAdd_occ (h : RingInv s) : cursorAdd s.cfg s.tail (occ s) = s.head :=
  cursorAdd_occOf h.head_lt h.tail_lt

/-- The slot `j` places after `head` is `occ s + j` places behind the front of the queue. -/
theorem RingInv.slotRead_head_add (h : RingInv s) (j : Nat) :
    slotRead (cursorAdd s.cfg s.head j) s = queueSlot s (occ s + j) := by
  rw [queueSlot, ← cursorAdd_cursorAdd, h.cursorAdd_occ]

/-- Every live slot holds an element, so the queue is as long as the buffer is occupied (10_state R40). -/
theorem RingInv.queue_length (h : RingInv s) : (queue s).length = occ s := by
  have hfilter : ∀ n, n ≤ occ s → ((List.range n).filterMap (queueSlot s)).length = n := by
    intro n
    induction n with
    | zero => intro _; rfl
    | succ n ih =>
      intro hn
      obtain ⟨e, he⟩ := Option.isSome_iff_exists.1 (h.live_written n hn)
      rw [List.range_succ, List.filterMap_append, List.length_append, ih (by omega)]
      simp [he]
  exact hfilter _ le_rfl

/-- A slot that a push may write is no live slot (10_state R42). -/
theorem RingInv.not_consumerOwns (h : RingInv s) {j : Nat} (hj : j < room s) :
    ¬ consumerOwns s (cursorAdd s.cfg s.head j) := by
  rintro ⟨k, hk, heq⟩
  have hlt := occ_add_room_lt s
  rw [← h.cursorAdd_occ, cursorAdd_cursorAdd] at heq
  have := cursorAdd_inj (by omega) (by omega) heq
  omega

/-! ### The moves of the ring -/

/-- Nothing of the ring, of payload memory or of what has crossed the ports changes. -/
structure KeepsRing (s t : State) : Prop where
  cfg : t.cfg = s.cfg
  head : t.head = s.head
  tail : t.tail = s.tail
  slots : t.slots = s.slots
  mem : t.mem = s.mem
  accepted : accepted t = accepted s
  delivered : delivered t = delivered s

/-- An element is written `j` places after `head`, where there is room (10_state R42). -/
structure WritesSlot (s t : State) (j : Nat) (e : Elem) : Prop where
  free : j < room s
  fits : e < 2 ^ s.cfg.elemBits
  step : KeepsRing (slotWrite (cursorAdd s.cfg s.head j) e s) t

/-- `head` moves on over the slots that hold `xs`, and `xs` is accepted (40_push R131, R136). -/
structure Publishes (s t : State) (xs : List Elem) : Prop where
  fits : xs.length ≤ room s
  written : ∀ j, j < xs.length → slotRead (cursorAdd s.cfg s.head j) s = xs[j]?
  cfg : t.cfg = s.cfg
  head : t.head = cursorAdd s.cfg s.head xs.length
  tail : t.tail = s.tail
  slots : t.slots = s.slots
  mem : t.mem = s.mem
  accepted : Machine.accepted t = Machine.accepted s ++ xs
  delivered : Machine.delivered t = Machine.delivered s

/-- `tail` moves on over the slots that hold `xs`, and `xs` is delivered (41_pop R151, R156). -/
structure Releases (s t : State) (xs : List Elem) : Prop where
  live : xs.length ≤ occ s
  read : ∀ j, j < xs.length → queueSlot s j = xs[j]?
  cfg : t.cfg = s.cfg
  head : t.head = s.head
  tail : t.tail = cursorAdd s.cfg s.tail xs.length
  slots : t.slots = s.slots
  mem : t.mem = s.mem
  accepted : Machine.accepted t = Machine.accepted s
  delivered : Machine.delivered t = Machine.delivered s ++ xs

/-! #### Nothing changes -/

theorem KeepsRing.occ_eq (m : KeepsRing s t) : occ t = occ s := by simp [occ, m.cfg, m.head, m.tail]

theorem KeepsRing.room_eq (m : KeepsRing s t) : room t = room s := by simp [room, m.cfg, m.head, m.tail]

theorem KeepsRing.slotRead_eq (m : KeepsRing s t) (i : Nat) : slotRead i t = slotRead i s := by
  simp [slotRead, m.slots]

theorem KeepsRing.queueSlot_eq (m : KeepsRing s t) : queueSlot t = queueSlot s := by
  funext j; simp [queueSlot, m.cfg, m.tail, m.slotRead_eq]

theorem KeepsRing.queue_eq (m : KeepsRing s t) : queue t = queue s := by
  simp [queue, m.occ_eq, m.queueSlot_eq]

theorem RingInv.keepsRing (h : RingInv s) (m : KeepsRing s t) : RingInv t where
  cfg_wf := by simpa [m.cfg] using h.cfg_wf
  head_lt := by simpa [m.cfg, m.head] using h.head_lt
  tail_lt := by simpa [m.cfg, m.tail] using h.tail_lt
  slots_wf := by simpa [m.slots] using h.slots_wf
  mem_wf := by simpa [m.mem] using h.mem_wf
  slots_fit := by simpa [m.cfg, m.slots] using h.slots_fit
  mem_fit := by simpa [m.cfg, m.mem] using h.mem_fit
  live_written := by simpa [m.occ_eq, m.queueSlot_eq] using h.live_written
  fifo := by simpa [m.accepted, m.delivered, m.queue_eq] using h.fifo
  head_ghost := by simpa [ghostH, m.accepted, m.cfg, m.head] using h.head_ghost
  tail_ghost := by simpa [ghostT, m.delivered, m.cfg, m.tail] using h.tail_ghost

/-! #### A slot is written -/

/-- A write outside the live slots is not seen at any place of the queue. -/
theorem RingInv.queueSlot_slotWrite (h : RingInv s) {j k : Nat} (e : Elem) (hj : j < room s) (hk : k < occ s) :
    queueSlot (slotWrite (cursorAdd s.cfg s.head j) e s) k = queueSlot s k := by
  have hne : cursorAdd s.cfg s.tail k ≠ cursorAdd s.cfg s.head j := fun heq =>
    h.not_consumerOwns hj ⟨k, hk, heq.symm⟩
  simp [queueSlot, slotRead_slotWrite, hne]

theorem RingInv.queue_slotWrite (h : RingInv s) {j : Nat} (e : Elem) (hj : j < room s) :
    queue (slotWrite (cursorAdd s.cfg s.head j) e s) = queue s := by
  unfold queue
  exact List.filterMap_congr fun k hk => h.queueSlot_slotWrite e hj (List.mem_range.1 hk)

theorem RingInv.slotWrite (h : RingInv s) {j : Nat} {e : Elem} (hj : j < room s) (he : e < 2 ^ s.cfg.elemBits) :
    RingInv (slotWrite (cursorAdd s.cfg s.head j) e s) where
  cfg_wf := h.cfg_wf
  head_lt := h.head_lt
  tail_lt := h.tail_lt
  slots_wf := SlotArray.write_wf _ _ _ h.slots_wf
  mem_wf := h.mem_wf
  slots_fit := by
    intro c hc
    obtain rfl | hc := Cells.mem_write hc
    · exact ⟨cursorAdd_lt _ _ _, he⟩
    · exact h.slots_fit c hc
  mem_fit := h.mem_fit
  live_written := fun k hk => by rw [h.queueSlot_slotWrite e hj hk]; exact h.live_written k hk
  fifo := h.fifo.trans (by rw [h.queue_slotWrite e hj]; rfl)
  head_ghost := h.head_ghost
  tail_ghost := h.tail_ghost

theorem WritesSlot.occ_eq {j : Nat} {e : Elem} (m : WritesSlot s t j e) : occ t = occ s := m.step.occ_eq

theorem WritesSlot.queueSlot_eq {j k : Nat} {e : Elem} (m : WritesSlot s t j e) (h : RingInv s) (hk : k < occ s) :
    queueSlot t k = queueSlot s k := by
  rw [m.step.queueSlot_eq, h.queueSlot_slotWrite e m.free hk]

theorem RingInv.writesSlot (h : RingInv s) {j : Nat} {e : Elem} (m : WritesSlot s t j e) : RingInv t :=
  (h.slotWrite m.free m.fits).keepsRing m.step

/-! #### `head` moves on -/

section
variable {xs : List Elem}

theorem Publishes.occ_eq (m : Publishes s t xs) (h : RingInv s) : occ t = occ s + xs.length := by
  rw [occ, m.cfg, m.head, m.tail, occOf_cursorAdd_head h.head_lt h.tail_lt m.fits]; rfl

theorem Publishes.queueSlot_eq (m : Publishes s t xs) : queueSlot t = queueSlot s := by
  funext j; simp [queueSlot, slotRead, m.cfg, m.tail, m.slots]

/-- The queue grows at its back by what is accepted (10_state R40). -/
theorem Publishes.queue_eq (m : Publishes s t xs) (h : RingInv s) : queue t = queue s ++ xs := by
  have hback : (List.range xs.length).filterMap (fun j => queueSlot s (occ s + j)) = xs :=
    filterMap_range_eq fun j hj => by rw [← h.slotRead_head_add, m.written j hj]
  rw [queue, m.occ_eq h, m.queueSlot_eq, filterMap_range_add, hback]; rfl

theorem RingInv.publishes (h : RingInv s) (m : Publishes s t xs) : RingInv t where
  cfg_wf := by simpa [m.cfg] using h.cfg_wf
  head_lt := by simp [m.cfg, m.head]
  tail_lt := by simpa [m.cfg, m.tail] using h.tail_lt
  slots_wf := by simpa [m.slots] using h.slots_wf
  mem_wf := by simpa [m.mem] using h.mem_wf
  slots_fit := by simpa [m.cfg, m.slots] using h.slots_fit
  mem_fit := by simpa [m.cfg, m.mem] using h.mem_fit
  live_written := by
    intro j hj
    rw [m.occ_eq h] at hj
    rw [m.queueSlot_eq]
    by_cases hold : j < occ s
    · exact h.live_written j hold
    · have hnew := m.written (j - occ s) (by omega)
      rw [h.slotRead_head_add, Nat.add_sub_cancel' (by omega)] at hnew
      simp [hnew]; omega
  fifo := by rw [m.accepted, m.delivered, m.queue_eq h, h.fifo, List.append_assoc]
  head_ghost := by
    rw [ghostH, m.accepted, m.cfg, m.head, List.length_append, cursorAdd, h.head_ghost, Nat.mod_add_mod]; rfl
  tail_ghost := by simpa [ghostT, m.delivered, m.cfg, m.tail] using h.tail_ghost

/-! #### `tail` moves on -/

theorem Releases.occ_eq (m : Releases s t xs) (h : RingInv s) : occ t = occ s - xs.length := by
  rw [occ, m.cfg, m.head, m.tail, occOf_cursorAdd_tail h.head_lt h.tail_lt m.live]; rfl

theorem Releases.queueSlot_eq (m : Releases s t xs) (j : Nat) : queueSlot t j = queueSlot s (xs.length + j) := by
  simp [queueSlot, slotRead, m.cfg, m.tail, m.slots, cursorAdd_cursorAdd]

/-- What is delivered leaves the queue at its front (10_state R40). -/
theorem Releases.queue_eq (m : Releases s t xs) (h : RingInv s) : queue s = xs ++ queue t := by
  have hrest : queue t = (List.range (occ s - xs.length)).filterMap (fun j => queueSlot s (xs.length + j)) := by
    rw [queue, m.occ_eq h]; exact List.filterMap_congr fun j _ => m.queueSlot_eq j
  calc queue s = (List.range (xs.length + (occ s - xs.length))).filterMap (queueSlot s) := by
        rw [Nat.add_sub_cancel' m.live]; rfl
    _ = xs ++ queue t := by rw [filterMap_range_add, filterMap_range_eq m.read, hrest]

theorem RingInv.releases (h : RingInv s) (m : Releases s t xs) : RingInv t where
  cfg_wf := by simpa [m.cfg] using h.cfg_wf
  head_lt := by simpa [m.cfg, m.head] using h.head_lt
  tail_lt := by simp [m.cfg, m.tail]
  slots_wf := by simpa [m.slots] using h.slots_wf
  mem_wf := by simpa [m.mem] using h.mem_wf
  slots_fit := by simpa [m.cfg, m.slots] using h.slots_fit
  mem_fit := by simpa [m.cfg, m.mem] using h.mem_fit
  live_written := by
    intro j hj
    rw [m.occ_eq h] at hj
    rw [m.queueSlot_eq]
    exact h.live_written _ (by omega)
  fifo := by rw [m.accepted, m.delivered, h.fifo, m.queue_eq h, List.append_assoc]
  head_ghost := by simpa [ghostH, m.accepted, m.cfg, m.head] using h.head_ghost
  tail_ghost := by
    rw [ghostT, m.delivered, m.cfg, m.tail, List.length_append, cursorAdd, h.tail_ghost, Nat.mod_add_mod]; rfl

end

/-! ### The empty ring after construction and reset (10_state R34) -/

theorem occ_of_zero (hh : s.head = 0) (ht : s.tail = 0) : occ s = 0 := by
  simp [occ, occOf, cursorSub, hh, ht]

theorem queue_of_zero (hh : s.head = 0) (ht : s.tail = 0) : queue s = [] := by
  simp [queue, occ_of_zero hh ht]

/-- Equal cursors 0, no slot written and nothing answered: the ring's invariant holds. -/
theorem ringInv_of_empty (hcfg : s.cfg.wf = true) (hh : s.head = 0) (ht : s.tail = 0) (hslots : s.slots = [])
    (hP : s.portP.done = []) (hC : s.portC.done = []) (hmem : Memory.wf s.mem = true)
    (hfit : ∀ c ∈ s.mem, c.1 < 2 ^ s.cfg.paddrBits) : RingInv s where
  cfg_wf := hcfg
  head_lt := by rw [hh]; exact capacity_pos _
  tail_lt := by rw [ht]; exact capacity_pos _
  slots_wf := by simp [hslots, SlotArray.wf]
  mem_wf := hmem
  slots_fit := by simp [hslots]
  mem_fit := hfit
  live_written := by simp [occ_of_zero hh ht]
  fifo := by simp [accepted, delivered, hP, hC, queue_of_zero hh ht]
  head_ghost := by simp [ghostH, accepted, hP, hh]
  tail_ghost := by simp [ghostT, delivered, hC, ht]

/-- What construction leaves meets the invariant in any environment (70_reset R265). -/
theorem inv_construct {c : Config} (linesP linesC : List MasterLine) (host : List HostAct) (sched : List Agent)
    {mem : Memory} (hcfg : c.wf = true) (hmem : Memory.wf mem = true) (hfit : ∀ a ∈ mem, a.1 < 2 ^ c.paddrBits) :
    Inv { State.construct c with
      portP := .idle linesP, portC := .idle linesC, host := host, sched := sched, mem := mem } where
  ring := ringInv_of_empty hcfg rfl rfl rfl rfl rfl hmem hfit
  reqP := nofun
  reqC := nofun

/-- Settles O8: the fields are those of `State.construct`, and with both cursors 0 nothing is live. -/
theorem resetLeavesTheSpecValues : Obligations.ResetLeavesTheSpecValues := by
  unfold Obligations.ResetLeavesTheSpecValues
  intro c
  exact ⟨rfl, rfl, rfl, fun _ => rfl, rfl, rfl, rfl, rfl, occ_of_zero rfl rfl, queue_of_zero rfl rfl⟩

/-- Settles O10: the default configuration is legal, and a constructed state meets the invariant. -/
theorem resetMeetsInv : Obligations.ResetMeetsInv := by
  unfold Obligations.ResetMeetsInv
  exact ⟨rfl, inv_construct [] [] [] [] (by decide) Cells.wf_nil (by simp)⟩

end Sys2Proof.Machine
end

section
/-! PROOFS, spec/10_state.md R20 to R28, files 40 to 44. What one micro-step does to the state and to its own port, said
once for all fourteen commands, and what it leaves unchanged. -/

namespace Sys2Proof.Machine

/-! ### Which micro-steps access the ring, and how -/

/-- PU3 and PB3: the element written, and how far after the latched `head` (40_push R131, R136). -/
inductive WritesAt : Instr → PortState → Nat → Elem → Prop
  | push {item : Elem} {p : PortState} : p.ph = .pu3 → WritesAt (.push item) p 0 item
  | pushb {cnt : Nat} {items : List Elem} {e : Elem} {p : PortState} : p.ph = .pb3 → items[p.i]? = some e →
      WritesAt (.pushb cnt items) p p.i e

/-- PU4 and PB4: how many elements are published (40_push R131, R136). -/
inductive PublishesAt : Instr → PortState → Nat → Prop
  | push {item : Elem} {p : PortState} : p.ph = .pu4 → PublishesAt (.push item) p 1
  | pushb {cnt : Nat} {items : List Elem} {p : PortState} : p.ph = .pb4 → PublishesAt (.pushb cnt items) p p.n

/-- PO4 and PC4: how many elements are released, which, and with what answer (41_pop R151, R156). -/
inductive ReleasesAt : Instr → PortState → Nat → List Elem → Response → Prop
  | pop {e : Elem} {p : PortState} : p.ph = .po4 → p.out.head? = some e →
      ReleasesAt .pop p 1 [e] (.okWith 1 (.item e))
  | popb {cnt : Nat} {p : PortState} : p.ph = .pc4 → ReleasesAt (.popb cnt) p p.n p.out (.okWith p.n (.items p.out))

/-- A response by which nothing is accepted and nothing delivered. -/
def Quiet (i : Instr) (r : Response) : Prop :=
  acceptedBy { req := some i, resp := r } = [] ∧ deliveredBy { req := some i, resp := r } = []

/-- One micro-step of command `i` from `s`: `u` is `s` after its access to the ring, and `p` is the port afterwards. -/
inductive MicroEffect (i : Instr) (s : State) : State → PortState → Prop
  | goesOn {p : PortState} : p.busy = s.here.busy → p.done = s.here.done → MicroEffect i s s p
  | answers {p : PortState} {r : Response} : Quiet i r → p.busy = false →
      p.done = s.here.done ++ [{ req := some i, resp := r }] → MicroEffect i s s p
  | writesSlot {p : PortState} {j : Nat} {e : Elem} : s.turn = .P → WritesAt i s.portP j e →
      p.busy = s.here.busy → p.done = s.here.done →
      MicroEffect i s (slotWrite (cursorAdd s.cfg s.portP.h j) e s) p
  | publishes {p : PortState} {n : Nat} : s.turn = .P → PublishesAt i s.portP n → p.busy = false →
      p.done = s.here.done ++ [{ req := some i, resp := .okRet n }] →
      MicroEffect i s (storeCur .head (cursorAdd s.cfg s.portP.h n) s) p
  | releases {p : PortState} {n : Nat} {es : List Elem} {r : Response} : s.turn = .C →
      ReleasesAt i s.portC n es r → p.busy = false → p.done = s.here.done ++ [{ req := some i, resp := r }] →
      MicroEffect i s (storeCur .tail (cursorAdd s.cfg s.portC.t n) s) p

/-- A micro-step is its access to the ring followed by the update of its own port, whose stream and request stay. -/
def MicroStep (i : Instr) (s t : State) : Prop :=
  ∃ u p, t = u.setHere p ∧ p.lines = s.here.lines ∧ p.req = s.here.req ∧ MicroEffect i s u p

variable {i : Instr} {s t u : State} {p : PortState}

/-! ### Responses that move nothing -/

theorem quiet_illegal (i : Instr) : Quiet i .illegal := by
  cases i <;> simp [Quiet, acceptedBy, deliveredBy, Response.illegal]

theorem quiet_payloadFault (i : Instr) : Quiet i .payloadFault := by
  cases i <;> simp [Quiet, acceptedBy, deliveredBy, Response.payloadFault]

/-- A result of 0, or the result of a command outside the push family, accepts nothing. -/
theorem quiet_okRet {n : Nat} (h : n = 0 ∨ i.op.accepts .C = true) : Quiet i (.okRet n) := by
  cases i <;> simp_all [Quiet, acceptedBy, deliveredBy, Response.okRet, Instr.op, Op.accepts]

/-- A lane that is no element delivers nothing. -/
theorem quiet_okWith_msg (n : Nat) (m : Msg) (h : i.op.accepts .C = true) : Quiet i (.okWith n (.msg m)) := by
  cases i <;> simp_all [Quiet, acceptedBy, deliveredBy, Response.okWith, Instr.op, Op.accepts]

theorem quiet_okWith_code (n : Nat) (v : Word32) (h : i.op.accepts .C = true) : Quiet i (.okWith n (.code v)) := by
  cases i <;> simp_all [Quiet, acceptedBy, deliveredBy, Response.okWith, Instr.op, Op.accepts]

theorem quiet_popb_nothing (cnt : Nat) : Quiet (.popb cnt) (.okWith 0 (.items [])) := ⟨rfl, rfl⟩

/-! ### Every command's micro-step is one of these -/

@[simp] theorem State.setHere_self (s : State) : s.setHere s.here = s := by
  cases h : s.turn
  · rw [State.setHere_P s _ h, State.here_eq_portP s h]
  · rw [State.setHere_C s _ h, State.here_eq_portC s h]

/-- Latches change and the command goes on. -/
theorem MicroStep.goesOn (ph : Phase) {q : PortState} (hl : q.lines = s.here.lines) (hr : q.req = s.here.req)
    (hb : q.busy = s.here.busy) (hd : q.done = s.here.done) : MicroStep i s (goto ph (s.setHere q)) :=
  ⟨s, { q with ph := ph }, by simp [goto], hl, hr, .goesOn hb hd⟩

/-- Latches change and the command answers. -/
theorem MicroStep.answers {r : Response} (hq : Quiet i r) {q : PortState} (hl : q.lines = s.here.lines)
    (hr : q.req = s.here.req) (hd : q.done = s.here.done) : MicroStep i s (respond (some i) r (s.setHere q)) :=
  ⟨s, { q with busy := false, done := q.done ++ [{ req := some i, resp := r }] }, by simp [respond], hl, hr,
    .answers hq rfl (by simp [hd])⟩

/-- The command answers at once. -/
theorem MicroStep.answersHere {r : Response} (hq : Quiet i r) : MicroStep i s (respond (some i) r s) := by
  simpa using MicroStep.answers (s := s) (q := s.here) hq rfl rfl rfl

theorem execPush_microStep {item : Elem} (h : execPush item s = .next t) : MicroStep (.push item) s t := by
  obtain ⟨-, rfl⟩ | ⟨-, -, rfl⟩ | ⟨-, -, -, rfl⟩ | ⟨-, -, -, rfl⟩ | ⟨ht, hp, rfl⟩ | ⟨ht, hp, rfl⟩ := execPush_next h
  · exact .answersHere (quiet_illegal _)
  · exact .goesOn _ rfl rfl rfl rfl
  · exact .answers (quiet_okRet (.inl rfl)) rfl rfl rfl
  · exact .goesOn _ rfl rfl rfl rfl
  · exact ⟨_, _, rfl, rfl, rfl, .writesSlot ht (.push hp) rfl rfl⟩
  · exact ⟨_, _, rfl, by simp, by simp, .publishes ht (.push hp) rfl (by simp)⟩

theorem execPushb_microStep {cnt : Nat} {items : List Elem} (h : execPushb cnt items s = .next t) :
    MicroStep (.pushb cnt items) s t := by
  obtain ⟨-, rfl⟩ | ⟨-, -, rfl⟩ | ⟨-, -, -, rfl⟩ | ⟨-, -, -, rfl⟩ | ⟨ht, hp, e, he, rfl⟩ | ⟨ht, hp, rfl⟩ :=
    execPushb_next h
  · exact .answersHere (quiet_illegal _)
  · exact .goesOn _ rfl rfl rfl rfl
  · exact .answers (quiet_okRet (.inl rfl)) rfl rfl rfl
  · exact .goesOn _ rfl rfl rfl rfl
  · exact ⟨_, _, by simp only [goto, State.setHere_setHere]; rfl, by simp, by simp,
      .writesSlot ht (.pushb hp he) (by simp) (by simp)⟩
  · exact ⟨_, _, rfl, by simp, by simp, .publishes ht (.pushb hp) rfl (by simp)⟩

theorem execPop_microStep (h : execPop s = .next t) : MicroStep .pop s t := by
  obtain ⟨-, rfl⟩ | ⟨-, -, rfl⟩ | ⟨-, -, -, rfl⟩ | ⟨-, -, -, rfl⟩ | ⟨-, -, e, -, rfl⟩ | ⟨ht, hp, e, he, rfl⟩ :=
    execPop_next h
  · exact .answersHere (quiet_illegal _)
  · exact .goesOn _ rfl rfl rfl rfl
  · exact .answers (quiet_okRet (.inl rfl)) rfl rfl rfl
  · exact .goesOn _ rfl rfl rfl rfl
  · exact .goesOn _ rfl rfl rfl rfl
  · exact ⟨_, _, rfl, by simp, by simp, .releases ht (.pop hp he) rfl (by simp)⟩

theorem execPopb_microStep {cnt : Nat} (h : execPopb cnt s = .next t) : MicroStep (.popb cnt) s t := by
  obtain ⟨-, rfl⟩ | ⟨-, -, rfl⟩ | ⟨-, -, -, rfl⟩ | ⟨-, -, -, rfl⟩ | ⟨-, -, e, -, rfl⟩ | ⟨ht, hp, rfl⟩ :=
    execPopb_next h
  · exact .answersHere (quiet_illegal _)
  · exact .goesOn _ rfl rfl rfl rfl
  · exact .answers (quiet_popb_nothing cnt) rfl rfl rfl
  · exact .goesOn _ rfl rfl rfl rfl
  · exact .goesOn _ rfl rfl rfl rfl
  · exact ⟨_, _, rfl, by simp, by simp, .releases ht (.popb hp) rfl (by simp)⟩

theorem queryStep_microStep {f : Config → Nat → Nat → Nat} (hi : i.op.accepts .C = true)
    (h : queryStep i f s = .next t) : MicroStep i s t := by
  obtain ⟨p, rfl, hl, hr, ⟨hb, hd⟩ | ⟨hb, r, hd⟩⟩ := queryStep_next h
  · exact ⟨s, p, rfl, hl, hr, .goesOn hb hd⟩
  · exact ⟨s, p, rfl, hl, hr, .answers (quiet_okRet (.inr hi)) hb hd⟩

theorem checksumStep_microStep {addr len : Nat} {answer : Word32 → Response} (hq : ∀ c, Quiet i (answer c))
    (h : checksumStep i addr len answer s = .next t) : MicroStep i s t := by
  obtain ⟨p, rfl, hl, hr, ⟨hb, hd⟩ | ⟨hb, hd⟩ | ⟨hb, -, hd⟩⟩ := checksumStep_next h
  · exact ⟨s, p, rfl, hl, hr, .goesOn hb hd⟩
  · exact ⟨s, p, rfl, hl, hr, .answers (quiet_payloadFault i) hb hd⟩
  · exact ⟨s, p, rfl, hl, hr, .answers (hq _) hb hd⟩

/-- Whatever command is in flight, a micro-step that answers a next state has one of the effects above. -/
theorem exec_microStep (h : exec i s = .next t) : MicroStep i s t := by
  cases i with
  | push item => exact execPush_microStep h
  | pushb cnt items => exact execPushb_microStep h
  | pop => exact execPop_microStep h
  | popb cnt => exact execPopb_microStep h
  | isempty => rw [exec, execIsempty] at h; exact queryStep_microStep rfl h
  | isfull => rw [exec, execIsfull] at h; exact queryStep_microStep rfl h
  | size => rw [exec, execSize] at h; exact queryStep_microStep rfl h
  | cap => cases h; exact .answersHere (quiet_okRet (.inr rfl))
  | crc32 addr len => exact checksumStep_microStep (fun c => quiet_okWith_code 1 c rfl) h
  | mkmsg id ts topic flags addr len => exact checksumStep_microStep (fun c => quiet_okWith_msg 1 _ rfl) h
  | verify msg => exact checksumStep_microStep (fun c => quiet_okRet (.inr rfl)) h
  | fset mask msg | fclr mask msg => cases h; exact .answersHere (quiet_okWith_msg 1 _ rfl)
  | ftst mask msg => cases h; exact .answersHere (quiet_okRet (.inr rfl))

/-! ### What a micro-step leaves unchanged -/

/-- An access to the ring touches the cursors and the slots only. -/
theorem MicroEffect.frame (he : MicroEffect i s u p) :
    u = { s with head := u.head, tail := u.tail, slots := u.slots } := by
  cases he <;> rfl

theorem MicroEffect.turn_eq (he : MicroEffect i s u p) : u.turn = s.turn := by rw [he.frame]

theorem MicroEffect.port_eq (he : MicroEffect i s u p) (x : Port) : u.port x = s.port x := by
  rw [he.frame]; cases x <;> rfl

theorem MicroStep.port_other (h : MicroStep i s t) {x : Port} (hx : x ≠ s.turn) : t.port x = s.port x := by
  obtain ⟨u, p, rfl, -, -, he⟩ := h
  rw [State.setHere_port_other u p x (by rwa [he.turn_eq]), he.port_eq]

theorem MicroStep.turn_eq (h : MicroStep i s t) : t.turn = s.turn := by
  obtain ⟨u, p, rfl, -, -, he⟩ := h
  rw [State.setHere_turn, he.turn_eq]

theorem MicroStep.cfg_eq (h : MicroStep i s t) : t.cfg = s.cfg := by
  obtain ⟨u, p, rfl, -, -, he⟩ := h
  rw [State.setHere_cfg, he.frame]

theorem MicroStep.req_eq (h : MicroStep i s t) : t.here.req = s.here.req := by
  obtain ⟨u, p, rfl, -, hr, -⟩ := h
  rw [State.setHere_here, hr]

/-- Only PU4 and PB4 store `head` (10_state R24). -/
theorem MicroStep.head_eq (h : MicroStep i s t)
    (hn : ¬ (s.turn = .P ∧ ((i.op = .push ∧ s.portP.ph = .pu4) ∨ (i.op = .pushb ∧ s.portP.ph = .pb4)))) :
    t.head = s.head := by
  obtain ⟨u, p, rfl, -, -, he⟩ := h
  cases he with
  | publishes ht hp =>
    cases hp with
    | push hph => exact absurd ⟨ht, .inl ⟨rfl, hph⟩⟩ hn
    | pushb hph => exact absurd ⟨ht, .inr ⟨rfl, hph⟩⟩ hn
  | goesOn | answers | writesSlot | releases => simp

/-- Only PO4 and PC4 store `tail` (10_state R25). -/
theorem MicroStep.tail_eq (h : MicroStep i s t)
    (hn : ¬ (s.turn = .C ∧ ((i.op = .pop ∧ s.portC.ph = .po4) ∨ (i.op = .popb ∧ s.portC.ph = .pc4)))) :
    t.tail = s.tail := by
  obtain ⟨u, p, rfl, -, -, he⟩ := h
  cases he with
  | releases ht hr =>
    cases hr with
    | pop hph => exact absurd ⟨ht, .inl ⟨rfl, hph⟩⟩ hn
    | popb hph => exact absurd ⟨ht, .inr ⟨rfl, hph⟩⟩ hn
  | goesOn | answers | writesSlot | publishes => simp

/-- Only PU3 and PB3 write a slot, and only the one they compute (10_state R28). -/
theorem MicroStep.slotRead_eq (h : MicroStep i s t) {j : Nat}
    (hpush : s.turn = .P → i.op = .push → s.portP.ph = .pu3 → j ≠ cursorAdd s.cfg s.portP.h 0)
    (hpushb : s.turn = .P → i.op = .pushb → s.portP.ph = .pb3 → j ≠ cursorAdd s.cfg s.portP.h s.portP.i) :
    slotRead j t = slotRead j s := by
  obtain ⟨u, p, rfl, -, -, he⟩ := h
  have hset : slotRead j (u.setHere p) = slotRead j u := by simp [slotRead]
  rw [hset]
  cases he with
  | writesSlot ht hw =>
    rw [slotRead_slotWrite, if_neg]
    cases hw with
    | push hph => exact hpush ht rfl hph
    | pushb hph => exact hpushb ht rfl hph
  | goesOn | answers => rfl
  | publishes | releases => simp [slotRead]

/-- Settles O52: the access to the ring changes the cursors and the slots only, the update of the port that port only,
and the micro-steps that store are named by the effect they have. -/
theorem microStepFrame : Obligations.MicroStepFrame := by
  unfold Obligations.MicroStepFrame
  intro s t i hexec
  have h := exec_microStep hexec
  have hstores := And.intro h.head_eq (And.intro h.tail_eq fun j => h.slotRead_eq (j := j))
  obtain ⟨u, p, rfl, hl, hr, he⟩ := h
  have hmem : (u.setHere p).mem = s.mem := by rw [State.setHere_mem, he.frame]
  refine ⟨?_, hmem, ?_, ?_, ?_, ?_, ?_, fun a => by rw [memRead, memRead, hmem], ?_, ?_, ?_, hstores⟩
  · rw [State.setHere_cfg, he.frame]
  · rw [State.setHere_host, he.frame]
  · rw [State.setHere_sched, he.frame]
  · rw [State.setHere_tick, he.frame]
  · rw [State.setHere_turn, he.frame]
  · rw [State.setHere_past, he.frame]
  · exact fun x hx => (exec_microStep hexec).port_other hx
  · rw [State.setHere_here, hl]
  · rw [State.setHere_here, hr]

end Sys2Proof.Machine
end

section
/-! PROOFS, spec/10_state.md R26 to R42, spec/20_memory.md R62, R82, R83. The latches of a command in flight: what they
say at each micro-step, how they bound what the micro-step does to the ring, and that the other port's micro-steps keep
them. -/

namespace Sys2Proof.Machine

variable {i : Instr} {s t : State}

/-! ### The latches, micro-step by micro-step -/

section Producer
variable {item : Elem} {cnt : Nat} {items : List Elem}

theorem producerLatches_pu2 (hr : s.portP.req = .push item) (hp : s.portP.ph = .pu2) :
    producerLatches s ↔ s.portP.h = s.head := by simp [producerLatches, hr, hp]

theorem producerLatches_pu3 (hr : s.portP.req = .push item) (hp : s.portP.ph = .pu3) :
    producerLatches s ↔ s.portP.h = s.head ∧ roomSeen s ∧ 1 ≤ roomOf s.cfg s.portP.h s.portP.t := by
  simp [producerLatches, hr, hp]

theorem producerLatches_pu4 (hr : s.portP.req = .push item) (hp : s.portP.ph = .pu4) :
    producerLatches s ↔ s.portP.h = s.head ∧ roomSeen s ∧ 1 ≤ roomOf s.cfg s.portP.h s.portP.t ∧
      slotRead s.head s = some item := by
  simp [producerLatches, hr, hp]

theorem producerLatches_pb2 (hr : s.portP.req = .pushb cnt items) (hp : s.portP.ph = .pb2) :
    producerLatches s ↔ s.portP.h = s.head := by simp [producerLatches, hr, hp]

theorem producerLatches_pb3 (hr : s.portP.req = .pushb cnt items) (hp : s.portP.ph = .pb3) :
    producerLatches s ↔ s.portP.h = s.head ∧ roomSeen s ∧
      s.portP.n = min cnt (roomOf s.cfg s.portP.h s.portP.t) ∧ s.portP.i < s.portP.n ∧
      ∀ j, j < s.portP.i → slotRead (cursorAdd s.cfg s.head j) s = items[j]? := by
  simp [producerLatches, hr, hp]

theorem producerLatches_pb4 (hr : s.portP.req = .pushb cnt items) (hp : s.portP.ph = .pb4) :
    producerLatches s ↔ s.portP.h = s.head ∧ roomSeen s ∧
      s.portP.n = min cnt (roomOf s.cfg s.portP.h s.portP.t) ∧ 0 < s.portP.n ∧
      ∀ j, j < s.portP.n → slotRead (cursorAdd s.cfg s.head j) s = items[j]? := by
  simp [producerLatches, hr, hp]

/-- A PUSH in flight is before one of its four micro-steps. -/
theorem producerLatches.push_ph (hl : producerLatches s) (hr : s.portP.req = .push item) :
    s.portP.ph = .pu1 ∨ s.portP.ph = .pu2 ∨ s.portP.ph = .pu3 ∨ s.portP.ph = .pu4 := by
  simp only [producerLatches, hr] at hl
  split at hl <;> simp_all

/-- A PUSHB in flight is before one of its four micro-steps. -/
theorem producerLatches.pushb_ph (hl : producerLatches s) (hr : s.portP.req = .pushb cnt items) :
    s.portP.ph = .pb1 ∨ s.portP.ph = .pb2 ∨ s.portP.ph = .pb3 ∨ s.portP.ph = .pb4 := by
  simp only [producerLatches, hr] at hl
  split at hl <;> simp_all

end Producer

section Consumer
variable {cnt : Nat}

theorem consumerLatches_po2 (hr : s.portC.req = .pop) (hp : s.portC.ph = .po2) :
    consumerLatches s ↔ s.portC.t = s.tail := by simp [consumerLatches, hr, hp]

theorem consumerLatches_po3 (hr : s.portC.req = .pop) (hp : s.portC.ph = .po3) :
    consumerLatches s ↔ s.portC.t = s.tail ∧ occSeen s ∧ 1 ≤ occOf s.cfg s.portC.h s.portC.t := by
  simp [consumerLatches, hr, hp]

theorem consumerLatches_po4 (hr : s.portC.req = .pop) (hp : s.portC.ph = .po4) :
    consumerLatches s ↔ s.portC.t = s.tail ∧ occSeen s ∧ 1 ≤ occOf s.cfg s.portC.h s.portC.t ∧
      s.portC.out.length = 1 ∧ queueSlot s 0 = s.portC.out[0]? := by
  simp [consumerLatches, hr, hp]

theorem consumerLatches_pc2 (hr : s.portC.req = .popb cnt) (hp : s.portC.ph = .pc2) :
    consumerLatches s ↔ s.portC.t = s.tail := by simp [consumerLatches, hr, hp]

theorem consumerLatches_pc3 (hr : s.portC.req = .popb cnt) (hp : s.portC.ph = .pc3) :
    consumerLatches s ↔ s.portC.t = s.tail ∧ occSeen s ∧
      s.portC.n = min cnt (occOf s.cfg s.portC.h s.portC.t) ∧ s.portC.i < s.portC.n ∧
      s.portC.out.length = s.portC.i ∧ ∀ j, j < s.portC.i → queueSlot s j = s.portC.out[j]? := by
  simp [consumerLatches, hr, hp]

theorem consumerLatches_pc4 (hr : s.portC.req = .popb cnt) (hp : s.portC.ph = .pc4) :
    consumerLatches s ↔ s.portC.t = s.tail ∧ occSeen s ∧
      s.portC.n = min cnt (occOf s.cfg s.portC.h s.portC.t) ∧ 0 < s.portC.n ∧
      s.portC.out.length = s.portC.n ∧ ∀ j, j < s.portC.n → queueSlot s j = s.portC.out[j]? := by
  simp [consumerLatches, hr, hp]

/-- A POP in flight is before one of its four micro-steps. -/
theorem consumerLatches.pop_ph (hl : consumerLatches s) (hr : s.portC.req = .pop) :
    s.portC.ph = .po1 ∨ s.portC.ph = .po2 ∨ s.portC.ph = .po3 ∨ s.portC.ph = .po4 := by
  simp only [consumerLatches, hr] at hl
  split at hl <;> simp_all

/-- A POPB in flight is before one of its four micro-steps. -/
theorem consumerLatches.popb_ph (hl : consumerLatches s) (hr : s.portC.req = .popb cnt) :
    s.portC.ph = .pc1 ∨ s.portC.ph = .pc2 ∨ s.portC.ph = .pc3 ∨ s.portC.ph = .pc4 := by
  simp only [consumerLatches, hr] at hl
  split at hl <;> simp_all

end Consumer

/-! ### The invariant, port by port -/

/-- The latches of port `x` fit the phase of the command in flight there. -/
def latchesFit (x : Port) (s : State) : Prop :=
  match x with
  | .P => producerLatches s
  | .C => consumerLatches s

theorem inv_iff : Inv s ↔
    RingInv s ∧ ∀ x, (s.port x).busy = true → (s.port x).req.wf s.cfg = true ∧ latchesFit x s := by
  constructor
  · rintro ⟨ring, reqP, reqC⟩
    exact ⟨ring, fun x => match x with | .P => reqP | .C => reqC⟩
  · rintro ⟨ring, req⟩
    exact ⟨ring, req .P, req .C⟩

theorem Inv.req_wf (h : Inv s) (hb : s.here.busy = true) : s.here.req.wf s.cfg = true :=
  ((inv_iff.1 h).2 s.turn hb).1

theorem Inv.latchesFit (h : Inv s) (hb : s.here.busy = true) : latchesFit s.turn s :=
  ((inv_iff.1 h).2 s.turn hb).2

theorem Inv.producerLatches (h : Inv s) (hb : s.here.busy = true) (ht : s.turn = .P) : producerLatches s := by
  simpa [ht, Machine.latchesFit] using h.latchesFit hb

theorem Inv.consumerLatches (h : Inv s) (hb : s.here.busy = true) (ht : s.turn = .C) : consumerLatches s := by
  simpa [ht, Machine.latchesFit] using h.latchesFit hb

/-! ### What the latches say of the ring -/

theorem Instr.pushb_wf {c : Config} {cnt : Nat} {items : List Elem} (h : (Instr.pushb cnt items).wf c = true) :
    items.length = cnt ∧ ∀ e ∈ items, e < 2 ^ c.elemBits := by
  simp only [Instr.wf, Bool.and_eq_true, decide_eq_true_eq, List.all_eq_true] at h
  exact ⟨h.1.2, h.2⟩

/-- PU3 and PB3 write a slot within the room behind `head` (10_state R42). -/
theorem WritesAt.of_latches {j : Nat} {e : Elem} (hw : WritesAt i s.portP j e) (hr : s.portP.req = i)
    (hwf : i.wf s.cfg = true) (hl : producerLatches s) :
    s.portP.h = s.head ∧ j < room s ∧ e < 2 ^ s.cfg.elemBits := by
  cases hw with
  | push hp =>
    obtain ⟨hh, hseen, hpos⟩ := (producerLatches_pu3 hr hp).1 hl
    exact ⟨hh, hpos.trans hseen, by simpa [Instr.wf] using hwf⟩
  | pushb hp he =>
    obtain ⟨hh, hseen, hn, hi, -⟩ := (producerLatches_pb3 hr hp).1 hl
    refine ⟨hh, lt_of_lt_of_le ?_ hseen, (Instr.pushb_wf hwf).2 e (List.mem_of_getElem? he)⟩
    omega

/-- PU4 and PB4 publish elements that stand written within the room behind `head`. -/
theorem PublishesAt.of_latches {n : Nat} (hpub : PublishesAt i s.portP n) (hring : RingInv s) (hr : s.portP.req = i)
    (hwf : i.wf s.cfg = true) (hl : producerLatches s) :
    s.portP.h = s.head ∧ ∃ xs : List Elem, acceptedBy { req := some i, resp := .okRet n } = xs ∧ xs.length = n ∧
      n ≤ room s ∧ ∀ j, j < n → slotRead (cursorAdd s.cfg s.head j) s = xs[j]? := by
  cases hpub with
  | @push item _ hp =>
    obtain ⟨hh, hseen, hpos, hslot⟩ := (producerLatches_pu4 hr hp).1 hl
    refine ⟨hh, [item], rfl, rfl, hpos.trans hseen, fun j hj => ?_⟩
    obtain rfl : j = 0 := by omega
    rw [cursorAdd_zero hring.head_lt, hslot]; rfl
  | @pushb cnt items _ hp =>
    obtain ⟨hh, hseen, hn, -, hslots⟩ := (producerLatches_pb4 hr hp).1 hl
    have hlen := (Instr.pushb_wf hwf).1
    refine ⟨hh, items.take s.portP.n, rfl, ?_, le_trans ?_ hseen, fun j hj => ?_⟩
    · rw [List.length_take]; omega
    · omega
    · rw [hslots j hj, List.getElem?_take_of_lt hj]

/-- PO4 and PC4 release elements that were read from the front of the queue. -/
theorem ReleasesAt.of_latches {n : Nat} {es : List Elem} {r : Response} (hrel : ReleasesAt i s.portC n es r)
    (hr : s.portC.req = i) (hl : consumerLatches s) :
    s.portC.t = s.tail ∧ es.length = n ∧ n ≤ occ s ∧ (∀ j, j < n → queueSlot s j = es[j]?) ∧
      deliveredBy { req := some i, resp := r } = es := by
  cases hrel with
  | pop hp he =>
    obtain ⟨htl, hseen, hpos, -, hslot⟩ := (consumerLatches_po4 hr hp).1 hl
    refine ⟨htl, rfl, hpos.trans hseen, fun j hj => ?_, rfl⟩
    obtain rfl : j = 0 := by omega
    rw [hslot, ← List.head?_eq_getElem?, he]; rfl
  | popb hp =>
    obtain ⟨htl, hseen, hn, -, hlen, hslots⟩ := (consumerLatches_pc4 hr hp).1 hl
    exact ⟨htl, hlen, le_trans (by omega) hseen, hslots, rfl⟩

/-! ### A micro-step's move of the ring -/

/-- The four ways a micro-step can touch the ring, and which port can. -/
inductive RingMove (s t : State) : Prop
  | keeps : KeepsRing s t → RingMove s t
  | writes {j : Nat} {e : Elem} : s.turn = .P → WritesSlot s t j e → RingMove s t
  | publishes {xs : List Elem} : s.turn = .P → Publishes s t xs → RingMove s t
  | releases {xs : List Elem} : s.turn = .C → Releases s t xs → RingMove s t

section Done
variable {p : PortState} {d : Done}

theorem accepted_setHere_P (ht : s.turn = .P) (p : PortState) : accepted (s.setHere p) = p.done.flatMap acceptedBy := by
  rw [State.setHere_P s p ht]; rfl

theorem accepted_setHere_C (ht : s.turn = .C) (p : PortState) : accepted (s.setHere p) = accepted s := by
  rw [State.setHere_C s p ht]; rfl

theorem delivered_setHere_C (ht : s.turn = .C) (p : PortState) :
    delivered (s.setHere p) = p.done.flatMap deliveredBy := by
  rw [State.setHere_C s p ht]; rfl

theorem delivered_setHere_P (ht : s.turn = .P) (p : PortState) : delivered (s.setHere p) = delivered s := by
  rw [State.setHere_P s p ht]; rfl

theorem accepted_setHere_append (ht : s.turn = .P) (hd : p.done = s.here.done ++ [d]) :
    accepted (s.setHere p) = accepted s ++ acceptedBy d := by
  rw [accepted_setHere_P ht, hd]; simp [accepted, State.here_eq_portP s ht]

theorem delivered_setHere_append (ht : s.turn = .C) (hd : p.done = s.here.done ++ [d]) :
    delivered (s.setHere p) = delivered s ++ deliveredBy d := by
  rw [delivered_setHere_C ht, hd]; simp [delivered, State.here_eq_portC s ht]

/-- A port whose answered commands count the same leaves the ring as it is. -/
theorem keepsRing_setHere (ha : p.done.flatMap acceptedBy = s.here.done.flatMap acceptedBy)
    (hd : p.done.flatMap deliveredBy = s.here.done.flatMap deliveredBy) : KeepsRing s (s.setHere p) := by
  refine ⟨by simp, by simp, by simp, by simp, by simp, ?_, ?_⟩ <;> cases ht : s.turn
  · rw [accepted_setHere_P ht, ha, State.here_eq_portP s ht]; rfl
  · exact accepted_setHere_C ht p
  · exact delivered_setHere_P ht p
  · rw [delivered_setHere_C ht, hd, State.here_eq_portC s ht]; rfl

theorem keepsRing_of_done_eq (h : p.done = s.here.done) : KeepsRing s (s.setHere p) :=
  keepsRing_setHere (by rw [h]) (by rw [h])

theorem keepsRing_of_quiet (h : p.done = s.here.done ++ [d]) (ha : acceptedBy d = []) (hd : deliveredBy d = []) :
    KeepsRing s (s.setHere p) :=
  keepsRing_setHere (by simp [h, ha]) (by simp [h, hd])

end Done

/-- Under the invariant the effect of a micro-step of the command in flight is a move of the ring. -/
theorem MicroStep.ringMove (h : MicroStep s.here.req s t) (hinv : Inv s) (hb : s.here.busy = true) : RingMove s t := by
  obtain ⟨u, p, rfl, -, -, he⟩ := h
  have hring := hinv.ring
  have hwf := hinv.req_wf hb
  cases he with
  | goesOn _ hd => exact .keeps (keepsRing_of_done_eq hd)
  | answers hq _ hd => exact .keeps (keepsRing_of_quiet hd hq.1 hq.2)
  | writesSlot ht hw _ hd =>
    have hhere := State.here_eq_portP s ht
    obtain ⟨hh, hj, he⟩ := hw.of_latches (by rw [hhere]) hwf (hinv.producerLatches hb ht)
    exact .writes ht ⟨hj, he, by rw [hh]; exact keepsRing_of_done_eq hd⟩
  | publishes ht hpub _ hd =>
    have hhere := State.here_eq_portP s ht
    obtain ⟨hh, xs, hacc, rfl, hfit, hslots⟩ :=
      hpub.of_latches hring (by rw [hhere]) hwf (hinv.producerLatches hb ht)
    refine .publishes ht (xs := xs) ⟨hfit, hslots, by simp, ?_, by simp, by simp, by simp, ?_, ?_⟩
    · simp [hh, cursorAdd_mod]
    · rw [accepted_setHere_append (by simpa using ht) (by simpa using hd), hacc]; rfl
    · rw [delivered_setHere_P (by simpa using ht)]; simp [delivered]
  | releases ht hrel _ hd =>
    have hhere := State.here_eq_portC s ht
    obtain ⟨htl, rfl, hlive, hslots, hdel⟩ := hrel.of_latches (by rw [hhere]) (hinv.consumerLatches hb ht)
    refine .releases ht ⟨hlive, hslots, by simp, by simp, ?_, by simp, by simp, ?_, ?_⟩
    · simp [htl, cursorAdd_mod]
    · rw [accepted_setHere_C (by simpa using ht)]; simp [accepted]
    · rw [delivered_setHere_append (by simpa using ht) (by simpa using hd), hdel]; rfl

theorem RingMove.ringInv (m : RingMove s t) (h : RingInv s) : RingInv t := by
  cases m with
  | keeps m => exact h.keepsRing m
  | writes _ m => exact h.writesSlot m
  | publishes _ m => exact h.publishes m
  | releases _ m => exact h.releases m

/-! ### The other port's latches (20_memory R83) -/

/-- What port `P` has latched stays true while `head` and the slots stay and the room does not shrink. -/
theorem producerLatches_of_room_le (hport : t.portP = s.portP) (hcfg : t.cfg = s.cfg) (hhead : t.head = s.head)
    (hslots : t.slots = s.slots) (hroom : room s ≤ room t) (hl : producerLatches s) : producerLatches t := by
  have hread : ∀ k, slotRead k t = slotRead k s := fun k => by rw [slotRead, slotRead, hslots]
  have hseen : roomSeen s → roomSeen t := fun h => by rw [roomSeen, hport, hcfg]; exact h.trans hroom
  cases hr : s.portP.req
  case push =>
    obtain hp | hp | hp | hp := hl.push_ph hr <;>
      simp only [producerLatches, hport, hcfg, hhead, hread, hr, hp] at hl ⊢
    · exact hl
    · exact hl.imp_right (And.imp_left hseen)
    · exact hl.imp_right (And.imp_left hseen)
  case pushb =>
    obtain hp | hp | hp | hp := hl.pushb_ph hr <;>
      simp only [producerLatches, hport, hcfg, hhead, hread, hr, hp] at hl ⊢
    · exact hl
    · exact hl.imp_right (And.imp_left hseen)
    · exact hl.imp_right (And.imp_left hseen)
  case pop | popb => simp [producerLatches, hr] at hl
  all_goals
    simp only [producerLatches, hport, hcfg, hhead, hr] at hl ⊢
    exact hl

/-- What port `C` has latched stays true while `tail` and the live slots stay and the occupancy does not shrink. -/
theorem consumerLatches_of_occ_le (hport : t.portC = s.portC) (hcfg : t.cfg = s.cfg) (htail : t.tail = s.tail)
    (hslots : ∀ j, j < occ s → queueSlot t j = queueSlot s j) (hocc : occ s ≤ occ t) (hl : consumerLatches s) :
    consumerLatches t := by
  have hseen : occSeen s → occSeen t := fun h => by rw [occSeen, hport, hcfg]; exact h.trans hocc
  cases hr : s.portC.req
  case pop =>
    obtain hp | hp | hp | hp := hl.pop_ph hr <;>
      simp only [consumerLatches, hport, hcfg, htail, hr, hp] at hl ⊢
    · exact hl
    · exact hl.imp_right (And.imp_left hseen)
    · obtain ⟨htl, hs, hpos, hlen, hread⟩ := hl
      exact ⟨htl, hseen hs, hpos, hlen, by rw [hslots 0 (hpos.trans hs), hread]⟩
  case popb =>
    obtain hp | hp | hp | hp := hl.popb_ph hr <;>
      simp only [consumerLatches, hport, hcfg, htail, hr, hp] at hl ⊢
    · exact hl
    · obtain ⟨htl, hs, hn, hi, hlen, hread⟩ := hl
      have hle : s.portC.n ≤ occ s := le_trans (by omega) hs
      exact ⟨htl, hseen hs, hn, hi, hlen, fun j hj => by rw [hslots j (by omega), hread j hj]⟩
    · obtain ⟨htl, hs, hn, hpos, hlen, hread⟩ := hl
      have hle : s.portC.n ≤ occ s := le_trans (by omega) hs
      exact ⟨htl, hseen hs, hn, hpos, hlen, fun j hj => by rw [hslots j (by omega), hread j hj]⟩
  case push | pushb => simp [consumerLatches, hr] at hl
  all_goals
    simp only [consumerLatches, hport, hcfg, htail, hr] at hl ⊢
    exact hl

/-- A move of the ring by one port keeps the latches of the other. -/
theorem RingMove.latchesFit_other (m : RingMove s t) (h : RingInv s) {x : Port} (hx : x ≠ s.turn)
    (hport : t.port x = s.port x) (hl : latchesFit x s) : latchesFit x t := by
  cases x with
  | P =>
    have ht : s.turn = .C := by cases hs : s.turn <;> simp_all
    cases m with
    | keeps m => exact producerLatches_of_room_le hport m.cfg m.head m.slots m.room_eq.ge hl
    | releases _ m =>
      refine producerLatches_of_room_le hport m.cfg m.head m.slots ?_ hl
      have := m.occ_eq h
      have := occ_add_room s
      have := occ_add_room t
      rw [m.cfg] at this
      omega
    | writes hs | publishes hs => simp [ht] at hs
  | C =>
    have ht : s.turn = .P := by cases hs : s.turn <;> simp_all
    cases m with
    | keeps m =>
      exact consumerLatches_of_occ_le hport m.cfg m.tail (fun j _ => by rw [m.queueSlot_eq]) m.occ_eq.ge hl
    | writes _ m =>
      exact consumerLatches_of_occ_le hport m.step.cfg m.step.tail (fun j => m.queueSlot_eq h) m.occ_eq.ge hl
    | publishes _ m =>
      refine consumerLatches_of_occ_le hport m.cfg m.tail (fun j _ => by rw [m.queueSlot_eq]) ?_ hl
      rw [m.occ_eq h]; omega
    | releases hs => simp [ht] at hs

/-! ### Slot ownership (10_state R42) -/

/-- A slot that reads differently after a move was written by port `P` outside the live slots. -/
theorem RingMove.not_consumerOwns (m : RingMove s t) (h : RingInv s) {j : Nat} (hj : slotRead j t ≠ slotRead j s) :
    s.turn = .P ∧ ¬ consumerOwns s j := by
  cases m with
  | keeps m => exact absurd (m.slotRead_eq j) hj
  | writes ht m =>
    rw [m.step.slotRead_eq, slotRead_slotWrite] at hj
    split at hj
    · rename_i hk; rw [hk]; exact ⟨ht, h.not_consumerOwns m.free⟩
    · exact absurd rfl hj
  | publishes _ m => exact absurd (by rw [slotRead, slotRead, m.slots]) hj
  | releases _ m => exact absurd (by rw [slotRead, slotRead, m.slots]) hj

/-- Settles O51: a micro-step writes a slot only where there is room, and the latches of port `C` put the slot it reads
before the end of the occupancy it has seen. -/
theorem slotOwnershipIsRespected : Obligations.SlotOwnershipIsRespected := by
  unfold Obligations.SlotOwnershipIsRespected
  intro s hinv hb
  refine ⟨fun t j hexec hj => ?_, fun ht => ⟨?_, ?_⟩⟩
  · exact ((exec_microStep hexec).ringMove hinv hb).not_consumerOwns hinv.ring hj
  · intro hr hp
    obtain ⟨htl, hseen, hpos⟩ := (consumerLatches_po3 hr hp).1 (hinv.consumerLatches hb ht)
    exact ⟨0, hpos.trans hseen, by rw [htl]⟩
  · intro cnt hr hp
    obtain ⟨htl, hseen, hn, hi, -⟩ := (consumerLatches_pc3 hr hp).1 (hinv.consumerLatches hb ht)
    exact ⟨s.portC.i, lt_of_lt_of_le (by omega) hseen, by rw [htl]⟩

end Sys2Proof.Machine
end

section
/-! PROOFS, spec/10_state.md R26 to R42, spec/60_exceptions.md R245, R252. Under the invariant the command in flight can
always perform its next micro-step, and its latches fit the phase it moves on to. -/

namespace Sys2Proof.Machine

variable {i : Instr} {s t : State}

theorem goto_P (ph : Phase) (ht : s.turn = .P) : goto ph s = { s with portP := { s.portP with ph := ph } } := by
  rw [goto, State.setHere_P s _ ht, State.here_eq_portP s ht]

theorem goto_setHere_P (ph : Phase) (q : PortState) (ht : s.turn = .P) :
    goto ph (s.setHere q) = { s with portP := { q with ph := ph } } := by
  rw [goto, State.setHere_here, State.setHere_setHere, State.setHere_P s _ ht]

theorem goto_setHere_C (ph : Phase) (q : PortState) (ht : s.turn = .C) :
    goto ph (s.setHere q) = { s with portC := { q with ph := ph } } := by
  rw [goto, State.setHere_here, State.setHere_setHere, State.setHere_C s _ ht]

/-! ### The push family -/

section Producer
variable {item : Elem} {cnt : Nat} {items : List Elem}

theorem execPush_keeps_latches (hring : RingInv s) (ht : s.turn = .P) (hr : s.portP.req = .push item)
    (hl : producerLatches s) (h : execPush item s = .next t) (hb : t.here.busy = true) : producerLatches t := by
  have hhere := State.here_eq_portP s ht
  obtain ⟨hC, -⟩ | ⟨-, -, rfl⟩ | ⟨-, -, -, rfl⟩ | ⟨-, hp, hroom, rfl⟩ | ⟨-, hp, rfl⟩ | ⟨-, -, rfl⟩ := execPush_next h
  · simp [ht] at hC
  · rw [hhere, goto_setHere_P _ _ ht]
    exact Iff.mpr (producerLatches_pu2 hr rfl) rfl
  · simp at hb
  · have hh := (producerLatches_pu2 hr hp).1 hl
    rw [hh, Ne, nextCursor_eq_iff hring.head_lt hring.tail_lt, ← hh] at hroom
    rw [hhere, goto_setHere_P _ _ ht]
    exact Iff.mpr (producerLatches_pu3 hr rfl)
      ⟨hh, (congrArg (roomOf s.cfg · s.tail) hh).le, Nat.pos_of_ne_zero hroom⟩
  · obtain ⟨hh, hseen, hpos⟩ := (producerLatches_pu3 hr hp).1 hl
    rw [goto_P _ (by exact ht), hh, cursorAdd_zero hring.head_lt]
    exact Iff.mpr (producerLatches_pu4 hr rfl) ⟨hh, hseen, hpos, (slotRead_slotWrite _ _ _ _).trans (if_pos rfl)⟩
  · simp at hb

/-- One more element of a batch is written: the slots behind `head` hold one element more. -/
theorem slotRead_slotWrite_next {m : Nat} {e : Elem} (hm : m < s.cfg.capacity)
    (hslots : ∀ j, j < m → slotRead (cursorAdd s.cfg s.head j) s = items[j]?) (he : items[m]? = some e) :
    ∀ j, j < m + 1 → slotRead (cursorAdd s.cfg s.head j) (slotWrite (cursorAdd s.cfg s.head m) e s) = items[j]? := by
  intro j hj
  rw [slotRead_slotWrite]
  obtain rfl | hlt : j = m ∨ j < m := by omega
  · rw [if_pos rfl, he]
  · rw [if_neg fun heq => hlt.ne (cursorAdd_inj (by omega) hm heq), hslots j hlt]

theorem execPushb_keeps_latches (ht : s.turn = .P) (hr : s.portP.req = .pushb cnt items)
    (hl : producerLatches s) (h : execPushb cnt items s = .next t) (hb : t.here.busy = true) : producerLatches t := by
  have hhere := State.here_eq_portP s ht
  obtain ⟨hC, -⟩ | ⟨-, -, rfl⟩ | ⟨-, -, -, rfl⟩ | ⟨-, hp, hn, rfl⟩ | ⟨-, hp, e, he, rfl⟩ | ⟨-, -, rfl⟩ :=
    execPushb_next h
  · simp [ht] at hC
  · rw [hhere, goto_setHere_P _ _ ht]
    exact Iff.mpr (producerLatches_pb2 hr rfl) rfl
  · simp at hb
  · have hh := (producerLatches_pb2 hr hp).1 hl
    rw [hhere, goto_setHere_P _ _ ht]
    exact Iff.mpr (producerLatches_pb3 hr rfl)
      ⟨hh, (congrArg (roomOf s.cfg · s.tail) hh).le, rfl, Nat.pos_of_ne_zero hn, nofun⟩
  · obtain ⟨hh, hseen, hn, hi, hslots⟩ := (producerLatches_pb3 hr hp).1 hl
    have hcap : s.portP.i < s.cfg.capacity := by have := roomOf_lt s.cfg s.portP.h s.portP.t; omega
    have hpos : 0 < s.portP.n := by omega
    have hnext := slotRead_slotWrite_next hcap hslots he
    rw [hhere, hh, goto_setHere_P _ _ (by exact ht)]
    split
    · rename_i hmore
      exact Iff.mpr (producerLatches_pb3 hr rfl) ⟨hh, hseen, hn, hmore, hnext⟩
    · rename_i hlast
      have hend : s.portP.n = s.portP.i + 1 := by omega
      exact Iff.mpr (producerLatches_pb4 hr rfl) ⟨hh, hseen, hn, hpos, fun j hj => hnext j (hend ▸ hj)⟩
  · simp at hb

theorem execPush_answers (ht : s.turn = .P) (hr : s.portP.req = .push item) (hl : producerLatches s) :
    ∃ t, execPush item s = .next t := by
  obtain hp | hp | hp | hp := hl.push_ph hr <;> simp only [execPush, ht, hp]
  · exact ⟨_, rfl⟩
  · split <;> exact ⟨_, rfl⟩
  · exact ⟨_, rfl⟩
  · exact ⟨_, rfl⟩

/-- PB3 finds its element, because the loop index stays below the count of the packet. -/
theorem execPushb_answers (ht : s.turn = .P) (hr : s.portP.req = .pushb cnt items) (hlen : items.length = cnt)
    (hl : producerLatches s) : ∃ t, execPushb cnt items s = .next t := by
  have hhere := State.here_eq_portP s ht
  obtain hp | hp | hp | hp := hl.pushb_ph hr
  · simp only [execPushb, ht, hp]; exact ⟨_, rfl⟩
  · simp only [execPushb, ht, hp]; split <;> exact ⟨_, rfl⟩
  · obtain ⟨-, -, hn, hi, -⟩ := (producerLatches_pb3 hr hp).1 hl
    have he : items[s.portP.i]? = some items[s.portP.i] := List.getElem?_eq_getElem (by omega)
    simp only [execPushb, ht, hp, hhere, he]; exact ⟨_, rfl⟩
  · simp only [execPushb, ht, hp]; exact ⟨_, rfl⟩

end Producer

/-! ### The pop family -/

section Consumer
variable {cnt : Nat}

theorem execPop_keeps_latches (hring : RingInv s) (ht : s.turn = .C) (hr : s.portC.req = .pop)
    (hl : consumerLatches s) (h : execPop s = .next t) (hb : t.here.busy = true) : consumerLatches t := by
  have hhere := State.here_eq_portC s ht
  obtain ⟨hP, -⟩ | ⟨-, -, rfl⟩ | ⟨-, -, -, rfl⟩ | ⟨-, hp, hne, rfl⟩ | ⟨-, hp, e, he, rfl⟩ | ⟨-, -, e, -, rfl⟩ :=
    execPop_next h
  · simp [ht] at hP
  · rw [hhere, goto_setHere_C _ _ ht]
    exact Iff.mpr (consumerLatches_po2 hr rfl) rfl
  · simp at hb
  · have htl := (consumerLatches_po2 hr hp).1 hl
    have hpos : occOf s.cfg s.head s.tail ≠ 0 := by
      rw [Ne, ← isEmptyOf_iff hring.head_lt hring.tail_lt, isEmptyOf, beq_iff_eq, ← htl]; exact hne
    rw [hhere, goto_setHere_C _ _ ht]
    exact Iff.mpr (consumerLatches_po3 hr rfl)
      ⟨htl, (congrArg (occOf s.cfg s.head) htl).le, Nat.pos_of_ne_zero (by rw [htl]; exact hpos)⟩
  · obtain ⟨htl, hseen, hpos⟩ := (consumerLatches_po3 hr hp).1 hl
    have hread : queueSlot s 0 = some e := by rw [← he, htl]; rfl
    rw [hhere, goto_setHere_C _ _ ht]
    exact Iff.mpr (consumerLatches_po4 hr rfl) ⟨htl, hseen, hpos, rfl, hread⟩
  · simp at hb

/-- One more element of a batch is read: the elements read are the front of the queue. -/
theorem queueSlot_append_next {m : Nat} {e : Elem} {out : List Elem} (hlen : out.length = m)
    (hslots : ∀ j, j < m → queueSlot s j = out[j]?) (he : queueSlot s m = some e) :
    ∀ j, j < m + 1 → queueSlot s j = (out ++ [e])[j]? := by
  intro j hj
  obtain rfl | hlt : j = m ∨ j < m := by omega
  · rw [he, List.getElem?_append_right hlen.le, hlen, Nat.sub_self]; rfl
  · rw [hslots j hlt, List.getElem?_append_left (by omega)]

theorem execPopb_keeps_latches (ht : s.turn = .C) (hr : s.portC.req = .popb cnt)
    (hl : consumerLatches s) (h : execPopb cnt s = .next t) (hb : t.here.busy = true) : consumerLatches t := by
  have hhere := State.here_eq_portC s ht
  obtain ⟨hP, -⟩ | ⟨-, -, rfl⟩ | ⟨-, -, -, rfl⟩ | ⟨-, hp, hn, rfl⟩ | ⟨-, hp, e, he, rfl⟩ | ⟨-, -, rfl⟩ :=
    execPopb_next h
  · simp [ht] at hP
  · rw [hhere, goto_setHere_C _ _ ht]
    exact Iff.mpr (consumerLatches_pc2 hr rfl) rfl
  · simp at hb
  · have htl := (consumerLatches_pc2 hr hp).1 hl
    rw [hhere, goto_setHere_C _ _ ht]
    exact Iff.mpr (consumerLatches_pc3 hr rfl)
      ⟨htl, (congrArg (occOf s.cfg s.head) htl).le, rfl, Nat.pos_of_ne_zero hn, rfl, nofun⟩
  · obtain ⟨htl, hseen, hn, hi, hlen, hslots⟩ := (consumerLatches_pc3 hr hp).1 hl
    have hnext := queueSlot_append_next hlen hslots (by rw [← he, htl]; rfl)
    have hpos : 0 < s.portC.n := by omega
    have hlen' : (s.portC.out ++ [e]).length = s.portC.i + 1 := by simp [hlen]
    rw [hhere, goto_setHere_C _ _ ht]
    split
    · rename_i hmore
      exact Iff.mpr (consumerLatches_pc3 hr rfl) ⟨htl, hseen, hn, hmore, hlen', hnext⟩
    · rename_i hlast
      have hend : s.portC.n = s.portC.i + 1 := by omega
      exact Iff.mpr (consumerLatches_pc4 hr rfl)
        ⟨htl, hseen, hn, hpos, hlen'.trans hend.symm, fun j hj => hnext j (hend ▸ hj)⟩
  · simp at hb

/-- PO3 finds an element, because the slot at `tail` is live. -/
theorem execPop_answers (hring : RingInv s) (ht : s.turn = .C) (hr : s.portC.req = .pop) (hl : consumerLatches s) :
    ∃ t, execPop s = .next t := by
  have hhere := State.here_eq_portC s ht
  obtain hp | hp | hp | hp := hl.pop_ph hr
  · simp only [execPop, ht, hp]; exact ⟨_, rfl⟩
  · simp only [execPop, ht, hp]; split <;> exact ⟨_, rfl⟩
  · obtain ⟨htl, hseen, hpos⟩ := (consumerLatches_po3 hr hp).1 hl
    obtain ⟨e, he⟩ := Option.isSome_iff_exists.1 (hring.live_written 0 (hpos.trans hseen))
    rw [queueSlot, ← htl] at he
    simp only [execPop, ht, hp, hhere, he]; exact ⟨_, rfl⟩
  · obtain ⟨-, -, -, hlen, -⟩ := (consumerLatches_po4 hr hp).1 hl
    obtain ⟨e, he⟩ := List.length_eq_one_iff.1 hlen
    simp only [execPop, ht, hp, hhere, he, List.head?_cons]; exact ⟨_, rfl⟩

/-- PC3 finds an element, because the slots it reads are live. -/
theorem execPopb_answers (hring : RingInv s) (ht : s.turn = .C) (hr : s.portC.req = .popb cnt)
    (hl : consumerLatches s) : ∃ t, execPopb cnt s = .next t := by
  have hhere := State.here_eq_portC s ht
  obtain hp | hp | hp | hp := hl.popb_ph hr
  · simp only [execPopb, ht, hp]; exact ⟨_, rfl⟩
  · simp only [execPopb, ht, hp]; split <;> exact ⟨_, rfl⟩
  · obtain ⟨htl, hseen, hn, hi, -⟩ := (consumerLatches_pc3 hr hp).1 hl
    obtain ⟨e, he⟩ := Option.isSome_iff_exists.1 (hring.live_written s.portC.i (lt_of_lt_of_le (by omega) hseen))
    rw [queueSlot, ← htl] at he
    simp only [execPopb, ht, hp, hhere, he]; exact ⟨_, rfl⟩
  · simp only [execPopb, ht, hp]; exact ⟨_, rfl⟩

end Consumer

/-! ### Queries and the checksum loop, on both ports -/

section Shared
variable {f : Config → Nat → Nat → Nat} {addr len : Nat} {answer : Word32 → Response}

/-- A query that goes on has loaded its own cursor (42_query R174). -/
theorem queryStep_goesOn (h : queryStep i f s = .next t) (hb : t.here.busy = true) :
    (s.turn = .P ∧ t = goto .qp2 (s.setHere { s.here with h := s.head })) ∨
    (s.turn = .C ∧ t = goto .qc2 (s.setHere { s.here with t := s.tail })) := by
  unfold queryStep at h
  split at h
  · rename_i ht _; cases h; exact .inl ⟨ht, rfl⟩
  · cases h; simp at hb
  · rename_i ht _; cases h; exact .inr ⟨ht, rfl⟩
  · cases h; simp at hb
  · cases h

/-- The latches of a query in flight on port `x` (42_query R174). -/
def queryLatches (x : Port) (s : State) : Prop :=
  match x with
  | .P => s.portP.ph = .qp1 ∨ (s.portP.ph = .qp2 ∧ s.portP.h = s.head)
  | .C => s.portC.ph = .qc1 ∨ (s.portC.ph = .qc2 ∧ s.portC.t = s.tail)

theorem queryStep_keeps_latches (h : queryStep i f s = .next t) (hb : t.here.busy = true) : queryLatches t.turn t := by
  obtain ⟨ht, rfl⟩ | ⟨ht, rfl⟩ := queryStep_goesOn h hb
  · rw [goto_setHere_P _ _ ht]
    simp [queryLatches, ht]
  · rw [goto_setHere_C _ _ ht]
    simp [queryLatches, ht]

theorem queryStep_answers (hl : queryLatches s.turn s) : ∃ t, queryStep i f s = .next t := by
  cases ht : s.turn <;> simp only [queryLatches, ht] at hl
  · obtain hp | ⟨hp, -⟩ := hl <;> simp only [queryStep, State.here, State.port, ht, hp] <;> exact ⟨_, rfl⟩
  · obtain hp | ⟨hp, -⟩ := hl <;> simp only [queryStep, State.here, State.port, ht, hp] <;> exact ⟨_, rfl⟩

theorem checksumStep_keeps_latches (hl : checksumLatches s.cfg addr len s.here)
    (h : checksumStep i addr len answer s = .next t) (hb : t.here.busy = true) :
    checksumLatches t.cfg addr len t.here := by
  unfold checksumStep at h
  split at h
  · split at h
    · rename_i hleg
      cases h
      by_cases hz : len = 0
      · simp [checksumLatches, hz, crcBytes, hz ▸ hleg]
      · simp [checksumLatches, hz, crcBytes, hleg, Nat.pos_of_ne_zero hz]
    · cases h; simp at hb
  · rename_i hph
    simp only [checksumLatches, hph] at hl
    obtain ⟨hleg, hi, hlen, hacc⟩ := hl
    split at h
    · cases h; simp at hb
    · cases h
      by_cases hmore : s.here.i + 1 < len
      · simp [checksumLatches, hmore, hleg, hlen, hacc, crcBytes_append]
      · simp [checksumLatches, hmore, hleg, hlen, hacc, crcBytes_append]; omega
  · cases h; simp at hb
  · cases h

theorem checksumStep_answers (hl : checksumLatches s.cfg addr len s.here) :
    ∃ t, checksumStep i addr len answer s = .next t := by
  unfold checksumStep
  split
  · split <;> exact ⟨_, rfl⟩
  · split <;> exact ⟨_, rfl⟩
  · exact ⟨_, rfl⟩
  · rename_i h0 h1 h2
    unfold checksumLatches at hl
    split at hl <;> simp_all

end Shared

/-! ### Every command, on the port that accepts it -/

/-- A port has in flight only what it accepts (30_encoding R97). -/
theorem latchesFit.accepts {x : Port} (hl : latchesFit x s) : (s.port x).req.op.accepts x = true := by
  cases x with
  | P => cases hr : s.portP.req <;> simp_all [latchesFit, producerLatches, Instr.op, Op.accepts]
  | C => cases hr : s.portC.req <;> simp_all [latchesFit, consumerLatches, Instr.op, Op.accepts]

theorem latchesFit_query {x : Port}
    (hr : (s.port x).req = .isempty ∨ (s.port x).req = .isfull ∨ (s.port x).req = .size) :
    latchesFit x s ↔ queryLatches x s := by
  cases x with
  | P =>
    obtain hr | hr | hr := hr <;> rw [State.port_P] at hr <;>
      simp only [latchesFit, producerLatches, hr, queryLatches] <;> split <;> simp_all
  | C =>
    obtain hr | hr | hr := hr <;> rw [State.port_C] at hr <;>
      simp only [latchesFit, consumerLatches, hr, queryLatches] <;> split <;> simp_all

theorem latchesFit_crc32 {x : Port} {addr : Nat} {len : Word32} (hr : (s.port x).req = .crc32 addr len) :
    latchesFit x s ↔ checksumLatches s.cfg addr len.toNat (s.port x) := by
  cases x <;> simp_all [latchesFit, producerLatches, consumerLatches]

theorem latchesFit_mkmsg {x : Port} {id ts : Word64} {topic flags : Word32} {addr : Nat} {len : Word32}
    (hr : (s.port x).req = .mkmsg id ts topic flags addr len) :
    latchesFit x s ↔ checksumLatches s.cfg addr len.toNat (s.port x) := by
  cases x <;> simp_all [latchesFit, producerLatches, consumerLatches]

theorem latchesFit_verify {x : Port} {msg : Msg} (hr : (s.port x).req = .verify msg) :
    latchesFit x s ↔ checksumLatches s.cfg msg.pref msg.hdr.size.toNat (s.port x) := by
  cases x <;> simp_all [latchesFit, producerLatches, consumerLatches]

theorem Op.eq_P_of_accepts {o : Op} {x : Port} (ho : o = .push ∨ o = .pushb) (h : o.accepts x = true) : x = .P := by
  obtain rfl | rfl := ho <;> cases x <;> simp_all [Op.accepts]

theorem Op.eq_C_of_accepts {o : Op} {x : Port} (ho : o = .pop ∨ o = .popb) (h : o.accepts x = true) : x = .C := by
  obtain rfl | rfl := ho <;> cases x <;> simp_all [Op.accepts]

/-- Under the invariant the command in flight performs its next micro-step: no fault, no refusal. -/
theorem exec_answers (hinv : Inv s) (hb : s.here.busy = true) : ∃ t, exec s.here.req s = .next t := by
  have hl := hinv.latchesFit hb
  have hwf := hinv.req_wf hb
  have hacc : s.here.req.op.accepts s.turn = true := hl.accepts
  cases hr : s.here.req <;> rw [hr] at hwf hacc
  case push item =>
    have ht : s.turn = .P := Op.eq_P_of_accepts (.inl rfl) hacc
    exact execPush_answers ht (by rw [← State.here_eq_portP s ht, hr]) (hinv.producerLatches hb ht)
  case pushb cnt items =>
    have ht : s.turn = .P := Op.eq_P_of_accepts (.inr rfl) hacc
    exact execPushb_answers ht (by rw [← State.here_eq_portP s ht, hr]) (Instr.pushb_wf hwf).1
      (hinv.producerLatches hb ht)
  case pop =>
    have ht : s.turn = .C := Op.eq_C_of_accepts (.inl rfl) hacc
    exact execPop_answers hinv.ring ht (by rw [← State.here_eq_portC s ht, hr]) (hinv.consumerLatches hb ht)
  case popb cnt =>
    have ht : s.turn = .C := Op.eq_C_of_accepts (.inr rfl) hacc
    exact execPopb_answers hinv.ring ht (by rw [← State.here_eq_portC s ht, hr]) (hinv.consumerLatches hb ht)
  case isempty => rw [exec, execIsempty]; exact queryStep_answers ((latchesFit_query (.inl hr)).1 hl)
  case isfull => rw [exec, execIsfull]; exact queryStep_answers ((latchesFit_query (.inr (.inl hr))).1 hl)
  case size => rw [exec, execSize]; exact queryStep_answers ((latchesFit_query (.inr (.inr hr))).1 hl)
  case crc32 => rw [exec, execCrc32]; exact checksumStep_answers ((latchesFit_crc32 hr).1 hl)
  case mkmsg => rw [exec, execMkmsg]; exact checksumStep_answers ((latchesFit_mkmsg hr).1 hl)
  case verify => rw [exec, execVerify]; exact checksumStep_answers ((latchesFit_verify hr).1 hl)
  case cap | fset | fclr | ftst => exact ⟨_, rfl⟩

/-- A micro-step that leaves its command in flight leaves latches that fit the phase it moved on to. -/
theorem exec_keeps_latches (hinv : Inv s) (hb : s.here.busy = true) (h : exec s.here.req s = .next t)
    (hbt : t.here.busy = true) : latchesFit t.turn t := by
  have hl := hinv.latchesFit hb
  have hturn := (exec_microStep h).turn_eq
  have hreq := (exec_microStep h).req_eq
  have hacc : s.here.req.op.accepts s.turn = true := hl.accepts
  cases hr : s.here.req <;> rw [hr] at h hreq hacc
  case push item =>
    have ht : s.turn = .P := Op.eq_P_of_accepts (.inl rfl) hacc
    rw [hturn, ht]
    exact execPush_keeps_latches hinv.ring ht (by rw [← State.here_eq_portP s ht, hr])
      (hinv.producerLatches hb ht) h hbt
  case pushb cnt items =>
    have ht : s.turn = .P := Op.eq_P_of_accepts (.inr rfl) hacc
    rw [hturn, ht]
    exact execPushb_keeps_latches ht (by rw [← State.here_eq_portP s ht, hr]) (hinv.producerLatches hb ht) h hbt
  case pop =>
    have ht : s.turn = .C := Op.eq_C_of_accepts (.inl rfl) hacc
    rw [hturn, ht]
    exact execPop_keeps_latches hinv.ring ht (by rw [← State.here_eq_portC s ht, hr])
      (hinv.consumerLatches hb ht) h hbt
  case popb cnt =>
    have ht : s.turn = .C := Op.eq_C_of_accepts (.inr rfl) hacc
    rw [hturn, ht]
    exact execPopb_keeps_latches ht (by rw [← State.here_eq_portC s ht, hr]) (hinv.consumerLatches hb ht) h hbt
  case isempty =>
    rw [exec, execIsempty] at h
    exact (latchesFit_query (.inl hreq)).2 (queryStep_keeps_latches h hbt)
  case isfull =>
    rw [exec, execIsfull] at h
    exact (latchesFit_query (.inr (.inl hreq))).2 (queryStep_keeps_latches h hbt)
  case size =>
    rw [exec, execSize] at h
    exact (latchesFit_query (.inr (.inr hreq))).2 (queryStep_keeps_latches h hbt)
  case crc32 =>
    rw [exec, execCrc32] at h
    exact (latchesFit_crc32 hreq).2 (checksumStep_keeps_latches ((latchesFit_crc32 hr).1 hl) h hbt)
  case mkmsg =>
    rw [exec, execMkmsg] at h
    exact (latchesFit_mkmsg hreq).2 (checksumStep_keeps_latches ((latchesFit_mkmsg hr).1 hl) h hbt)
  case verify =>
    rw [exec, execVerify] at h
    exact (latchesFit_verify hreq).2 (checksumStep_keeps_latches ((latchesFit_verify hr).1 hl) h hbt)
  case cap | fset | fclr | ftst => cases h; simp at hbt

/-- Every micro-step of a command in flight keeps the invariant. -/
theorem exec_keeps_inv (hinv : Inv s) (hb : s.here.busy = true) (h : exec s.here.req s = .next t) : Inv t := by
  have hstep := exec_microStep h
  have hmove := hstep.ringMove hinv hb
  refine inv_iff.2 ⟨hmove.ringInv hinv.ring, fun x hbx => ?_⟩
  by_cases hx : x = s.turn
  · rw [hx, ← hstep.turn_eq] at hbx ⊢
    refine ⟨?_, exec_keeps_latches hinv hb h hbx⟩
    rw [← State.here, hstep.req_eq, hstep.cfg_eq]
    exact hinv.req_wf hb
  · have hport := hstep.port_other hx
    rw [hport] at hbx
    obtain ⟨hwf, hl⟩ := (inv_iff.1 hinv).2 x hbx
    exact ⟨by rwa [hport, hstep.cfg_eq], hmove.latchesFit_other hinv.ring hx hport hl⟩

end Sys2Proof.Machine
end

section
/-! PROOFS, spec/10_state.md R22, R23, R34 to R42, spec/60_exceptions.md R245, R252. The step: what it takes up, that it
keeps the invariant and never faults under it, and what follows along every run. -/

namespace Sys2Proof

/-! ### What the decoder reads is well-formed (30_encoding R99) -/

theorem takeMsg_wf {c : Config} {m : Msg} {bs rest : List Byte} (h : takeMsg c bs = .ok (m, rest)) : m.wf c = true := by
  obtain ⟨_, _, _, h⟩ := andThen_eq_ok h
  obtain ⟨p, _, hp, h⟩ := andThen_eq_ok h
  cases h
  exact decide_eq_true (takeLane_ok hp).1

/-- Every lane that is read fits its width, and `ITEMS` has the elements `CNT` says. -/
theorem takeOperands_wf {c : Config} {o : Op} {bs rest : List Byte} {i : Instr}
    (h : takeOperands c o bs = .ok (i, rest)) : i.wf c = true := by
  cases o <;> simp only [takeOperands] at h
  case pop | isempty | isfull | size | cap => cases h; rfl
  case push | popb =>
    obtain ⟨_, _, hv, h⟩ := andThen_eq_ok h
    cases h
    exact decide_eq_true (takeLane_ok hv).1
  case pushb =>
    obtain ⟨_, _, hcnt, h⟩ := andThen_eq_ok h
    obtain ⟨_, _, hitems, h⟩ := andThen_eq_ok h
    cases h
    obtain ⟨hlen, hfit, -⟩ := takeLanes_ok hitems
    simp only [Instr.wf, Bool.and_eq_true, decide_eq_true_eq, List.all_eq_true]
    exact ⟨⟨(takeLane_ok hcnt).1, hlen⟩, hfit⟩
  case crc32 =>
    obtain ⟨_, _, haddr, h⟩ := andThen_eq_ok h
    obtain ⟨_, _, _, h⟩ := andThen_eq_ok h
    cases h
    exact decide_eq_true (takeLane_ok haddr).1
  case verify =>
    obtain ⟨_, _, hmsg, h⟩ := andThen_eq_ok h
    cases h
    exact takeMsg_wf hmsg
  case fset | fclr | ftst =>
    obtain ⟨_, _, _, h⟩ := andThen_eq_ok h
    obtain ⟨_, _, hmsg, h⟩ := andThen_eq_ok h
    cases h
    exact takeMsg_wf hmsg
  case mkmsg =>
    obtain ⟨_, _, _, h⟩ := andThen_eq_ok h
    obtain ⟨_, _, _, h⟩ := andThen_eq_ok h
    obtain ⟨_, _, _, h⟩ := andThen_eq_ok h
    obtain ⟨_, _, _, h⟩ := andThen_eq_ok h
    obtain ⟨_, _, haddr, h⟩ := andThen_eq_ok h
    obtain ⟨_, _, _, h⟩ := andThen_eq_ok h
    cases h
    exact decide_eq_true (takeLane_ok haddr).1

theorem decodePacket_wf {c : Config} {pkt : List Byte} {i : Instr} (h : decodePacket c pkt = .ok i) :
    i.wf c = true := by
  unfold decodePacket decode at h
  split at h
  · cases h
  · rename_i j hj
    cases h
    split at hj
    · cases hj
    · split at hj
      · cases hj
      · exact takeOperands_wf hj
  · cases h

end Sys2Proof

namespace Sys2Proof.Machine

variable {s t : State}

/-! ### The turn of a named port (10_state R22, R23) -/

theorem fetch_of_sched {x : Port} {sched : List Agent} (h : s.sched = .port x :: sched) :
    fetch s = fetchPort x { s with sched := sched, tick := s.tick + 1 } := by
  have hd := draw_of_sched h
  rw [fetch_of_port (x := x) (by rw [hd]), hd]

/-- Settles O13: the draw, the packet taken, the opcode accepted, the request latched. -/
theorem stepRunsTheDecodedRequest : Obligations.StepRunsTheDecodedRequest := by
  unfold Obligations.StepRunsTheDecodedRequest
  intro s x sched pkt lines i hsched hidle hpres hlegal hdec
  have hfetch : fetchPort x { s with sched := sched, tick := s.tick + 1 } =
      fetchPacket pkt (State.setPort { s with sched := sched, tick := s.tick + 1, turn := x } x
        { s.port x with lines := lines }) := by
    cases x <;> simp_all [fetchPort, State.here, State.setHere]
  rw [step, fetch_of_sched hsched, hfetch]
  cases x <;> simp [fetchPacket, hlegal, hdec, accept, State.here, State.setHere, State.setPort]

/-- Settles O14: a busy port's turn is its command's next micro-step. -/
theorem stepContinuesTheCommandInFlight : Obligations.StepContinuesTheCommandInFlight := by
  unfold Obligations.StepContinuesTheCommandInFlight
  intro s x sched hsched hbusy
  rw [step, fetch_of_sched hsched]
  cases x <;> simp_all [fetchPort, State.here]

/-! ### The invariant where no micro-step is performed -/

theorem Inv.keepsPorts (h : Inv s) (m : KeepsRing s t) (hP : t.portP = s.portP) (hC : t.portC = s.portC) : Inv t where
  ring := h.ring.keepsRing m
  reqP := by
    rw [hP, m.cfg]
    exact fun hb => ⟨(h.reqP hb).1, producerLatches_of_room_le hP m.cfg m.head m.slots m.room_eq.ge (h.reqP hb).2⟩
  reqC := by
    rw [hC, m.cfg]
    exact fun hb => ⟨(h.reqC hb).1,
      consumerLatches_of_occ_le hC m.cfg m.tail (fun j _ => by rw [m.queueSlot_eq]) m.occ_eq.ge (h.reqC hb).2⟩

theorem Inv.draw (h : Inv s) : Inv (draw s).2 :=
  h.keepsPorts ⟨by simp, by simp, by simp, by simp, by simp, by simp [accepted], by simp [delivered]⟩
    (by simp) (by simp)

theorem Inv.withTurn (h : Inv s) (x : Port) : Inv { s with turn := x } :=
  h.keepsPorts ⟨rfl, rfl, rfl, rfl, rfl, rfl, rfl⟩ rfl rfl

theorem Inv.withHost (h : Inv s) (host : List HostAct) : Inv { s with host := host } :=
  h.keepsPorts ⟨rfl, rfl, rfl, rfl, rfl, rfl, rfl⟩ rfl rfl

/-- No latch depends on what payload memory holds. -/
theorem Inv.withMem (h : Inv s) {mem : Memory} (hwf : Memory.wf mem = true)
    (hfit : ∀ c ∈ mem, c.1 < 2 ^ s.cfg.paddrBits) : Inv { s with mem := mem } :=
  ⟨{ h.ring with mem_wf := hwf, mem_fit := hfit }, h.reqP, h.reqC⟩

/-- A reset leaves the ring empty and both ports idle (70_reset R261). -/
theorem Inv.resetBlock (h : Inv s) : Inv (resetBlock s) :=
  ⟨ringInv_of_empty h.ring.cfg_wf rfl rfl rfl rfl rfl h.ring.mem_wf h.ring.mem_fit, nofun, nofun⟩

/-- The port at `turn` is replaced by one that counts the same and, if busy, has latches that fit. -/
theorem Inv.setHere (h : Inv s) {p : PortState} (m : KeepsRing s (s.setHere p))
    (hp : p.busy = true → p.req.wf s.cfg = true ∧ Machine.latchesFit s.turn (s.setHere p)) : Inv (s.setHere p) := by
  refine inv_iff.2 ⟨h.ring.keepsRing m, fun x hb => ?_⟩
  rw [m.cfg]
  by_cases hx : x = s.turn
  · subst hx
    rw [State.setHere, State.setPort_port_same] at hb ⊢
    exact hp hb
  · have hport := State.setHere_port_other s p x hx
    rw [hport] at hb ⊢
    obtain ⟨hwf, hl⟩ := (inv_iff.1 h).2 x hb
    exact ⟨hwf, (RingMove.keeps m).latchesFit_other h.ring hx hport hl⟩

/-- An idle port's stream moves on. -/
theorem Inv.withLines (h : Inv s) (hidle : s.here.busy = false) (lines : List MasterLine) :
    Inv (s.setHere { s.here with lines := lines }) :=
  h.setHere (keepsRing_of_done_eq rfl) fun hb => by simp [hidle] at hb

/-- An illegal request is answered with nothing accepted or delivered (30_encoding R98). -/
theorem Inv.respondIllegal (h : Inv s) (o : Option Instr) : Inv (respond o .illegal s) :=
  h.setHere (keepsRing_of_quiet rfl (by cases o <;> [rfl; exact (quiet_illegal _).1]) rfl) nofun

/-- The first micro-step's latches say nothing yet, so they fit (10_state R23). -/
theorem latchesFit_accept {i : Instr} (hacc : i.op.accepts s.turn = true) : latchesFit s.turn (accept i s) := by
  cases ht : s.turn <;> rw [ht] at hacc
  · rw [accept, State.setHere_P s _ ht, ht]
    cases i <;> simp_all [latchesFit, producerLatches, firstPhase, checksumLatches, Instr.op, Op.accepts]
  · rw [accept, State.setHere_C s _ ht, ht]
    cases i <;> simp_all [latchesFit, consumerLatches, firstPhase, checksumLatches, Instr.op, Op.accepts]

theorem Inv.accept (h : Inv s) {i : Instr} (hwf : i.wf s.cfg = true) (hacc : i.op.accepts s.turn = true) :
    Inv (accept i s) :=
  h.setHere (keepsRing_of_done_eq rfl) fun _ => ⟨hwf, latchesFit_accept hacc⟩

/-! ### What the step takes up -/

/-- What a fetch may come to under the invariant: a state that meets it, a micro-step of the command in flight in such a
state, or one of the two refusals for what cannot be presented. -/
def FetchedInv : Fetched → Prop
  | .moved t => Inv t
  | .run i u => Inv u ∧ u.here.busy = true ∧ u.here.req = i
  | .stop r => (∃ pkt, r = .malformedRequest pkt) ∨ (∃ a, r = .noSuchPayloadAddress a)

theorem Inv.hostAct (h : Inv s) (a : HostAct) : FetchedInv (hostAct a s) := by
  cases a with
  | write addr b =>
    rw [Machine.hostAct]
    split
    · rename_i hlt
      refine h.withMem (Memory.write_wf addr b _ h.ring.mem_wf) fun c hc => ?_
      obtain rfl | hc := Cells.mem_write hc
      · exact hlt
      · exact h.ring.mem_fit c hc
    · exact .inr ⟨addr, rfl⟩
  | withdraw addr =>
    rw [Machine.hostAct]
    split
    · exact h.withMem (Memory.erase_wf addr _ h.ring.mem_wf) fun c hc => h.ring.mem_fit c (Cells.mem_erase hc)
    · exact .inr ⟨addr, rfl⟩
  | reset => exact h.resetBlock

theorem Inv.fetchHost (h : Inv s) : FetchedInv (fetchHost s) := by
  unfold Machine.fetchHost
  split
  · exact h
  · exact (h.withHost _).hostAct _

theorem Inv.fetchPacket (h : Inv s) (pkt : List Byte) : FetchedInv (fetchPacket pkt s) := by
  obtain ⟨-, hf⟩ | ⟨hlegal, ⟨i, hdec, hf⟩ | ⟨r, -, hf⟩⟩ := fetchPacket_cases pkt s <;> rw [hf]
  · exact h.respondIllegal _
  · exact ⟨h.accept (decodePacket_wf hdec) (accepts_of_decode hlegal hdec), by simp, by simp⟩
  · exact .inl ⟨pkt, rfl⟩

theorem Inv.fetchPort (h : Inv s) (x : Port) : FetchedInv (fetchPort x s) := by
  have hturn := h.withTurn x
  obtain ⟨hb, hf⟩ | ⟨-, -, hf⟩ | ⟨hb, pkt, lines, -, hf⟩ := fetchPort_cases x s <;> rw [hf]
  · exact ⟨hturn, hb, rfl⟩
  · exact hturn
  · exact (hturn.withLines hb lines).fetchPacket pkt

theorem Inv.fetch (h : Inv s) : FetchedInv (fetch s) := by
  cases ha : (Machine.draw s).1 with
  | host => rw [fetch_of_host ha]; exact h.draw.fetchHost
  | port x => rw [fetch_of_port ha]; exact h.draw.fetchPort x

/-! ### The step and the run -/

theorem step_keeps_inv (hinv : Inv s) (h : step s = .next t) : Inv t := by
  have hf := hinv.fetch
  obtain hmoved | ⟨i, u, hrun, hexec⟩ := step_cases h
  · rwa [hmoved] at hf
  · rw [hrun] at hf
    obtain ⟨hu, hb, rfl⟩ := hf
    exact exec_keeps_inv hu hb hexec

/-- Settles O45: what the step takes up meets the invariant, and every micro-step keeps it. -/
theorem everyStepKeepsInv : Obligations.EveryStepKeepsInv := by
  unfold Obligations.EveryStepKeepsInv
  exact fun _ _ => step_keeps_inv

/-- Settles O46: under the invariant the micro-step taken up always answers, so a step can only be refused by the
fetch. -/
theorem noStepFaultsUnderInv : Obligations.NoStepFaultsUnderInv := by
  unfold Obligations.NoStepFaultsUnderInv
  intro s hinv
  have hf := hinv.fetch
  rw [step]
  cases hfetch : fetch s with
  | moved t => exact ⟨nofun, nofun⟩
  | run i u =>
    rw [hfetch] at hf
    obtain ⟨hu, hb, rfl⟩ := hf
    obtain ⟨t, ht⟩ := exec_answers hu hb
    simp [ht]
  | stop r =>
    rw [hfetch] at hf
    refine ⟨nofun, fun r' hr => ?_⟩
    cases hr
    exact hf

/-- A run takes its first step and goes on from the state that step answers. -/
theorem run_succ_eq_next {M : Host.Core} {k : Nat} {s t : M.State} (h : M.run (k + 1) s = .next t) :
    ∃ u, M.step s = .next u ∧ M.run k u = .next t := by
  rw [Host.Core.run] at h
  split at h
  · rename_i u hu; exact ⟨u, hu, h⟩
  · cases h
  · cases h

/-- The invariant along every run (70_reset R265). -/
theorem run_keeps_inv (k : Nat) {s t : State} (hinv : Inv s) (h : Sys2Proof.core.run k s = .next t) : Inv t := by
  induction k generalizing s with
  | zero => cases h; exact hinv
  | succ k ih =>
    obtain ⟨u, hu, hrest⟩ := run_succ_eq_next (M := core) h
    exact ih (step_keeps_inv hinv hu) hrest

/-- Settles O48: the invariant holds along the run, and FIFO is part of it. -/
theorem fifoAlongEveryRun : Obligations.FifoAlongEveryRun := by
  unfold Obligations.FifoAlongEveryRun
  intro c linesP linesC host sched mem k t hcfg hmem hfit hrun
  have hring := (run_keeps_inv k (inv_construct linesP linesC host sched hcfg hmem hfit) hrun).ring
  exact ⟨hring.fifo, queue t, hring.fifo.symm⟩

/-- The accepted elements are the delivered ones and the live ones, in number (10_state R40). -/
theorem RingInv.ghostH_eq (h : RingInv s) : ghostH s = ghostT s + occ s := by
  rw [ghostH, h.fifo, List.length_append, h.queue_length]; rfl

/-- Settles O49: the counters differ by the length of the queue, which is the occupancy and so below `CAPACITY`. -/
theorem countersAlongEveryRun : Obligations.CountersAlongEveryRun := by
  unfold Obligations.CountersAlongEveryRun
  intro c linesP linesC host sched mem k t hcfg hmem hfit hrun
  have hring := (run_keeps_inv k (inv_construct linesP linesC host sched hcfg hmem hfit) hrun).ring
  have hcount := hring.ghostH_eq
  have hroom := occ_add_room t
  exact ⟨by omega, by omega, hring.head_ghost, hring.tail_ghost, by omega⟩

end Sys2Proof.Machine
end

section
/-! PROOFS, spec/20_memory.md R76, R83, R84. Every micro-step seen on the abstract queue, and the whole step of a
port: what it takes up leaves the ring alone, so that all it does to the ring is its one micro-step. -/

namespace Sys2Proof.Machine

variable {i : Instr} {s t u : State}

/-! ### The linearisation points (20_memory R84) -/

/-- Publishing moves `head`: what is published fits the room, which is less than a turn. -/
theorem Publishes.head_ne {xs : List Elem} (m : Publishes s t xs) (h : RingInv s) (hxs : xs ≠ []) :
    t.head ≠ s.head := by
  have hpos := List.length_pos_iff.2 hxs
  have hlt := m.fits.trans_lt (roomOf_lt _ _ _)
  intro heq
  rw [m.head, ← cursorAdd_zero h.head_lt, cursorAdd_cursorAdd] at heq
  have := cursorAdd_inj (by omega) (by omega) heq
  omega

/-- Releasing moves `tail`: what is released is live, and so less than a turn. -/
theorem Releases.tail_ne {xs : List Elem} (m : Releases s t xs) (h : RingInv s) (hxs : xs ≠ []) :
    t.tail ≠ s.tail := by
  have hpos := List.length_pos_iff.2 hxs
  have hlt := m.live.trans_lt (occOf_lt _ _ _)
  intro heq
  rw [m.tail, ← cursorAdd_zero h.tail_lt, cursorAdd_cursorAdd] at heq
  have := cursorAdd_inj (by omega) (by omega) heq
  omega

/-- `head` moves only at PU4 and PB4. -/
theorem MicroStep.ph_of_head_ne (h : MicroStep i s t) (hne : t.head ≠ s.head) :
    s.here.ph = .pu4 ∨ s.here.ph = .pb4 := by
  obtain ⟨ht, ⟨-, hp⟩ | ⟨-, hp⟩⟩ := not_imp_comm.1 h.head_eq hne <;> rw [State.here_eq_portP s ht]
  · exact .inl hp
  · exact .inr hp

/-- `tail` moves only at PO4 and PC4. -/
theorem MicroStep.ph_of_tail_ne (h : MicroStep i s t) (hne : t.tail ≠ s.tail) :
    s.here.ph = .po4 ∨ s.here.ph = .pc4 := by
  obtain ⟨ht, ⟨-, hp⟩ | ⟨-, hp⟩⟩ := not_imp_comm.1 h.tail_eq hne <;> rw [State.here_eq_portC s ht]
  · exact .inl hp
  · exact .inr hp

/-- Settles O50: under the invariant a micro-step is one of the four moves of the ring. A slot write is not seen on the
queue; publishing or releasing something moves a cursor, which names the micro-step. -/
theorem microStepsRefineTheQueue : Obligations.MicroStepsRefineTheQueue := by
  unfold Obligations.MicroStepsRefineTheQueue
  rintro s t _ hinv hb rfl hexec
  have hstep := exec_microStep hexec
  have hring := hinv.ring
  cases hstep.ringMove hinv hb with
  | keeps m => exact .inl ⟨m.queue_eq, m.accepted, m.delivered⟩
  | writes _ m =>
    have hqueue := m.step.queue_eq.trans (hring.queue_slotWrite _ m.free)
    exact .inl ⟨hqueue, m.step.accepted, m.step.delivered⟩
  | @publishes xs ht m =>
    by_cases hxs : xs = []
    · subst hxs
      exact .inl ⟨by simpa using m.queue_eq hring, by simpa using m.accepted, m.delivered⟩
    · have hph := hstep.ph_of_head_ne (m.head_ne hring hxs)
      exact .inr (.inl ⟨ht, hph, xs, hxs, m.queue_eq hring, m.accepted, m.delivered⟩)
  | @releases xs ht m =>
    by_cases hxs : xs = []
    · subst hxs
      exact .inl ⟨by simpa using (m.queue_eq hring).symm, m.accepted, by simpa using m.delivered⟩
    · have hph := hstep.ph_of_tail_ne (m.tail_ne hring hxs)
      exact .inr (.inr ⟨ht, hph, xs, hxs, m.queue_eq hring, m.accepted, m.delivered⟩)

/-! ### What the step takes up, without the invariant -/

theorem KeepsRing.trans (h : KeepsRing s u) (h' : KeepsRing u t) : KeepsRing s t :=
  ⟨h'.cfg.trans h.cfg, h'.head.trans h.head, h'.tail.trans h.tail, h'.slots.trans h.slots, h'.mem.trans h.mem,
    h'.accepted.trans h.accepted, h'.delivered.trans h.delivered⟩

theorem keepsRing_draw (s : State) : KeepsRing s (draw s).2 :=
  ⟨by simp, by simp, by simp, by simp, by simp, by simp [accepted], by simp [delivered]⟩

theorem keepsRing_withTurn (s : State) (x : Port) : KeepsRing s { s with turn := x } :=
  ⟨rfl, rfl, rfl, rfl, rfl, rfl, rfl⟩

theorem keepsRing_respondIllegal (o : Option Instr) (s : State) : KeepsRing s (respond o .illegal s) :=
  keepsRing_of_quiet rfl (by cases o <;> [rfl; exact (quiet_illegal _).1]) rfl

/-- A port's fetch leaves the ring alone, and what it takes up is a micro-step of that port. -/
def FetchKeepsRing (x : Port) (s : State) : Fetched → Prop
  | .moved t => KeepsRing s t
  | .run _ u => KeepsRing s u ∧ u.turn = x
  | .stop _ => True

theorem fetchPacket_keepsRing (pkt : List Byte) (s : State) : FetchKeepsRing s.turn s (fetchPacket pkt s) := by
  obtain ⟨-, hf⟩ | ⟨-, ⟨i, -, hf⟩ | ⟨r, -, hf⟩⟩ := fetchPacket_cases pkt s <;> rw [hf]
  · exact keepsRing_respondIllegal _ s
  · exact ⟨keepsRing_of_done_eq rfl, accept_turn i s⟩
  · trivial

theorem FetchKeepsRing.of_keepsRing {x : Port} {f : Fetched} (h : FetchKeepsRing x u f) (m : KeepsRing s u) :
    FetchKeepsRing x s f := by
  cases f with
  | moved t => exact m.trans h
  | run i v => exact h.imp_left m.trans
  | stop r => trivial

theorem fetchPort_keepsRing (x : Port) (s : State) : FetchKeepsRing x s (fetchPort x s) := by
  have hturn := keepsRing_withTurn s x
  obtain ⟨-, hf⟩ | ⟨-, -, hf⟩ | ⟨-, pkt, lines, -, hf⟩ := fetchPort_cases x s <;> rw [hf]
  · exact ⟨hturn, rfl⟩
  · exact hturn
  · have hpacket := fetchPacket_keepsRing pkt
      (State.setHere { s with turn := x } { State.here { s with turn := x } with lines := lines })
    rw [State.setHere_turn] at hpacket
    exact hpacket.of_keepsRing (hturn.trans (keepsRing_of_done_eq rfl))

theorem hostAct_ne_run (a : HostAct) : hostAct a s ≠ .run i u := by
  cases a with
  | write | withdraw => rw [hostAct]; split <;> nofun
  | reset => nofun

theorem fetchHost_ne_run : fetchHost s ≠ .run i u := by
  rw [fetchHost]
  split
  · nofun
  · exact hostAct_ne_run _

/-- Everything a step that answers can be: the host's turn, a port's turn without a micro-step, or one micro-step of a
port, in a state with the same ring. -/
theorem step_agent_cases (h : step s = .next t) :
    ((draw s).1 = .host ∧ fetchHost (draw s).2 = .moved t) ∨
    (∃ x, (draw s).1 = .port x ∧
      (KeepsRing s t ∨ ∃ i u, fetch s = .run i u ∧ KeepsRing s u ∧ u.turn = x ∧ exec i u = .next t)) := by
  have hf := step_cases h
  cases ha : (draw s).1 with
  | host =>
    rw [fetch_of_host ha] at hf
    obtain hmoved | ⟨i, u, hrun, -⟩ := hf
    · exact .inl ⟨rfl, hmoved⟩
    · exact absurd hrun fetchHost_ne_run
  | port x =>
    have hkeeps := (fetchPort_keepsRing x (draw s).2).of_keepsRing (keepsRing_draw s)
    rw [← fetch_of_port ha] at hkeeps
    obtain hmoved | ⟨i, u, hrun, hexec⟩ := hf
    · rw [hmoved] at hkeeps
      exact .inr ⟨x, rfl, .inl hkeeps⟩
    · rw [hrun] at hkeeps
      exact .inr ⟨x, rfl, .inr ⟨i, u, hrun, hkeeps.1, hkeeps.2, hexec⟩⟩

/-- The step of a scheduled port. -/
theorem step_port_cases {x : Port} {sched : List Agent} (hs : s.sched = .port x :: sched) (h : step s = .next t) :
    KeepsRing s t ∨ ∃ i u, fetch s = .run i u ∧ KeepsRing s u ∧ u.turn = x ∧ exec i u = .next t := by
  obtain ⟨ha, -⟩ | ⟨y, ha, hcases⟩ := step_agent_cases h <;> simp only [draw_of_sched hs] at ha
  · cases ha
  · cases ha; exact hcases

/-! ### What a port's step extends (20_memory R76) -/

/-- A micro-step only adds to what its port has answered. -/
theorem MicroStep.done_prefix (h : MicroStep i s t) (x : Port) : (s.port x).done <+: (t.port x).done := by
  by_cases hx : x = s.turn
  · subst hx
    rw [← State.here, ← h.turn_eq, ← State.here]
    obtain ⟨u, p, rfl, -, -, he⟩ := h
    rw [State.setHere_here]
    cases he with
    | goesOn _ hd | writesSlot _ _ _ hd => rw [hd]
    | answers _ _ hd | publishes _ _ _ hd | releases _ _ _ hd => rw [hd]; exact List.prefix_append _ _
  · rw [h.port_other hx]

theorem MicroStep.accepted_prefix (h : MicroStep i s t) : accepted s <+: accepted t :=
  (h.done_prefix .P).flatMap acceptedBy

theorem MicroStep.delivered_prefix (h : MicroStep i s t) : delivered s <+: delivered t :=
  (h.done_prefix .C).flatMap deliveredBy

/-- Settles O56: what a port's step takes up counts the same, and a micro-step only adds answered commands. -/
theorem ghostCountersAreMonotone : Obligations.GhostCountersAreMonotone := by
  unfold Obligations.GhostCountersAreMonotone
  intro s t x sched hs h
  have hgrow : accepted s <+: accepted t ∧ delivered s <+: delivered t := by
    obtain m | ⟨i, u, -, m, -, hexec⟩ := step_port_cases hs h
    · rw [m.accepted, m.delivered]
      exact ⟨List.prefix_rfl, List.prefix_rfl⟩
    · rw [← m.accepted, ← m.delivered]
      exact ⟨(exec_microStep hexec).accepted_prefix, (exec_microStep hexec).delivered_prefix⟩
  exact ⟨hgrow.1, hgrow.2, hgrow.1.length_le, hgrow.2.length_le⟩

/-! ### What a port has seen (20_memory R76, R83) -/

/-- Room is what the occupancy leaves, so it moves the other way. -/
theorem room_le_iff (hcfg : t.cfg = s.cfg) : room t ≤ room s ↔ occ s ≤ occ t := by
  have hs := occ_add_room s
  have ht := occ_add_room t
  rw [hcfg] at ht
  omega

theorem RingMove.cfg_eq (m : RingMove s t) : t.cfg = s.cfg := by
  cases m with
  | keeps m => exact m.cfg
  | writes _ m => exact m.step.cfg
  | publishes _ m => exact m.cfg
  | releases _ m => exact m.cfg

theorem RingMove.occ_le (m : RingMove s t) (h : RingInv s) (ht : s.turn = .P) : occ s ≤ occ t := by
  cases m with
  | keeps m => exact m.occ_eq.ge
  | writes _ m => exact m.occ_eq.ge
  | publishes _ m => rw [m.occ_eq h]; exact Nat.le_add_right _ _
  | releases hC => simp [ht] at hC

theorem RingMove.occ_ge (m : RingMove s t) (h : RingInv s) (ht : s.turn = .C) : occ t ≤ occ s := by
  cases m with
  | keeps m => exact m.occ_eq.le
  | writes hP | publishes hP => simp [ht] at hP
  | releases _ m => rw [m.occ_eq h]; exact Nat.sub_le _ _

/-- Under the invariant a scheduled port's step is a move of the ring by that port. -/
theorem step_port_ringMove {x : Port} {sched : List Agent} (hinv : Inv s) (hs : s.sched = .port x :: sched)
    (h : step s = .next t) : ∃ u, KeepsRing s u ∧ RingInv u ∧ u.turn = x ∧ RingMove u t := by
  obtain m | ⟨i, u, hrun, m, hturn, hexec⟩ := step_port_cases hs h
  · have hx := keepsRing_withTurn s x
    exact ⟨{ s with turn := x }, hx, hinv.ring.keepsRing hx, rfl,
      .keeps ⟨m.cfg, m.head, m.tail, m.slots, m.mem, m.accepted, m.delivered⟩⟩
  · have hf := hinv.fetch
    rw [hrun] at hf
    obtain ⟨hu, hb, rfl⟩ := hf
    exact ⟨u, m, hu.ring, hturn, (exec_microStep hexec).ringMove hu hb⟩

/-- Settles O57: a port's step is a move of the ring by that port; port `C` only releases and port `P` only publishes, and
room moves against occupancy. -/
theorem whatAPortHasSeenStaysTrue : Obligations.WhatAPortHasSeenStaysTrue := by
  unfold Obligations.WhatAPortHasSeenStaysTrue
  intro s t sched hinv h
  refine ⟨fun hs => ?_, fun hs => ?_⟩
  · obtain ⟨u, m, hring, hturn, hmove⟩ := step_port_ringMove hinv hs h
    have hocc := hmove.occ_ge hring hturn
    rw [← m.room_eq, ← m.occ_eq]
    exact ⟨(room_le_iff hmove.cfg_eq.symm).2 hocc, hocc⟩
  · obtain ⟨u, m, hring, hturn, hmove⟩ := step_port_ringMove hinv hs h
    have hocc := hmove.occ_le hring hturn
    rw [← m.room_eq, ← m.occ_eq]
    exact ⟨hocc, (room_le_iff hmove.cfg_eq).2 hocc⟩

end Sys2Proof.Machine
end

section
/-! PROOFS, spec/20_memory.md R50, R53, R66, spec/10_state.md R28. The slot array and payload memory: every step keeps their
canonical form, and what the host writes or withdraws is what the next read finds. -/

namespace Sys2Proof.Machine

variable {i : Instr} {s t : State}

/-! ### The canonical form of the memories -/

/-- The slot array and payload memory are in canonical form. -/
def CellsCanonical (s : State) : Prop := SlotArray.wf s.slots = true ∧ Memory.wf s.mem = true

theorem KeepsRing.cellsCanonical (m : KeepsRing s t) (h : CellsCanonical s) : CellsCanonical t := by
  rwa [CellsCanonical, m.slots, m.mem]

theorem MicroStep.cellsCanonical (hstep : MicroStep i s t) (h : CellsCanonical s) : CellsCanonical t := by
  obtain ⟨u, p, rfl, -, -, he⟩ := hstep
  rw [CellsCanonical, State.setHere_slots, State.setHere_mem]
  cases he with
  | goesOn | answers | publishes | releases => exact h
  | writesSlot => exact ⟨SlotArray.write_wf _ _ _ h.1, h.2⟩

theorem fetchHost_cellsCanonical (hf : fetchHost s = .moved t) (h : CellsCanonical s) : CellsCanonical t := by
  obtain ⟨-, rfl⟩ | ⟨a, b, rest, -, -, rfl⟩ | ⟨a, rest, -, -, rfl⟩ | ⟨rest, -, rfl⟩ := fetchHost_moved hf
  · exact h
  · exact ⟨h.1, Memory.write_wf a b _ h.2⟩
  · exact ⟨h.1, Memory.erase_wf a _ h.2⟩
  · exact ⟨Cells.wf_nil, h.2⟩

/-- Settles O47: only the host's write and withdrawal, a slot write and a reset change the memories, and each of them keeps
the form. -/
theorem cellsStayCanonical : Obligations.CellsStayCanonical := by
  unfold Obligations.CellsStayCanonical
  intro s t hslots hmem h
  have hcells : CellsCanonical s := ⟨hslots, hmem⟩
  obtain ⟨-, hf⟩ | ⟨x, -, m | ⟨i, u, -, m, -, hexec⟩⟩ := step_agent_cases h
  · exact fetchHost_cellsCanonical hf ((keepsRing_draw s).cellsCanonical hcells)
  · exact m.cellsCanonical hcells
  · exact (exec_microStep hexec).cellsCanonical (m.cellsCanonical hcells)

/-! ### The host's actions (20_memory R53, R66) -/

theorem step_hostAct {sched : List Agent} {act : HostAct} {host : List HostAct}
    (hs : s.sched = .host :: sched) (hh : s.host = act :: host)
    (hact : hostAct act { s with sched := sched, tick := s.tick + 1, host := host } = .moved t) : step s = .next t := by
  have hfetch : fetch s = .moved t := by
    rw [fetch_of_host (by rw [draw_of_sched hs]), draw_of_sched hs, fetchHost]
    simpa [hh] using hact
  rw [step, hfetch]

/-- Settles O18: the host's action replaces payload memory by the list with the byte written or erased. -/
theorem hostWritesPayloadMemory : Obligations.HostWritesPayloadMemory := by
  unfold Obligations.HostWritesPayloadMemory
  intro s sched host a b hs ha
  refine ⟨fun hh => ⟨_, step_hostAct hs hh (by simp [hostAct, ha]; rfl), ?_, ?_⟩,
    fun hh => ⟨_, step_hostAct hs hh (by simp [hostAct, ha]; rfl), ?_, ?_⟩⟩
  · exact fun k => Cells.read_write a k b s.mem
  · rfl
  · exact fun k => Cells.read_erase a k s.mem
  · rfl

end Sys2Proof.Machine
end

section
/-! PROOFS, spec/20_memory.md R77. The bound of the micro-steps a command in flight still takes: each of its micro-steps
answers or lowers it. -/

namespace Sys2Proof.Machine

variable {i : Instr} {s t : State}

/-- A micro-step answers, or leaves fewer micro-steps to take. -/
def AnswersOrLowers (s t : State) : Prop := t.here.busy = false ∨ stepsLeft t.here < stepsLeft s.here

theorem answersOrLowers_respond (o : Option Instr) (r : Response) (u : State) : AnswersOrLowers s (respond o r u) :=
  .inl (by simp)

/-- A micro-step that goes on to phase `ph` with latches `q`. -/
theorem answersOrLowers_goto {ph : Phase} {u : State} {q : PortState}
    (h : stepsLeft { q with ph := ph } < stepsLeft s.here) : AnswersOrLowers s (goto ph (u.setHere q)) :=
  .inr (by simpa using h)

theorem execPush_answersOrLowers {item : Elem} (h : execPush item s = .next t) : AnswersOrLowers s t := by
  obtain ⟨-, rfl⟩ | ⟨ht, hp, rfl⟩ | ⟨-, -, -, rfl⟩ | ⟨ht, hp, -, rfl⟩ | ⟨ht, hp, rfl⟩ | ⟨-, -, rfl⟩ := execPush_next h
  · exact answersOrLowers_respond ..
  · exact answersOrLowers_goto (by simp [stepsLeft, State.here_eq_portP s ht, hp])
  · exact answersOrLowers_respond ..
  · exact answersOrLowers_goto (by simp [stepsLeft, State.here_eq_portP s ht, hp])
  · exact .inr (by simp [stepsLeft, State.here_eq_portP s ht, hp])
  · exact answersOrLowers_respond ..

theorem execPop_answersOrLowers (h : execPop s = .next t) : AnswersOrLowers s t := by
  obtain ⟨-, rfl⟩ | ⟨ht, hp, rfl⟩ | ⟨-, -, -, rfl⟩ | ⟨ht, hp, -, rfl⟩ | ⟨ht, hp, e, -, rfl⟩ | ⟨-, -, e, -, rfl⟩ :=
    execPop_next h
  · exact answersOrLowers_respond ..
  · exact answersOrLowers_goto (by simp [stepsLeft, State.here_eq_portC s ht, hp])
  · exact answersOrLowers_respond ..
  · exact answersOrLowers_goto (by simp [stepsLeft, State.here_eq_portC s ht, hp])
  · exact answersOrLowers_goto (by simp [stepsLeft, State.here_eq_portC s ht, hp])
  · exact answersOrLowers_respond ..

theorem execPushb_answersOrLowers {cnt : Nat} {items : List Elem} (hr : s.portP.req = .pushb cnt items)
    (hl : producerLatches s) (h : execPushb cnt items s = .next t) : AnswersOrLowers s t := by
  obtain ⟨-, rfl⟩ | ⟨ht, hp, rfl⟩ | ⟨-, -, -, rfl⟩ | ⟨ht, hp, -, rfl⟩ | ⟨ht, hp, e, -, rfl⟩ | ⟨-, -, rfl⟩ :=
    execPushb_next h
  · exact answersOrLowers_respond ..
  · exact answersOrLowers_goto (by simp [stepsLeft, State.here_eq_portP s ht, hp])
  · exact answersOrLowers_respond ..
  · exact answersOrLowers_goto (by simp [stepsLeft, State.here_eq_portP s ht, hp, hr, loopLength])
  · obtain ⟨-, -, -, hi, -⟩ := (producerLatches_pb3 hr hp).1 hl
    refine answersOrLowers_goto ?_
    split
    · simp only [stepsLeft, State.here_eq_portP s ht, hp]; omega
    · simp only [stepsLeft, State.here_eq_portP s ht, hp]; omega
  · exact answersOrLowers_respond ..

theorem execPopb_answersOrLowers {cnt : Nat} (hr : s.portC.req = .popb cnt) (hl : consumerLatches s)
    (h : execPopb cnt s = .next t) : AnswersOrLowers s t := by
  obtain ⟨-, rfl⟩ | ⟨ht, hp, rfl⟩ | ⟨-, -, -, rfl⟩ | ⟨ht, hp, -, rfl⟩ | ⟨ht, hp, e, -, rfl⟩ | ⟨-, -, rfl⟩ :=
    execPopb_next h
  · exact answersOrLowers_respond ..
  · exact answersOrLowers_goto (by simp [stepsLeft, State.here_eq_portC s ht, hp])
  · exact answersOrLowers_respond ..
  · exact answersOrLowers_goto (by simp [stepsLeft, State.here_eq_portC s ht, hp, hr, loopLength])
  · obtain ⟨-, -, -, hi, -⟩ := (consumerLatches_pc3 hr hp).1 hl
    refine answersOrLowers_goto ?_
    split
    · simp only [stepsLeft, State.here_eq_portC s ht, hp]; omega
    · simp only [stepsLeft, State.here_eq_portC s ht, hp]; omega
  · exact answersOrLowers_respond ..

theorem queryStep_answersOrLowers {f : Config → Nat → Nat → Nat} (h : queryStep i f s = .next t) :
    AnswersOrLowers s t := by
  unfold queryStep at h
  split at h
  · rename_i hp; cases h; exact answersOrLowers_goto (by simp [stepsLeft, hp])
  · cases h; exact answersOrLowers_respond ..
  · rename_i hp; cases h; exact answersOrLowers_goto (by simp [stepsLeft, hp])
  · cases h; exact answersOrLowers_respond ..
  · cases h

/-- The checksum loop counts up to the payload length, which is the bound's `loopLength`. -/
theorem checksumStep_answersOrLowers {addr len : Nat} {answer : Word32 → Response} (hr : s.here.req = i)
    (hlen : loopLength i = len) (hl : checksumLatches s.cfg addr len s.here)
    (h : checksumStep i addr len answer s = .next t) : AnswersOrLowers s t := by
  unfold checksumStep at h
  split at h
  · rename_i hp
    split at h <;> cases h
    · refine answersOrLowers_goto ?_
      split <;> simp [stepsLeft, hp, hr, hlen]
    · exact answersOrLowers_respond ..
  · rename_i hp
    simp only [checksumLatches, hp] at hl
    obtain ⟨-, hi, -⟩ := hl
    split at h <;> cases h
    · exact answersOrLowers_respond ..
    · refine answersOrLowers_goto ?_
      split
      · simp only [stepsLeft, hp, hr, hlen]; omega
      · simp only [stepsLeft, hp, hr, hlen]; omega
  · cases h; exact answersOrLowers_respond ..
  · cases h

/-- Under the invariant every micro-step of the command in flight answers or lowers the bound. -/
theorem exec_answersOrLowers (hinv : Inv s) (hb : s.here.busy = true) (h : exec s.here.req s = .next t) :
    AnswersOrLowers s t := by
  have hl := hinv.latchesFit hb
  have hacc : s.here.req.op.accepts s.turn = true := hl.accepts
  cases hr : s.here.req <;> rw [hr] at h hacc
  case push item => exact execPush_answersOrLowers h
  case pushb cnt items =>
    have ht : s.turn = .P := Op.eq_P_of_accepts (.inr rfl) hacc
    exact execPushb_answersOrLowers (by rw [← State.here_eq_portP s ht, hr]) (hinv.producerLatches hb ht) h
  case pop => exact execPop_answersOrLowers h
  case popb cnt =>
    have ht : s.turn = .C := Op.eq_C_of_accepts (.inr rfl) hacc
    exact execPopb_answersOrLowers (by rw [← State.here_eq_portC s ht, hr]) (hinv.consumerLatches hb ht) h
  case isempty => rw [exec, execIsempty] at h; exact queryStep_answersOrLowers h
  case isfull => rw [exec, execIsfull] at h; exact queryStep_answersOrLowers h
  case size => rw [exec, execSize] at h; exact queryStep_answersOrLowers h
  case crc32 =>
    rw [exec, execCrc32] at h
    exact checksumStep_answersOrLowers hr rfl ((latchesFit_crc32 hr).1 hl) h
  case mkmsg =>
    rw [exec, execMkmsg] at h
    exact checksumStep_answersOrLowers hr rfl ((latchesFit_mkmsg hr).1 hl) h
  case verify =>
    rw [exec, execVerify] at h
    exact checksumStep_answersOrLowers hr rfl ((latchesFit_verify hr).1 hl) h
  case cap | fset | fclr | ftst => cases h; exact answersOrLowers_respond ..

/-- Settles O55: the command's own micro-step answers or lowers the bound, and the other port's latches, on which its bound
rests, stay as they are. -/
theorem commandsAreWaitFree : Obligations.CommandsAreWaitFree := by
  unfold Obligations.CommandsAreWaitFree
  exact fun s t hinv hb h => ⟨exec_answersOrLowers hinv hb h,
    fun x hx => by rw [(exec_microStep h).port_other hx]⟩

end Sys2Proof.Machine
end

section
/-! PROOFS, spec/20_memory.md R52, spec/43_checksum.md R194, spec/60_exceptions.md R231. The checksum loop, alone, over a
range it cannot read: it answers `ST_PAYLOAD` at the range check or at the first unreadable byte. -/

namespace Sys2Proof.Machine

variable {i : Instr} {s : State} {addr len n : Nat} {answer : Word32 → Response}

/-! ### The micro-steps of the loop (43_checksum R194) -/

theorem checksumStep_ck0_of_illegal (hp : s.here.ph = .ck0) (hleg : rangeLegal s.cfg addr len = false) :
    checksumStep i addr len answer s = .next (respond (some i) .payloadFault s) := by
  simp [checksumStep, hp, hleg]

theorem checksumStep_ck0_of_legal (hp : s.here.ph = .ck0) (hleg : rangeLegal s.cfg addr len = true) :
    checksumStep i addr len answer s = .next (s.setHere { s.here with
      acc := crcOnes, i := 0, bytes := [], ph := if len = 0 then .ck2 else .ck1 }) := by
  simp [checksumStep, hp, hleg, goto]

theorem checksumStep_ck1_of_unreadable (hp : s.here.ph = .ck1) (hb : memRead (addr + s.here.i) s = none) :
    checksumStep i addr len answer s = .next (respond (some i) .payloadFault s) := by
  simp [checksumStep, hp, hb]

theorem checksumStep_ck1_of_readable {b : Byte} (hp : s.here.ph = .ck1)
    (hb : memRead (addr + s.here.i) s = some b) :
    checksumStep i addr len answer s = .next (s.setHere { s.here with
      acc := crcByte s.here.acc b, i := s.here.i + 1, bytes := s.here.bytes ++ [b],
      ph := if s.here.i + 1 < len then .ck1 else .ck2 }) := by
  simp [checksumStep, hp, hb, goto]

@[simp] theorem memRead_setHere (a : Nat) (s : State) (p : PortState) : memRead a (s.setHere p) = memRead a s := by
  simp [memRead]

/-! ### The loop that meets a fault -/

/-- The run of command `i` from `s` ends with `ST_PAYLOAD`, and nothing but its own port has changed. -/
def EndsWithPayloadFault (n : Nat) (i : Instr) (s : State) : Prop :=
  ∃ p : PortState, runCommand n i s = .next (s.setHere p) ∧ p.busy = false ∧
    p.done = s.here.done ++ [{ req := some i, resp := .payloadFault }]

theorem endsWithPayloadFault_of_respond (h : exec i s = .next (respond (some i) .payloadFault s)) :
    EndsWithPayloadFault (n + 1) i s :=
  ⟨_, runCommand_succ_of_idle h (by simp), rfl, rfl⟩

/-- A micro-step that goes on, and the rest of the run. -/
theorem EndsWithPayloadFault.of_step {q : PortState} (h : exec i s = .next (s.setHere q)) (hb : q.busy = true)
    (hd : q.done = s.here.done) (hrest : EndsWithPayloadFault n i (s.setHere q)) :
    EndsWithPayloadFault (n + 1) i s := by
  obtain ⟨p, hrun, hidle, hdone⟩ := hrest
  refine ⟨p, ?_, hidle, by rw [hdone, State.setHere_here, hd]⟩
  rw [runCommand_succ_of_busy h (by simpa using hb), hrun, State.setHere_setHere]

/-- From CK1 the loop runs up to the first unreadable byte, which it reaches before it has counted `n` bytes more. -/
theorem endsWithPayloadFault_ck1 (hexec : ∀ s, exec i s = checksumStep i addr len answer s) {k : Nat} (hk : k < len)
    (hp : s.here.ph = .ck1) (hb : s.here.busy = true) (hik : s.here.i ≤ k) (hkn : k < s.here.i + n)
    (hnone : memRead (addr + k) s = none) : EndsWithPayloadFault n i s := by
  induction n generalizing s with
  | zero => omega
  | succ n ih =>
    cases hread : memRead (addr + s.here.i) s with
    | none => exact endsWithPayloadFault_of_respond ((hexec s).trans (checksumStep_ck1_of_unreadable hp hread))
    | some b =>
      have hne : s.here.i ≠ k := fun h => by simp [h, hnone] at hread
      refine .of_step ((hexec s).trans (checksumStep_ck1_of_readable hp hread)) hb rfl (ih ?_ ?_ ?_ ?_ ?_)
      · simp only [State.setHere_here]; exact if_pos (by omega)
      · simpa only [State.setHere_here] using hb
      · simp only [State.setHere_here]; omega
      · simp only [State.setHere_here]; omega
      · simpa only [memRead_setHere] using hnone

/-- A list read to no result has an entry that reads to none. -/
theorem exists_eq_none_of_mapM_eq_none {α β : Type} {f : α → Option β} {xs : List α} (h : xs.mapM f = none) :
    ∃ x ∈ xs, f x = none := by
  induction xs with
  | nil => simp at h
  | cons x xs ih =>
    cases hx : f x with
    | none => exact ⟨x, by simp, hx⟩
    | some y =>
      have hxs : xs.mapM f = none := by
        cases hxs : xs.mapM f with
        | none => rfl
        | some ys => simp [List.mapM_cons, hx, hxs] at h
      obtain ⟨z, hz, hnone⟩ := ih hxs
      exact ⟨z, List.mem_cons_of_mem _ hz, hnone⟩

theorem exists_unreadable (h : payloadBytes addr len s = none) : ∃ k < len, memRead (addr + k) s = none := by
  obtain ⟨k, hk, hnone⟩ := exists_eq_none_of_mapM_eq_none h
  exact ⟨k, List.mem_range.1 hk, hnone⟩

/-- From CK0: an illegal range answers at once, and a legal one that is not readable ends in the loop. -/
theorem endsWithPayloadFault_ck0 (hexec : ∀ s, exec i s = checksumStep i addr len answer s)
    (hp : s.here.ph = .ck0) (hb : s.here.busy = true)
    (hbad : 2 ^ s.cfg.paddrBits < addr + len ∨ payloadBytes addr len s = none) :
    EndsWithPayloadFault (len + 2) i s := by
  cases hleg : rangeLegal s.cfg addr len with
  | false => exact endsWithPayloadFault_of_respond ((hexec s).trans (checksumStep_ck0_of_illegal hp hleg))
  | true =>
    have hle : addr + len ≤ 2 ^ s.cfg.paddrBits := by simpa [rangeLegal] using hleg
    obtain ⟨k, hk, hnone⟩ := exists_unreadable (hbad.resolve_left (by omega))
    refine .of_step ((hexec s).trans (checksumStep_ck0_of_legal hp hleg)) hb rfl
      (endsWithPayloadFault_ck1 hexec hk ?_ ?_ ?_ ?_ ?_)
    · simp only [State.setHere_here]; exact if_neg (by omega)
    · simpa only [State.setHere_here] using hb
    · simp only [State.setHere_here]; omega
    · simp only [State.setHere_here]; omega
    · simpa only [memRead_setHere] using hnone

/-! ### The three commands with a payload -/

/-- Command `i` computes a checksum over `len` bytes from `addr` (43_checksum R194). -/
def ReadsPayload (i : Instr) (addr : Nat) (len : Word32) : Prop :=
  i = .crc32 addr len ∨ (∃ id ts topic flags, i = .mkmsg id ts topic flags addr len) ∨
    (∃ m : Msg, i = .verify m ∧ addr = m.pref ∧ len = m.hdr.size)

theorem ReadsPayload.firstPhase {addr : Nat} {len : Word32} (h : ReadsPayload i addr len) (x : Port) :
    firstPhase x i = .ck0 := by
  obtain rfl | ⟨id, ts, topic, flags, rfl⟩ | ⟨m, rfl, rfl, rfl⟩ := h <;> rfl

/-- The three commands run the same loop and differ in the answer. -/
theorem ReadsPayload.exec_eq {addr : Nat} {len : Word32} (h : ReadsPayload i addr len) :
    ∃ answer : Word32 → Response, ∀ s, exec i s = checksumStep i addr len.toNat answer s := by
  obtain rfl | ⟨id, ts, topic, flags, rfl⟩ | ⟨m, rfl, rfl, rfl⟩ := h
  · exact ⟨_, fun s => by rw [exec, execCrc32]⟩
  · exact ⟨_, fun s => by rw [exec, execMkmsg]⟩
  · exact ⟨_, fun s => by rw [exec, execVerify]⟩

/-- A command that has just begun on port `x` has changed that port's latches only. -/
theorem begun_setHere (x : Port) (i : Instr) (s : State) (p : PortState) :
    (begun x i s).setHere p = State.setPort { s with turn := x } x p := by
  rw [begun, accept, State.setHere_setHere]; rfl

theorem begun_here (x : Port) (i : Instr) (s : State) :
    (begun x i s).here = { s.port x with busy := true, req := i, ph := firstPhase x i } := by
  rw [begun, accept_here]; cases x <;> rfl

/-- Settles O37: the loop alone ends with `ST_PAYLOAD`, and what it leaves is the state with its port replaced. -/
theorem unreadablePayloadIsReported : Obligations.UnreadablePayloadIsReported := by
  unfold Obligations.UnreadablePayloadIsReported
  intro s x i addr len hi hbad
  have hload : ReadsPayload i addr len := hi
  obtain ⟨answer, hexec⟩ := hload.exec_eq
  have hhere := begun_here x i s
  have hbad' : 2 ^ (begun x i s).cfg.paddrBits < addr + len.toNat ∨
      payloadBytes addr len.toNat (begun x i s) = none := by
    simpa [begun, payloadBytes, memRead] using hbad
  obtain ⟨p, hrun, hidle, hdone⟩ :=
    endsWithPayloadFault_ck0 hexec (by rw [hhere, hload.firstPhase]) (by rw [hhere]) hbad'
  rw [begun_setHere] at hrun
  refine ⟨_, hrun, by simpa using hidle, ?_, by simp, by simp, by simp, by simp⟩
  rw [State.setPort_port_same, hdone, hhere]
  rfl

end Sys2Proof.Machine
end

section
/-! PROOFS, spec/30_encoding.md R91 to R106, R112. The canonical byte form: a request is read back from its bytes and only
from them, its length follows from its first lanes, and a header and a Message determine and are determined by their bits. -/

namespace Sys2Proof

/-! ### Lanes as bytes (30_encoding R93) -/

@[simp] theorem laneBytes_32 : laneBytes 32 = 4 := rfl
@[simp] theorem laneBytes_64 : laneBytes 64 = 8 := rfl
@[simp] theorem laneBytes_512 : laneBytes 512 = 64 := rfl

theorem leValue_putLane {bits v : Nat} (h : v < 2 ^ bits) : leValue (putLane bits v) = v := by
  rw [putLane, leValue_leBytes, Nat.mod_eq_of_lt (h.trans_le (two_pow_le_laneBytes bits))]

@[simp] theorem flatMap_putLane_length (bits : Nat) (vs : List Nat) :
    (vs.flatMap (putLane bits)).length = vs.length * laneBytes bits := by
  simp [List.length_flatMap]

/-- The bytes of a number in two parts: those of the low part first. -/
theorem leBytes_add (m n lo hi : Nat) (hlo : lo < 256 ^ m) :
    leBytes (m + n) (lo + 256 ^ m * hi) = leBytes m lo ++ leBytes n hi := by
  induction m generalizing lo with
  | zero =>
    have : lo = 0 := by simpa using hlo
    simp [this, leBytes]
  | succ m ih =>
    have hdiv : (lo + 256 ^ (m + 1) * hi) / 256 = lo / 256 + 256 ^ m * hi := by
      rw [Nat.pow_succ', Nat.mul_assoc, Nat.add_mul_div_left _ _ (by decide)]
    have hbyte : BitVec.ofNat 8 (lo + 256 ^ (m + 1) * hi) = BitVec.ofNat 8 lo := by
      apply BitVec.eq_of_toNat_eq
      simp [Nat.pow_succ', Nat.mul_assoc]
    have hlt : lo / 256 < 256 ^ m := Nat.div_lt_of_lt_mul (by rwa [← Nat.pow_succ'])
    rw [Nat.add_right_comm, leBytes, leBytes, hdiv, hbyte, ih _ hlt, List.cons_append]

/-- The bytes of two bit vectors put together, the low one of whole bytes: those of the low one first. -/
theorem leBytes_append {w w' m : Nat} (n : Nat) (hw : 2 ^ w = 256 ^ m) (hi : BitVec w') (lo : BitVec w) :
    leBytes (m + n) (hi ++ lo).toNat = leBytes m lo.toNat ++ leBytes n hi.toNat := by
  have hsum : (hi ++ lo).toNat = lo.toNat + 256 ^ m * hi.toNat := by
    rw [BitVec.toNat_append, ← Nat.shiftLeft_add_eq_or_of_lt lo.isLt, Nat.shiftLeft_eq, hw]
    ring
  rw [hsum, leBytes_add m n _ _ (hw ▸ lo.isLt)]

/-! ### The header (30_encoding R105, R106) -/

theorem putLane_header (h : Header) : putLane 512 h.toBits.toNat =
    leBytes 8 h.id.toNat ++ leBytes 8 h.timestamp.toNat ++ leBytes 4 h.topicId.toNat ++ leBytes 4 h.size.toNat ++
      leBytes 4 h.crc32.toNat ++ leBytes 4 h.flags.toNat ++ leBytes 32 h.reserved.toNat := by
  have h64 : 2 ^ 64 = 256 ^ 8 := by norm_num
  have h32 : 2 ^ 32 = 256 ^ 4 := by norm_num
  calc putLane 512 h.toBits.toNat
      = leBytes (8 + (8 + (4 + (4 + (4 + (4 + 32)))))) h.toBits.toNat := rfl
    _ = _ := by
      rw [Header.toBits, leBytes_append _ h64, leBytes_append _ h64, leBytes_append _ h32, leBytes_append _ h32,
        leBytes_append _ h32, leBytes_append _ h32]
      simp only [List.append_assoc]

@[simp] theorem Header.ofBits_toBits (h : Header) : Header.ofBits h.toBits = h := by
  simp only [Header.ofBits, Header.toBits, BitVec.extractLsb'_append_eq_ite]
  simp

/-- Neighbouring fields put together are one longer field, and all seven are the whole header. -/
@[simp] theorem Header.toBits_ofBits (v : BitVec 512) : (Header.ofBits v).toBits = v := by
  have join (s l k : Nat) : v.extractLsb' (s + l) k ++ v.extractLsb' s l = v.extractLsb' s (k + l) :=
    BitVec.extractLsb'_append_extractLsb'_eq_extractLsb' rfl
  rw [Header.ofBits, Header.toBits, join 224 32 256, join 192 32 288, join 160 32 320, join 128 32 352, join 64 64 384,
    join 0 64 448]
  exact BitVec.extractLsb'_eq_self

/-- Settles O6: the header is its fields put together, the first lowest, so its bytes are theirs, field after field. -/
theorem headerBytesFollowTheLayout : Obligations.HeaderBytesFollowTheLayout := by
  unfold Obligations.HeaderBytesFollowTheLayout
  exact ⟨putLane_header, Header.ofBits_toBits, Header.toBits_ofBits⟩

/-! ### The Message as an element (30_encoding R112) -/

/-- A bit vector with more bits put above it is read back from its own low bits. -/
theorem ofNat_toNat_add_two_pow_mul {w : Nat} (lo : BitVec w) (hi : Nat) :
    BitVec.ofNat w (lo.toNat + 2 ^ w * hi) = lo := by
  apply BitVec.eq_of_toNat_eq
  rw [BitVec.toNat_ofNat, Nat.add_mul_mod_self_left, Nat.mod_eq_of_lt lo.isLt]

/-- The low 512 bits of a Message's element are the header. -/
theorem Msg.ofNat_toElem (m : Msg) : BitVec.ofNat 512 m.toElem = m.hdr.toBits := by
  rw [Msg.toElem, ofNat_toNat_add_two_pow_mul]

/-- The reference stands above the header. -/
theorem Msg.toElem_div (m : Msg) : m.toElem / 2 ^ 512 = m.pref := by
  rw [Msg.toElem, Nat.add_mul_div_left _ _ (Nat.two_pow_pos 512), Nat.div_eq_of_lt m.hdr.toBits.isLt, Nat.zero_add]

theorem Msg.ofElem_toElem (m : Msg) : Msg.ofElem m.toElem = m := by
  rw [Msg.ofElem, Msg.ofNat_toElem, Msg.toElem_div, Header.ofBits_toBits]

theorem Msg.toElem_ofElem (e : Elem) : (Msg.ofElem e).toElem = e := by
  rw [Msg.toElem, Msg.ofElem, Header.toBits_ofBits, BitVec.toNat_ofNat, Nat.mod_add_div]

/-- What a number has above its low `w` bits fits `n` bits, so the number fits `w + n`. -/
theorem lt_two_pow_add_of_div_lt {w n e : Nat} (h : e / 2 ^ w < 2 ^ n) : e < 2 ^ (w + n) := by
  rw [Nat.div_lt_iff_lt_mul (Nat.two_pow_pos w)] at h
  rwa [Nat.add_comm, Nat.pow_add]

theorem Msg.toElem_lt {c : Config} {m : Msg} (h : m.wf c = true) : m.toElem < 2 ^ (512 + c.paddrBits) := by
  apply lt_two_pow_add_of_div_lt
  rw [Msg.toElem_div]
  exact of_decide_eq_true h

/-- Settles O7: header and reference are the remainder and the quotient of the element by `2 ^ 512`. -/
theorem messageIsAnElement : Obligations.MessageIsAnElement := by
  unfold Obligations.MessageIsAnElement
  exact ⟨fun m => ⟨m.ofNat_toElem, m.toElem_div⟩, Msg.ofElem_toElem, Msg.toElem_ofElem, fun _ _ => Msg.toElem_lt⟩

/-! ### The opcode map (30_encoding R96, R98) -/

theorem Op.code_injective {o p : Op} (h : o.code = p.code) : o = p := by
  simpa using congrArg Op.ofCode h

theorem Op.ofCode_eq_none {b : Byte} (h : ∀ o : Op, o.code ≠ b) : Op.ofCode b = none := by
  cases ho : Op.ofCode b with
  | none => rfl
  | some o => exact absurd (Op.code_of_ofCode ho) (h o)

theorem decode_of_reserved (c : Config) {opc : Byte} (bs : List Byte) (h : Op.ofCode opc = none) :
    decode c (opc :: bs) = .error (.reservedOpcode opc) := by
  simp [decode, h]

@[simp] theorem decode_code (c : Config) (o : Op) (bs : List Byte) : decode c (o.code :: bs) = takeOperands c o bs := by
  simp [decode]

/-- What the decoder accepts begins with the code of a row, and the operand lanes of that row follow. -/
theorem decode_eq_ok {c : Config} {bs rest : List Byte} {i : Instr} (h : decode c bs = .ok (i, rest)) :
    ∃ lanes, bs = i.op.code :: lanes ∧ takeOperands c i.op lanes = .ok (i, rest) := by
  cases bs with
  | nil => cases h
  | cons opc lanes =>
    cases ho : Op.ofCode opc with
    | none => rw [decode_of_reserved c lanes ho] at h; cases h
    | some o =>
      obtain rfl := Op.code_of_ofCode ho
      rw [decode_code] at h
      obtain rfl := takeOperands_op h
      exact ⟨lanes, rfl, h⟩

/-- Settles O4: no row is found for another value, and each row is found by its own code. -/
theorem opcodesOutsideTheTableAreReserved : Obligations.OpcodesOutsideTheTableAreReserved := by
  unfold Obligations.OpcodesOutsideTheTableAreReserved
  exact ⟨fun c _ bs h => decode_of_reserved c bs (Op.ofCode_eq_none h), fun _ _ => Op.code_injective⟩

/-! ### Operand lanes there and back (30_encoding R94, R99, R101) -/

theorem takeMsg_putMsg {c : Config} {m : Msg} (rest : List Byte) (h : m.wf c = true) :
    takeMsg c (putMsg c m ++ rest) = .ok (m, rest) := by
  rw [takeMsg, putMsg, List.append_assoc, takeWord_putLane, andThen_ok,
    takeLane_putLane _ _ _ (of_decide_eq_true h), andThen_ok, Header.ofBits_toBits]

theorem takeMsg_ok {c : Config} {m : Msg} {bs rest : List Byte} (h : takeMsg c bs = .ok (m, rest)) :
    bs = putMsg c m ++ rest := by
  obtain ⟨_, _, hhdr, h⟩ := andThen_eq_ok h
  obtain ⟨_, _, hpref, h⟩ := andThen_eq_ok h
  cases h
  rw [takeWord_ok hhdr, (takeLane_ok hpref).2, putMsg, Header.toBits_ofBits, List.append_assoc]

/-- The operand lanes of a request, as they follow its opcode. -/
def operandBytes (c : Config) (i : Instr) : List Byte := (encode c i).tail

theorem encode_eq_cons (c : Config) (i : Instr) : encode c i = i.op.code :: operandBytes c i := by
  cases i <;> rfl

/-- The operand lanes of a well-formed request are read back, and what follows them is left. -/
theorem takeOperands_operandBytes {c : Config} {i : Instr} (rest : List Byte) (h : i.wf c = true) :
    takeOperands c i.op (operandBytes c i ++ rest) = .ok (i, rest) := by
  cases i <;> simp only [takeOperands, operandBytes, encode, Instr.op, List.tail_cons, List.append_assoc]
  case pop | isempty | isfull | size | cap => rfl
  case push | popb => rw [takeLane_putLane _ _ _ (of_decide_eq_true h), andThen_ok]
  case pushb cnt items =>
    simp only [Instr.wf, Bool.and_eq_true, decide_eq_true_eq, List.all_eq_true] at h
    obtain ⟨⟨hcnt, rfl⟩, hitems⟩ := h
    rw [takeLane_putLane _ _ _ hcnt, andThen_ok, takeLanes_put _ _ _ hitems, andThen_ok]
  case crc32 => rw [takeLane_putLane _ _ _ (of_decide_eq_true h), andThen_ok, takeWord_putLane, andThen_ok]
  case mkmsg =>
    simp only [takeWord_putLane, andThen_ok]
    rw [takeLane_putLane _ _ _ (of_decide_eq_true h), andThen_ok, takeWord_putLane, andThen_ok]
  case verify => rw [takeMsg_putMsg _ h, andThen_ok]
  case fset | fclr | ftst => rw [takeWord_putLane, andThen_ok, takeMsg_putMsg _ h, andThen_ok]

/-- Operand lanes that are read are the canonical form of what is read. -/
theorem takeOperands_ok {c : Config} {o : Op} {bs rest : List Byte} {i : Instr}
    (h : takeOperands c o bs = .ok (i, rest)) : bs = operandBytes c i ++ rest := by
  cases o <;> simp only [takeOperands] at h
  case pop | isempty | isfull | size | cap => cases h; rfl
  case push | popb =>
    obtain ⟨_, _, hv, h⟩ := andThen_eq_ok h
    cases h
    exact (takeLane_ok hv).2
  case pushb =>
    obtain ⟨_, _, hcnt, h⟩ := andThen_eq_ok h
    obtain ⟨_, _, hitems, h⟩ := andThen_eq_ok h
    cases h
    obtain ⟨-, rfl⟩ := takeLane_ok hcnt
    obtain ⟨-, -, rfl⟩ := takeLanes_ok hitems
    simp [operandBytes, encode]
  case crc32 =>
    obtain ⟨_, _, haddr, h⟩ := andThen_eq_ok h
    obtain ⟨_, _, hlen, h⟩ := andThen_eq_ok h
    cases h
    obtain ⟨-, rfl⟩ := takeLane_ok haddr
    simp [operandBytes, encode, takeWord_ok hlen]
  case verify =>
    obtain ⟨_, _, hmsg, h⟩ := andThen_eq_ok h
    cases h
    exact takeMsg_ok hmsg
  case fset | fclr | ftst =>
    obtain ⟨_, _, hmask, h⟩ := andThen_eq_ok h
    obtain ⟨_, _, hmsg, h⟩ := andThen_eq_ok h
    cases h
    simp [operandBytes, encode, takeWord_ok hmask, takeMsg_ok hmsg]
  case mkmsg =>
    obtain ⟨_, _, hid, h⟩ := andThen_eq_ok h
    obtain ⟨_, _, hts, h⟩ := andThen_eq_ok h
    obtain ⟨_, _, htopic, h⟩ := andThen_eq_ok h
    obtain ⟨_, _, hflags, h⟩ := andThen_eq_ok h
    obtain ⟨_, _, haddr, h⟩ := andThen_eq_ok h
    obtain ⟨_, _, hlen, h⟩ := andThen_eq_ok h
    cases h
    obtain ⟨-, rfl⟩ := takeLane_ok haddr
    simp [operandBytes, encode, takeWord_ok hid, takeWord_ok hts, takeWord_ok htopic, takeWord_ok hflags,
      takeWord_ok hlen]

/-! ### Requests there and back -/

theorem decode_encode_append {c : Config} {i : Instr} (rest : List Byte) (h : i.wf c = true) :
    decode c (encode c i ++ rest) = .ok (i, rest) := by
  rw [encode_eq_cons, List.cons_append, decode_code, takeOperands_operandBytes rest h]

/-- Settles O1: the opcode selects the row, and each lane of the row is read back as it was put. -/
theorem decodeEncodeRoundTrip : Obligations.DecodeEncodeRoundTrip := by
  unfold Obligations.DecodeEncodeRoundTrip
  exact fun _ _ rest h => decode_encode_append rest h

/-- Settles O2: the first byte is the row's code; each lane that is read fits its width and is its canonical form. -/
theorem decodedRequestIsCanonical : Obligations.DecodedRequestIsCanonical := by
  unfold Obligations.DecodedRequestIsCanonical
  intro c i bs rest h
  obtain ⟨lanes, rfl, hlanes⟩ := decode_eq_ok h
  exact ⟨takeOperands_wf hlanes, by rw [encode_eq_cons, takeOperands_ok hlanes, List.cons_append]⟩

theorem decodePacket_encode {c : Config} {i : Instr} (h : i.wf c = true) : decodePacket c (encode c i) = .ok i := by
  have hdec := decode_encode_append [] h
  rw [List.append_nil] at hdec
  simp [decodePacket, hdec]

/-- Settles O5: each word is the canonical form of a well-formed request. -/
theorem specWordsDecode : Obligations.SpecWordsDecode := by
  unfold Obligations.SpecWordsDecode
  exact ⟨decodePacket_encode (i := .push 7) (by decide), decodePacket_encode (i := .pushb 2 [7, 8]) (by decide),
    decodePacket_encode (i := .pop) (by decide), decodePacket_encode (i := .popb 8) (by decide),
    decodePacket_encode (i := .size) (by decide), decodePacket_encode (i := .crc32 0x1000 14) (by decide),
    decodePacket_encode (i := .mkmsg 42 1700000000000000000 7 5 0x1000 14) (by decide)⟩

/-! ### The length of a request (30_encoding R101) -/

@[simp] theorem putMsg_length (c : Config) (m : Msg) : (putMsg c m).length = 64 + laneBytes c.paddrBits := by
  simp [putMsg]

/-- Settles O3: each lane but `ITEMS` has a length of its own, and the `CNT` lane says how many elements `ITEMS` has. -/
theorem requestLengthFollowsFromOpcode : Obligations.RequestLengthFollowsFromOpcode := by
  unfold Obligations.RequestLengthFollowsFromOpcode
  intro c i rest h
  have hformat (o : Op) : (Op.ofCode o.code).map Op.format = some o.format := by rw [Op.ofCode_code, Option.map_some]
  cases i <;> simp only [requestLength, encode, List.cons_append, hformat, Op.format]
  case pop | isempty | isfull | size | cap => rfl
  case pushb cnt items =>
    simp only [Instr.wf, Bool.and_eq_true, decide_eq_true_eq] at h
    obtain ⟨⟨hcnt, rfl⟩, -⟩ := h
    have htake (bs : List Byte) :
        (putLane c.cntBits items.length ++ bs).take (laneBytes c.cntBits) = putLane c.cntBits items.length :=
      List.take_left' (putLane_length _ _)
    rw [List.append_assoc, htake, leValue_putLane hcnt, List.length_cons, List.length_append, putLane_length,
      flatMap_putLane_length]
    congr 1; omega
  case push | popb | crc32 | mkmsg | verify | fset | fclr | ftst =>
    simp only [List.length_cons, List.length_append, putLane_length, putMsg_length, laneBytes_32, laneBytes_64,
      Option.some.injEq]
    omega

/-! ### The named flags (30_encoding R110) -/

theorem Config.wf_flags {c : Config} (h : c.wf = true) : c.flags.wf = true := by
  simp only [Config.wf, Bool.and_eq_true] at h
  exact h.2

/-- `flagbit` maps into the 32 bits of the field. -/
theorem Config.flagbit_lt {c : Config} (h : c.wf = true) (f : FlagName) : c.flagbit f < 32 := by
  have hw := Config.wf_flags h
  simp only [FlagMap.wf, Bool.and_eq_true, decide_eq_true_eq] at hw
  obtain ⟨⟨⟨⟨h0, h1⟩, h2⟩, h3⟩, -⟩ := hw
  cases f
  exacts [h0, h1, h2, h3]

/-- The four flags that have a name (30_encoding R109). -/
def FlagName.all : List FlagName := [.compressed, .encrypted, .persistent, .priority]

theorem FlagName.mem_all (f : FlagName) : f ∈ FlagName.all := by cases f <;> simp [FlagName.all]

theorem Config.flagbit_injective {c : Config} (h : c.wf = true) : Function.Injective c.flagbit := by
  have hw := Config.wf_flags h
  simp only [FlagMap.wf, Bool.and_eq_true, decide_eq_true_eq] at hw
  have hnodup : (FlagName.all.map c.flagbit).Nodup := hw.2
  exact fun f g => List.inj_on_of_nodup_map hnodup f.mem_all g.mem_all

end Sys2Proof

namespace Sys2Proof.Machine

theorem flagMask_eq_twoPow (c : Config) (f : FlagName) : flagMask c f = BitVec.twoPow 32 (c.flagbit f) :=
  (BitVec.twoPow_eq 32 (c.flagbit f)).symm

/-- Settles O44: each mask has one bit, and no two masks the same one. -/
theorem namedFlagsAreDistinctBits : Obligations.NamedFlagsAreDistinctBits := by
  unfold Obligations.NamedFlagsAreDistinctBits
  intro c f g hc
  have hlt := Config.flagbit_lt hc f
  rw [flagMask_eq_twoPow, flagMask_eq_twoPow]
  constructor
  · intro h0
    simpa [hlt] using congrArg (fun v => v.getLsbD (c.flagbit f)) h0
  · intro hfg
    have hne : c.flagbit f ≠ c.flagbit g := fun h => hfg (Config.flagbit_injective hc h)
    rw [BitVec.and_twoPow, BitVec.getLsbD_twoPow]
    simp [hne]

end Sys2Proof.Machine
end

section
/-! PROOFS, spec/30_encoding.md R97 to R99, R103, R174, spec/43_checksum.md R194 to R196. What a master presents and what an
idle port makes of it, and the micro-steps in which a query or a checksum command answers. -/

namespace Sys2Proof.Machine

variable {s : State} {i : Instr}

/-! ### A packet presented to an idle port (30_encoding R98, R99) -/

/-- The step that takes a packet has made the draw and taken the packet from the master's stream. -/
theorem fetch_of_presented {x : Port} {sched : List Agent} {pkt : List Byte} {lines : List MasterLine}
    (hsched : s.sched = .port x :: sched) (hidle : (s.port x).busy = false)
    (hpres : present s.cfg (lastRet (s.port x)) (s.port x).lines = some (pkt, lines)) :
    fetch s = fetchPacket pkt (State.setPort { s with sched := sched, tick := s.tick + 1, turn := x } x
      { s.port x with lines := lines }) := by
  rw [fetch_of_sched hsched]
  cases x <;> simp_all [fetchPort, State.here, State.setHere]

theorem fetchPacket_of_illegal {pkt : List Byte} (h : illegalOn s.turn pkt = true) :
    fetchPacket pkt s = .moved (respond (decodePacket s.cfg pkt).toOption .illegal s) := by
  simp [fetchPacket, h]

theorem fetchPacket_of_malformed {pkt : List Byte} {r : Reject} (h : illegalOn s.turn pkt = false)
    (hdec : decodePacket s.cfg pkt = .error r) : fetchPacket pkt s = .stop (.malformedRequest pkt) := by
  simp [fetchPacket, h, hdec]

/-- Settles O15: the packet taken is answered at once, before anything of the port is latched. -/
theorem illegalRequestIsAnswered : Obligations.IllegalRequestIsAnswered := by
  unfold Obligations.IllegalRequestIsAnswered
  intro s x sched pkt lines hsched hidle hpres hillegal
  rw [step, fetch_of_presented hsched hidle hpres, fetchPacket_of_illegal (by simpa using hillegal)]
  cases x <;> simp [respond, State.here, State.setHere, State.setPort, Response.illegal] <;> exact hidle

/-- Settles O16: the packet taken is neither illegal on the port nor a request. -/
theorem malformedPacketIsRefused : Obligations.MalformedPacketIsRefused := by
  unfold Obligations.MalformedPacketIsRefused
  intro s x sched pkt lines r hsched hidle hpres hlegal hdec
  rw [step, fetch_of_presented hsched hidle hpres,
    fetchPacket_of_malformed (r := r) (by simpa using hlegal) (by simpa using hdec)]

/-! ### The retry loops (30_encoding R103) -/

section Retry

variable (c : Config) (last : Nat) (rest : List MasterLine)

theorem present_spinPush (e : Elem) (tried : Bool) : present c last (.spinPush e tried :: rest) =
    if tried && last == 1 then present c last rest else some (encode c (.push e), .spinPush e true :: rest) := by
  rw [present]

theorem present_spinPop (tried : Bool) : present c last (.spinPop tried :: rest) =
    if tried && last == 1 then present c last rest else some (encode c .pop, .spinPop true :: rest) := by
  rw [present]

/-- What is left of a PUSHALL before its next request: all of it, or what the last response has not taken. -/
def pushAllLeft (last : Nat) (es : List Elem) (tried : Bool) : List Elem := if tried then es.drop last else es

theorem present_pushAll (es : List Elem) (tried : Bool) : present c last (.pushAll es tried :: rest) =
    if (pushAllLeft last es tried).isEmpty then present c last rest
    else some (encode c (.pushb (pushAllLeft last es tried).length (pushAllLeft last es tried)),
      .pushAll (pushAllLeft last es tried) true :: rest) := by
  rw [present, pushAllLeft]

end Retry

/-- Settles O20: a loop that has not been tried presents its request, and one that has been goes by the last `RET`. -/
theorem retryLoopsPresentAgain : Obligations.RetryLoopsPresentAgain := by
  unfold Obligations.RetryLoopsPresentAgain
  intro c last e es rest
  simp only [present_spinPush, present_spinPop, present_pushAll, pushAllLeft]
  refine ⟨?_, ?_, fun hne => ?_, fun hne => ?_, fun heq => ?_, fun heq => ?_, fun hes => ?_, fun hlt => ?_,
    fun hle => ?_⟩
  · simp
  · simp
  · simp [hne]
  · simp [hne]
  · simp [heq]
  · simp [heq]
  · simp [hes]
  · simp [hlt]
  · simp [hle]

/-! ### The two micro-steps of a query (42_query R174) -/

section Query

variable (f : Config → Nat → Nat → Nat)

theorem queryStep_qp1 (ht : s.turn = .P) (hp : s.portP.ph = .qp1) :
    queryStep i f s = .next { s with portP := { s.portP with h := s.head, ph := .qp2 } } := by
  simp [queryStep, ht, hp, goto, State.setHere_P, State.here_eq_portP]

theorem queryStep_qp2 (ht : s.turn = .P) (hp : s.portP.ph = .qp2) :
    queryStep i f s = .next { s with
      portP := answered { s.portP with t := s.tail } i (.okRet (f s.cfg s.portP.h s.tail)) } := by
  simp [queryStep, ht, hp, respond, answered, State.setHere_P, State.here_eq_portP]

theorem queryStep_qc1 (ht : s.turn = .C) (hp : s.portC.ph = .qc1) :
    queryStep i f s = .next { s with portC := { s.portC with t := s.tail, ph := .qc2 } } := by
  simp [queryStep, ht, hp, goto, State.setHere_C, State.here_eq_portC]

theorem queryStep_qc2 (ht : s.turn = .C) (hp : s.portC.ph = .qc2) :
    queryStep i f s = .next { s with
      portC := answered { s.portC with h := s.head } i (.okRet (f s.cfg s.head s.portC.t)) } := by
  simp [queryStep, ht, hp, respond, answered, State.setHere_C, State.here_eq_portC]

end Query

theorem exec_query {answer : Nat → Nat → Nat}
    (h : (i = .isempty ∧ answer = fun h t => if h = t then 1 else 0) ∨
      (i = .isfull ∧ answer = fun h t => if (h + 1) % s.cfg.capacity = t then 1 else 0) ∨
      (i = .size ∧ answer = occOf s.cfg)) :
    ∃ f, exec i s = queryStep i f s ∧ f s.cfg = answer := by
  obtain ⟨rfl, rfl⟩ | ⟨rfl, rfl⟩ | ⟨rfl, rfl⟩ := h
  · exact ⟨_, by rw [exec, execIsempty], by simp [retOfBool, isEmptyOf]⟩
  · exact ⟨_, by rw [exec, execIsfull], by simp [retOfBool, isFullOf, nextCursor, cursorAdd]⟩
  · exact ⟨_, by rw [exec, execSize], rfl⟩

/-- Settles O31: the three queries run the same two micro-steps and differ in the answer. -/
theorem queryMicroSteps : Obligations.QueryMicroSteps := by
  unfold Obligations.QueryMicroSteps
  refine ⟨⟨rfl, rfl, rfl, ?_⟩, fun s i answer h => ?_⟩
  · intro o ho
    fin_cases ho <;> exact ⟨rfl, fun x => by cases x <;> rfl⟩
  · obtain ⟨f, hexec, rfl⟩ := exec_query h
    rw [hexec]
    exact ⟨queryStep_qp1 f, queryStep_qp2 f, queryStep_qc1 f, queryStep_qc2 f⟩

/-! ### The last micro-step of a checksum command (43_checksum R195, 44_envelope R211, R213) -/

/-- At CK2 a command answers with the checksum of the bytes it has read. -/
theorem checksumStep_ck2 (addr len : Nat) (answer : Word32 → Response) (hp : s.here.ph = .ck2)
    (hacc : s.here.acc = crcBytes crcOnes s.here.bytes) :
    checksumStep i addr len answer s = .next (s.setHere (answered s.here i (answer (crc32 s.cfg s.here.bytes)))) := by
  simp [checksumStep, hp, crcResult_eq _ _ hacc, respond, answered]

/-- Settles O35: the three commands end in the same micro-step and differ in the answer. -/
theorem checksumCommandsAnswer : Obligations.ChecksumCommandsAnswer := by
  unfold Obligations.ChecksumCommandsAnswer
  refine ⟨⟨rfl, rfl, rfl, rfl, rfl, rfl, ?_⟩, fun s hp hacc => ⟨?_, ?_, ?_⟩⟩
  · intro o ho x
    fin_cases ho <;> cases x <;> rfl
  · intro addr len
    rw [exec, execCrc32, checksumStep_ck2 _ _ _ hp hacc, Response.okWith]
  · intro id ts topic flags addr len
    rw [exec, execMkmsg, checksumStep_ck2 _ _ _ hp hacc, Response.okWith, makeMsg]
  · intro m
    rw [exec, execVerify, checksumStep_ck2 _ _ _ hp hacc]
    simp [Response.okRet, retOfBool]

end Sys2Proof.Machine
end

section
/-! PROOFS, spec/40_push.md R131, R136, spec/41_pop.md R151, R156. The micro-steps of the four ring commands as
equations: the whole next state, micro-step by micro-step. -/

namespace Sys2Proof.Machine

variable {s : State}

theorem respond_P (i : Instr) (r : Response) (ht : s.turn = .P) :
    respond (some i) r s = { s with portP := answered s.portP i r } := by
  rw [respond, State.setHere_P s _ ht, State.here_eq_portP s ht]; rfl

theorem respond_C (i : Instr) (r : Response) (ht : s.turn = .C) :
    respond (some i) r s = { s with portC := answered s.portC i r } := by
  rw [respond, State.setHere_C s _ ht, State.here_eq_portC s ht]; rfl

/-! ### PUSH (40_push R131) -/

section Push
variable (item : Elem)

theorem exec_push_pu2_of_room (ht : s.turn = .P) (hp : s.portP.ph = .pu2)
    (hroom : isFullOf s.cfg s.portP.h s.tail = false) :
    exec (.push item) s = .next { s with portP := { s.portP with t := s.tail, ph := .pu3 } } := by
  have hnext : nextCursor s.cfg s.portP.h ≠ s.tail := by simpa [isFullOf] using hroom
  simp [exec, execPush, ht, hp, hnext, goto, State.setHere_P, State.here_eq_portP]

theorem exec_push_pu3 (ht : s.turn = .P) (hp : s.portP.ph = .pu3) :
    exec (.push item) s = .next { slotWrite (cursorAdd s.cfg s.portP.h 0) item s with
      portP := { s.portP with ph := .pu4 } } := by
  simp [exec, execPush, ht, hp, goto, State.setHere_P, State.here_eq_portP]

theorem exec_push_pu4 (ht : s.turn = .P) (hp : s.portP.ph = .pu4) :
    exec (.push item) s = .next { s with
      head := nextCursor s.cfg s.portP.h, portP := answered s.portP (.push item) (.okRet 1) } := by
  simp [exec, execPush, ht, hp, respond_P, storeCur, State.here_eq_portP, nextCursor, cursorAdd_mod]

theorem exec_push_C (ht : s.turn = .C) :
    exec (.push item) s = .next { s with portC := answered s.portC (.push item) .illegal } := by
  simp [exec, execPush, refusedByPort, ht, respond_C]

end Push

/-- Settles O22: the clauses are the equations of the four micro-steps and of the refusal; the slot PU3 writes is
`P.h mod CAPACITY`. -/
theorem pushMicroSteps : Obligations.PushMicroSteps := by
  unfold Obligations.PushMicroSteps
  intro s item
  refine ⟨⟨rfl, rfl⟩, exec_push_pu1 item, ?_, ?_, ?_, exec_push_pu4 item, exec_push_C item⟩
  · exact fun ht hp hfull => exec_push_pu2_of_full item ht hp (beq_iff_eq.2 hfull)
  · exact fun ht hp hroom => exec_push_pu2_of_room item ht hp (beq_eq_false_iff_ne.2 hroom)
  · exact fun ht hp => ⟨_, exec_push_pu3 item ht hp, fun j => slotRead_slotWrite _ j item s, rfl⟩

/-! ### PUSHB (40_push R136) -/

section Pushb
variable (cnt : Nat) (items : List Elem)

theorem exec_pushb_pb1 (ht : s.turn = .P) (hp : s.portP.ph = .pb1) :
    exec (.pushb cnt items) s = .next { s with portP := { s.portP with h := s.head, ph := .pb2 } } := by
  simp [exec, execPushb, ht, hp, goto, State.setHere_P, State.here_eq_portP]

theorem exec_pushb_pb2_of_none (ht : s.turn = .P) (hp : s.portP.ph = .pb2)
    (hn : min cnt (roomOf s.cfg s.portP.h s.tail) = 0) :
    exec (.pushb cnt items) s = .next { s with
      portP := answered { s.portP with t := s.tail, n := 0, i := 0 } (.pushb cnt items) (.okRet 0) } := by
  simp [exec, execPushb, ht, hp, hn, respond_P, State.setHere_P, State.here_eq_portP]

theorem exec_pushb_pb2_of_some {n : Nat} (ht : s.turn = .P) (hp : s.portP.ph = .pb2)
    (hn : min cnt (roomOf s.cfg s.portP.h s.tail) = n) (hpos : n ≠ 0) :
    exec (.pushb cnt items) s = .next { s with
      portP := { s.portP with t := s.tail, n := n, i := 0, ph := .pb3 } } := by
  simp [exec, execPushb, ht, hp, hn, hpos, goto, State.setHere_P, State.here_eq_portP]

theorem exec_pushb_pb3 {e : Elem} (ht : s.turn = .P) (hp : s.portP.ph = .pb3) (he : items[s.portP.i]? = some e) :
    exec (.pushb cnt items) s = .next { slotWrite (cursorAdd s.cfg s.portP.h s.portP.i) e s with
      portP := { s.portP with i := s.portP.i + 1, ph := if s.portP.i + 1 < s.portP.n then .pb3 else .pb4 } } := by
  simp [exec, execPushb, ht, hp, he, goto, State.setHere_P, State.here_eq_portP]

theorem exec_pushb_pb4 (ht : s.turn = .P) (hp : s.portP.ph = .pb4) :
    exec (.pushb cnt items) s = .next { s with
      head := cursorAdd s.cfg s.portP.h s.portP.n,
      portP := answered s.portP (.pushb cnt items) (.okRet s.portP.n) } := by
  simp [exec, execPushb, ht, hp, respond_P, storeCur, State.here_eq_portP, cursorAdd_mod]

theorem exec_pushb_C (ht : s.turn = .C) :
    exec (.pushb cnt items) s = .next { s with portC := answered s.portC (.pushb cnt items) .illegal } := by
  simp [exec, execPushb, refusedByPort, ht, respond_C]

end Pushb

/-- Settles O23: the clauses are the equations of the four micro-steps and of the refusal; PB3 writes the slot
`(P.h + P.i) mod CAPACITY` and PB4 stores `head` once. -/
theorem pushbMicroSteps : Obligations.PushbMicroSteps := by
  unfold Obligations.PushbMicroSteps
  intro s cnt items
  refine ⟨⟨rfl, rfl⟩, exec_pushb_pb1 cnt items, exec_pushb_pb2_of_none cnt items, ?_, ?_,
    exec_pushb_pb4 cnt items, exec_pushb_C cnt items⟩
  · exact fun ht hp hsome => exec_pushb_pb2_of_some cnt items ht hp rfl hsome
  · exact fun e ht hp he => ⟨_, exec_pushb_pb3 cnt items ht hp he, fun j => slotRead_slotWrite _ j e s, rfl⟩

/-! ### POP (41_pop R151) -/

theorem exec_pop_po2_of_live (ht : s.turn = .C) (hp : s.portC.ph = .po2)
    (hlive : isEmptyOf s.head s.portC.t = false) :
    exec .pop s = .next { s with portC := { s.portC with h := s.head, ph := .po3 } } := by
  have hne : s.head ≠ s.portC.t := by simpa [isEmptyOf] using hlive
  simp [exec, execPop, ht, hp, hne, goto, State.setHere_C, State.here_eq_portC]

theorem exec_pop_po3 {e : Elem} (ht : s.turn = .C) (hp : s.portC.ph = .po3)
    (he : slotRead (cursorAdd s.cfg s.portC.t 0) s = some e) :
    exec .pop s = .next { s with portC := { s.portC with out := [e], ph := .po4 } } := by
  simp [exec, execPop, ht, hp, he, goto, State.setHere_C, State.here_eq_portC]

theorem exec_pop_po4 {e : Elem} (ht : s.turn = .C) (hp : s.portC.ph = .po4) (he : s.portC.out = [e]) :
    exec .pop s = .next { s with
      tail := nextCursor s.cfg s.portC.t, portC := answered s.portC .pop (.okWith 1 (.item e)) } := by
  simp [exec, execPop, ht, hp, he, respond_C, storeCur, State.here_eq_portC, nextCursor, cursorAdd_mod]

/-! ### POPB (41_pop R156) -/

section Popb
variable (cnt : Nat)

theorem exec_popb_pc1 (ht : s.turn = .C) (hp : s.portC.ph = .pc1) :
    exec (.popb cnt) s = .next { s with portC := { s.portC with t := s.tail, ph := .pc2 } } := by
  simp [exec, execPopb, ht, hp, goto, State.setHere_C, State.here_eq_portC]

theorem exec_popb_pc2_of_none (ht : s.turn = .C) (hp : s.portC.ph = .pc2)
    (hn : min cnt (occOf s.cfg s.head s.portC.t) = 0) :
    exec (.popb cnt) s = .next { s with
      portC := answered { s.portC with h := s.head, n := 0, i := 0, out := [] } (.popb cnt)
        (.okWith 0 (.items [])) } := by
  simp [exec, execPopb, ht, hp, hn, respond_C, State.setHere_C, State.here_eq_portC]

theorem exec_popb_pc2_of_some {n : Nat} (ht : s.turn = .C) (hp : s.portC.ph = .pc2)
    (hn : min cnt (occOf s.cfg s.head s.portC.t) = n) (hpos : n ≠ 0) :
    exec (.popb cnt) s = .next { s with
      portC := { s.portC with h := s.head, n := n, i := 0, out := [], ph := .pc3 } } := by
  simp [exec, execPopb, ht, hp, hn, hpos, goto, State.setHere_C, State.here_eq_portC]

theorem exec_popb_pc3 {e : Elem} (ht : s.turn = .C) (hp : s.portC.ph = .pc3)
    (he : slotRead (cursorAdd s.cfg s.portC.t s.portC.i) s = some e) :
    exec (.popb cnt) s = .next { s with
      portC := { s.portC with
        out := s.portC.out ++ [e], i := s.portC.i + 1,
        ph := if s.portC.i + 1 < s.portC.n then .pc3 else .pc4 } } := by
  simp [exec, execPopb, ht, hp, he, goto, State.setHere_C, State.here_eq_portC]

theorem exec_popb_pc4 (ht : s.turn = .C) (hp : s.portC.ph = .pc4) :
    exec (.popb cnt) s = .next { s with
      tail := cursorAdd s.cfg s.portC.t s.portC.n,
      portC := answered s.portC (.popb cnt) (.okWith s.portC.n (.items s.portC.out)) } := by
  simp [exec, execPopb, ht, hp, respond_C, storeCur, State.here_eq_portC, cursorAdd_mod]

end Popb

end Sys2Proof.Machine
end

section
/-! PROOFS, spec/40_push.md R132, R138, R139, spec/20_memory.md R77. A command in flight, with the other port at rest,
runs to its answer; PUSH and PUSHB run so, and the queue grows by what the answer accepts. -/

namespace Sys2Proof.Machine

variable {s t u : State}

/-! ### A command in flight, alone -/

/-- What the micro-steps of the port at `turn` leave as it is while the other port takes none. -/
structure LeavesAlone (s t : State) : Prop where
  turn : t.turn = s.turn
  cfg : t.cfg = s.cfg
  mem : t.mem = s.mem
  other : ∀ x, x ≠ s.turn → t.port x = s.port x
  tail : s.turn = .P → t.tail = s.tail

theorem LeavesAlone.refl (s : State) : LeavesAlone s s := ⟨rfl, rfl, rfl, fun _ _ => rfl, fun _ => rfl⟩

theorem LeavesAlone.trans (h : LeavesAlone s t) (h' : LeavesAlone t u) : LeavesAlone s u where
  turn := h'.turn.trans h.turn
  cfg := h'.cfg.trans h.cfg
  mem := h'.mem.trans h.mem
  other x hx := (h'.other x (by rwa [h.turn])).trans (h.other x hx)
  tail ht := (h'.tail (h.turn.trans ht)).trans (h.tail ht)

theorem exec_leavesAlone {i : Instr} (h : exec i s = .next t) : LeavesAlone s t where
  turn := (exec_microStep h).turn_eq
  cfg := (exec_microStep h).cfg_eq
  mem := by obtain ⟨-, hmem, -⟩ := microStepFrame s t i h; exact hmem
  other _ hx := (exec_microStep h).port_other hx
  tail ht := (exec_microStep h).tail_eq (by simp [ht])

theorem Inv.begun {x : Port} {i : Instr} (h : Inv s) (hwf : i.wf s.cfg = true) (hacc : i.op.accepts x = true) :
    Inv (begun x i s) :=
  (h.withTurn x).accept hwf hacc

/-- However far a command in flight is run alone, the state meets the invariant. -/
theorem runCommand_keeps_inv {n : Nat} (hinv : Inv s) (hb : s.here.busy = true)
    (h : runCommand n s.here.req s = .next t) : Inv t := by
  induction n generalizing s with
  | zero => cases h; exact hinv
  | succ n ih =>
    obtain ⟨v, hv⟩ := exec_answers hinv hb
    have hinv' := exec_keeps_inv hinv hb hv
    cases hbv : v.here.busy with
    | false => rw [runCommand_succ_of_idle hv hbv] at h; cases h; exact hinv'
    | true =>
      rw [runCommand_succ_of_busy hv hbv, ← (exec_microStep hv).req_eq] at h
      exact ih hinv' hbv h

theorem stepsLeft_pos (p : PortState) : 0 < stepsLeft p := by unfold stepsLeft; split <;> omega

/-- A command in flight at `u`, alone since `s`, runs to its answer (20_memory R77). What its micro-steps keep while
they leave it in flight (`F`) and what its last micro-step makes of that (`E`) is said for one micro-step and holds of
the run. -/
theorem runCommand_answers {i : Instr} {F E : State → Prop}
    (hstep : ∀ u v, Inv u → u.here.busy = true → u.here.req = i → LeavesAlone s u → F u → exec i u = .next v →
      (v.here.busy = true → F v) ∧ (v.here.busy = false → E v))
    {n : Nat} (hinv : Inv u) (hb : u.here.busy = true) (hr : u.here.req = i) (hn : stepsLeft u.here ≤ n)
    (halone : LeavesAlone s u) (hF : F u) :
    ∃ t, runCommand n i u = .next t ∧ t.here.busy = false ∧ LeavesAlone s t ∧ E t := by
  induction n generalizing u with
  | zero => have := stepsLeft_pos u.here; omega
  | succ n ih =>
    subst hr
    obtain ⟨v, hv⟩ := exec_answers hinv hb
    have halone' := halone.trans (exec_leavesAlone hv)
    obtain ⟨hgoes, hends⟩ := hstep u v hinv hb rfl halone hF hv
    cases hbv : v.here.busy with
    | false => exact ⟨v, runCommand_succ_of_idle hv hbv, hbv, halone', hends hbv⟩
    | true =>
      have hlower := (exec_answersOrLowers hinv hb hv).resolve_left (by simp [hbv])
      rw [runCommand_succ_of_busy hv hbv]
      exact ih (exec_keeps_inv hinv hb hv) hbv (exec_microStep hv).req_eq (by omega) halone' (hgoes hbv)

/-! ### What is accepted joins the queue (10_state R41) -/

theorem accepted_of_done_append {d : Done} (h : t.portP.done = s.portP.done ++ [d]) :
    accepted t = accepted s ++ acceptedBy d := by
  simp [accepted, h]

/-- FIFO in both states: where only `xs` was accepted meanwhile, `xs` has joined the queue at its back. -/
theorem queue_of_accepted {xs : List Elem} (hs : RingInv s) (ht : RingInv t) (hC : t.portC = s.portC)
    (hacc : accepted t = accepted s ++ xs) : queue t = queue s ++ xs := by
  have hdel : delivered t = delivered s := by rw [delivered, delivered, hC]
  have hfifo : delivered s ++ queue t = delivered s ++ (queue s ++ xs) := by
    rw [← List.append_assoc, ← hs.fifo, ← hacc, ht.fifo, hdel]
  exact List.append_cancel_left hfifo

/-! ### PUSH alone (40_push R132) -/

/-- A PUSH alone where there is room: the slot at `head` is written, `head` moves on and the answer is 1. -/
theorem runCommand_push_of_room (n : Nat) (item : Elem) (hroom : isFullOf s.cfg s.head s.tail = false) :
    runCommand (n + 4) (.push item) (begun .P (.push item) s) =
      .next { slotWrite (cursorAdd s.cfg s.head 0) item s with
        turn := .P, head := nextCursor s.cfg s.head,
        portP := answered { s.portP with req := .push item, ph := .pu4, h := s.head, t := s.tail }
          (.push item) (.okRet 1) } := by
  rw [begun_P, runCommand_succ_of_busy (exec_push_pu1 item rfl rfl) rfl,
    runCommand_succ_of_busy (exec_push_pu2_of_room item rfl rfl hroom) rfl,
    runCommand_succ_of_busy (exec_push_pu3 item rfl rfl) rfl,
    runCommand_succ_of_idle (exec_push_pu4 item rfl rfl) rfl]
  rfl

theorem RingInv.isFullOf_iff (h : RingInv s) : isFullOf s.cfg s.head s.tail = true ↔ room s = 0 := by
  rw [isFullOf, beq_iff_eq, nextCursor_eq_iff h.head_lt h.tail_lt]; rfl

/-- Settles O24: full is occupancy `CAPACITY - 1`, where the second micro-step answers; where there is room the answer
accepts the item, and by FIFO the queue has grown by it. -/
theorem pushAlone : Obligations.PushAlone := by
  unfold Obligations.PushAlone
  intro s item hinv _ hitem
  have hwf : (Instr.push item).wf s.cfg = true := by simpa [Instr.wf] using hitem
  have hsum := occ_add_room s
  cases hf : isFullOf s.cfg s.head s.tail with
  | true =>
    have hroom : room s = 0 := hinv.ring.isFullOf_iff.1 hf
    exact ⟨_, runCommand_push_of_full 2 item hf, rfl, rfl, rfl, rfl, fun _ => by omega, fun _ => ⟨rfl, rfl, rfl⟩⟩
  | false =>
    have hroom : room s ≠ 0 := fun h => by simp [hinv.ring.isFullOf_iff.2 h] at hf
    obtain ⟨t, hrun, hidle, hC, htail, hmem, hdone⟩ :
        ∃ t, runCommand 4 (.push item) (begun .P (.push item) s) = .next t ∧ t.portP.busy = false ∧
          t.portC = s.portC ∧ t.tail = s.tail ∧ t.mem = s.mem ∧
          t.portP.done = s.portP.done ++ [{ req := some (.push item), resp := .okRet 1 }] :=
      ⟨_, runCommand_push_of_room 0 item hf, rfl, rfl, rfl, rfl, rfl⟩
    have hinvt : Inv t := runCommand_keeps_inv (hinv.begun (x := .P) hwf rfl) rfl hrun
    have hacc : accepted t = accepted s ++ [item] := accepted_of_done_append hdone
    refine ⟨t, hrun, hidle, hC, htail, hmem, fun _ => ⟨?_, ?_, hdone⟩, fun _ => by omega⟩
    · exact queue_of_accepted hinv.ring hinvt.ring hC hacc
    · rw [ghostH, hacc, List.length_append]; rfl

/-! ### PUSHB alone (40_push R136, R138, R139) -/

/-- A PUSHB in flight that was accepted in `s`: nothing is published and nothing answered yet, and from PB3 on the latch
`n` is the count the answer will give. -/
structure PushbUnpublished (s : State) (k : Nat) (u : State) : Prop where
  head : u.head = s.head
  done : u.portP.done = s.portP.done
  count : u.portP.ph = .pb3 ∨ u.portP.ph = .pb4 → u.portP.n = k

/-- With port `C` at rest the room PB2 sees is the room there was when the command was accepted. -/
theorem roomOf_pb2_eq_room {cnt : Nat} {items : List Elem} (ht : s.turn = .P) (hinv : Inv u) (hb : u.here.busy = true)
    (hr : u.here.req = .pushb cnt items) (halone : LeavesAlone s u) (hhead : u.head = s.head)
    (hp : u.portP.ph = .pb2) : roomOf u.cfg u.portP.h u.tail = room s := by
  have htu : u.turn = .P := halone.turn.trans ht
  have hh : u.portP.h = u.head :=
    (producerLatches_pb2 (by rw [← State.here_eq_portP u htu, hr]) hp).1 (hinv.producerLatches hb htu)
  rw [hh, hhead, halone.cfg, halone.tail ht]; rfl

/-- A micro-step of a PUSHB that is alone leaves it unpublished, or answers the count. -/
theorem execPushb_unpublished {cnt : Nat} {items : List Elem} (ht : s.turn = .P) (hinv : Inv u)
    (hb : u.here.busy = true) (hr : u.here.req = .pushb cnt items) (halone : LeavesAlone s u)
    (hF : PushbUnpublished s (min cnt (room s)) u) (h : execPushb cnt items u = .next t) :
    (t.here.busy = true → PushbUnpublished s (min cnt (room s)) t) ∧
    (t.here.busy = false →
      t.portP.done = s.portP.done ++ [{ req := some (.pushb cnt items), resp := .okRet (min cnt (room s)) }]) := by
  obtain ⟨hhead, hdone, hcount⟩ := hF
  have htu : u.turn = .P := halone.turn.trans ht
  have hhere := State.here_eq_portP u htu
  have hseen := roomOf_pb2_eq_room ht hinv hb hr halone hhead
  obtain ⟨hC, -⟩ | ⟨-, hp, rfl⟩ | ⟨-, hp, hn, rfl⟩ | ⟨-, hp, hn, rfl⟩ | ⟨-, hp, e, he, rfl⟩ | ⟨-, hp, rfl⟩ :=
    execPushb_next h
  · simp [htu] at hC
  · refine ⟨fun _ => ?_, fun hidle => by simp [hb] at hidle⟩
    rw [goto_setHere_P _ _ htu, hhere]
    exact ⟨hhead, hdone, by simp⟩
  · refine ⟨fun hbusy => by simp at hbusy, fun _ => ?_⟩
    rw [hseen hp] at hn
    rw [respond_P _ _ (by simpa using htu), hn]
    simp [answered, State.setHere_P _ _ htu, hhere, hdone]
  · refine ⟨fun _ => ?_, fun hidle => by simp [hb] at hidle⟩
    rw [goto_setHere_P _ _ htu, hhere]
    exact ⟨hhead, hdone, fun _ => congrArg (min cnt) (hseen hp)⟩
  · refine ⟨fun _ => ?_, fun hidle => by simp [hb] at hidle⟩
    rw [goto_setHere_P _ _ (by exact htu), hhere]
    exact ⟨hhead, hdone, fun _ => hcount (.inl hp)⟩
  · refine ⟨fun hbusy => by simp at hbusy, fun _ => ?_⟩
    rw [respond_P _ _ (by simpa using htu), hcount (.inr hp)]
    simp [answered, hdone]

theorem room_eq_sub (s : State) : room s = s.cfg.capacity - 1 - occ s := by
  have := occ_add_room s
  omega

/-- Settles O25: the command alone answers the count it computes at PB2, and by FIFO the queue has grown by the elements
that answer accepts. -/
theorem pushbAlone : Obligations.PushbAlone := by
  unfold Obligations.PushbAlone
  intro s cnt items hinv _ hwf
  rw [← room_eq_sub]
  have hbegun : Inv (begun .P (.pushb cnt items) s) := hinv.begun hwf rfl
  obtain ⟨t, hrun, hidle, halone, hdone⟩ := runCommand_answers (n := cnt + 4)
    (fun u v hu hb hr ha hF h => execPushb_unpublished rfl hu hb hr ha hF h) hbegun rfl rfl
    le_rfl (.refl _) ⟨rfl, rfl, by simp [begun_P, firstPhase]⟩
  have hinvt : Inv t := runCommand_keeps_inv hbegun rfl hrun
  have hC : t.portC = s.portC := halone.other .C nofun
  refine ⟨t, hrun, ?_, hC, halone.tail rfl, halone.mem, ?_, hdone⟩
  · rwa [State.here_eq_portP t halone.turn] at hidle
  · exact queue_of_accepted hinv.ring hinvt.ring hC (accepted_of_done_append hdone)

end Sys2Proof.Machine
end

section
/-! PROOFS, spec/40_push.md R140, spec/41_pop.md R158. A batch of one beside the single command: they keep pace
micro-step by micro-step, and each run alone ends in the same shared state. -/

namespace Sys2Proof.Machine

variable {c : Config} {s u : State}

/-! ### The tests of the two commands are the same test -/

/-- The test of PUSH and the room of PUSHB agree for any latched `head`, since both take it modulo `CAPACITY`. -/
theorem nextCursor_eq_iff_roomOf {t : Nat} (h : Nat) (ht : t < c.capacity) :
    nextCursor c h = t ↔ roomOf c h t = 0 := by
  have hnext : nextCursor c h = nextCursor c (h % c.capacity) := by simp [nextCursor, cursorAdd]
  have hroom : roomOf c h t = roomOf c (h % c.capacity) t := by simp [roomOf, cursorSub]
  rw [hnext, hroom, nextCursor_eq_iff (Nat.mod_lt _ (capacity_pos c)) ht]

theorem eq_iff_occOf {h t : Nat} (hh : h < c.capacity) (ht : t < c.capacity) : h = t ↔ occOf c h t = 0 := by
  rw [← isEmptyOf_iff hh ht, isEmptyOf, beq_iff_eq]

/-- A batch of one moves one element or none. -/
theorem min_one_eq_zero_or (n : Nat) : (n = 0 ∧ min 1 n = 0) ∨ (n ≠ 0 ∧ min 1 n = 1) := by omega

/-! ### Micro-step by micro-step -/

@[simp] theorem lastRet_answered (p : PortState) (i : Instr) (r : Response) : lastRet (answered p i r) = r.ret := by
  simp [lastRet, answered]

/-- Answers with the same `RET` that deliver the same. -/
theorem answeredAlike_answered (p q : PortState) {i j : Instr} {r r' : Response} (hret : r.ret = r'.ret)
    (hdel : deliveredBy { req := some i, resp := r } = deliveredBy { req := some j, resp := r' }) :
    answeredAlike (answered p i r) (answered q j r') :=
  ⟨rfl, rfl, by simpa using hret, by simpa [answered] using hdel⟩

theorem pushKeepsPace_step (e : Elem) (h : pushKeepsPace s u) (htail : s.tail < s.cfg.capacity) :
    ∃ t v, exec (.push e) s = .next t ∧ exec (.pushb 1 [e]) u = .next v ∧ sameShared t v ∧
      (pushKeepsPace t v ∨ answeredAlike t.portP v.portP) := by
  obtain ⟨hshared, hts, htu, hbs, hbu, hph⟩ := h
  have ⟨hcfg, hhead, htl, hslots, hmem⟩ := hshared
  obtain ⟨hp, hq⟩ | ⟨hh, ⟨hp, hq⟩ | ⟨hp, hq, hn, hi⟩ | ⟨hp, hq, hn⟩⟩ := hph
  · exact ⟨_, _, exec_push_pu1 e hts hp, exec_pushb_pb1 1 [e] htu hq, hshared,
      .inl ⟨hshared, hts, htu, hbs, hbu, .inr ⟨hhead, .inl ⟨rfl, rfl⟩⟩⟩⟩
  · have hfull := nextCursor_eq_iff_roomOf s.portP.h htail
    have hroom : roomOf u.cfg u.portP.h u.tail = roomOf s.cfg s.portP.h s.tail := by rw [hcfg, hh, htl]
    obtain ⟨hr, hmin⟩ | ⟨hr, hmin⟩ := min_one_eq_zero_or (roomOf s.cfg s.portP.h s.tail)
    · exact ⟨_, _, exec_push_pu2_of_full e hts hp (beq_iff_eq.2 (hfull.2 hr)),
        exec_pushb_pb2_of_none 1 [e] htu hq (by rw [hroom, hmin]), hshared, .inr (answeredAlike_answered _ _ rfl rfl)⟩
    · exact ⟨_, _, exec_push_pu2_of_room e hts hp (beq_eq_false_iff_ne.2 fun h => hr (hfull.1 h)),
        exec_pushb_pb2_of_some 1 [e] htu hq (by rw [hroom, hmin]) one_ne_zero, hshared,
        .inl ⟨hshared, hts, htu, hbs, hbu, .inr ⟨hh, .inr (.inl ⟨rfl, rfl, rfl, rfl⟩)⟩⟩⟩
  · have hslots' : sameShared (slotWrite (cursorAdd s.cfg s.portP.h 0) e s)
        (slotWrite (cursorAdd u.cfg u.portP.h u.portP.i) e u) :=
      ⟨hcfg, hhead, htl, by simp [hcfg, hh, hi, hslots], hmem⟩
    exact ⟨_, _, exec_push_pu3 e hts hp, exec_pushb_pb3 1 [e] htu hq (by rw [hi]; rfl), hslots',
      .inl ⟨hslots', hts, htu, hbs, hbu, .inr ⟨hh, .inr (.inr ⟨rfl, by simp [hi, hn], hn⟩)⟩⟩⟩
  · have hnext : nextCursor s.cfg s.portP.h = cursorAdd u.cfg u.portP.h u.portP.n := by rw [hcfg, hh, hn]; rfl
    exact ⟨_, _, exec_push_pu4 e hts hp, exec_pushb_pb4 1 [e] htu hq, ⟨hcfg, hnext, htl, hslots, hmem⟩,
      .inr (answeredAlike_answered _ _ hn.symm rfl)⟩

theorem popKeepsPace_step (h : popKeepsPace s u) (hhead : s.head < s.cfg.capacity)
    (htail : s.portC.t < s.cfg.capacity)
    (hlive : s.portC.ph = .po3 → (slotRead (cursorAdd s.cfg s.portC.t 0) s).isSome = true) :
    ∃ t v, exec .pop s = .next t ∧ exec (.popb 1) u = .next v ∧ sameShared t v ∧
      (popKeepsPace t v ∨ answeredAlike t.portC v.portC) := by
  obtain ⟨hshared, hts, htu, hbs, hbu, hph⟩ := h
  have ⟨hcfg, hhd, htl, hslots, hmem⟩ := hshared
  obtain ⟨hp, hq⟩ | ⟨ht, ⟨hp, hq⟩ | ⟨hp, hq, hn, hi, hout⟩ | ⟨hp, hq, hn, hout, hlen⟩⟩ := hph
  · exact ⟨_, _, exec_pop_po1 hts hp, exec_popb_pc1 1 htu hq, hshared,
      .inl ⟨hshared, hts, htu, hbs, hbu, .inr ⟨htl, .inl ⟨rfl, rfl⟩⟩⟩⟩
  · have hempty := eq_iff_occOf hhead htail
    have hocc : occOf u.cfg u.head u.portC.t = occOf s.cfg s.head s.portC.t := by rw [hcfg, hhd, ht]
    obtain ⟨ho, hmin⟩ | ⟨ho, hmin⟩ := min_one_eq_zero_or (occOf s.cfg s.head s.portC.t)
    · exact ⟨_, _, exec_pop_po2_of_empty hts hp (beq_iff_eq.2 (hempty.2 ho)),
        exec_popb_pc2_of_none 1 htu hq (by rw [hocc, hmin]), hshared, .inr (answeredAlike_answered _ _ rfl rfl)⟩
    · exact ⟨_, _, exec_pop_po2_of_live hts hp (beq_eq_false_iff_ne.2 fun h => ho (hempty.1 h)),
        exec_popb_pc2_of_some 1 htu hq (by rw [hocc, hmin]) one_ne_zero, hshared,
        .inl ⟨hshared, hts, htu, hbs, hbu, .inr ⟨ht, .inr (.inl ⟨rfl, rfl, rfl, rfl, rfl⟩)⟩⟩⟩
  · obtain ⟨e, he⟩ := Option.isSome_iff_exists.1 (hlive hp)
    have he' : slotRead (cursorAdd u.cfg u.portC.t u.portC.i) u = some e := by
      rw [← he, slotRead, slotRead, hcfg, ht, hi, hslots]
    exact ⟨_, _, exec_pop_po3 hts hp he, exec_popb_pc3 1 htu hq he', hshared,
      .inl ⟨hshared, hts, htu, hbs, hbu,
        .inr ⟨ht, .inr (.inr ⟨rfl, by simp [hi, hn], hn, by simp [hout], by simp [hout]⟩)⟩⟩⟩
  · obtain ⟨e, he⟩ := List.length_eq_one_iff.1 hlen
    have hnext : nextCursor s.cfg s.portC.t = cursorAdd u.cfg u.portC.t u.portC.n := by rw [hcfg, ht, hn]; rfl
    exact ⟨_, _, exec_pop_po4 hts hp (hout.trans he), exec_popb_pc4 1 htu hq, ⟨hcfg, hhd, hnext, hslots, hmem⟩,
      .inr (answeredAlike_answered _ _ hn.symm he.symm)⟩

/-! ### The two commands alone -/

/-- A PUSHB alone that can move nothing answers 0 at its second micro-step. -/
theorem runCommand_pushb_of_none (n cnt : Nat) (items : List Elem) (hn : min cnt (roomOf s.cfg s.head s.tail) = 0) :
    runCommand (n + 2) (.pushb cnt items) (begun .P (.pushb cnt items) s) = .next { s with
      turn := .P,
      portP := answered { s.portP with
        req := .pushb cnt items, ph := .pb2, h := s.head, t := s.tail, n := 0, i := 0 }
        (.pushb cnt items) (.okRet 0) } := by
  rw [begun_P, runCommand_succ_of_busy (exec_pushb_pb1 cnt items rfl rfl) rfl,
    runCommand_succ_of_idle (exec_pushb_pb2_of_none cnt items rfl rfl hn) rfl]
  rfl

/-- A PUSHB of one element alone where there is room: as PUSH, it writes the slot at `head` and moves `head` on by one. -/
theorem runCommand_pushb_one_of_room (n : Nat) (e : Elem) (hn : min 1 (roomOf s.cfg s.head s.tail) = 1) :
    runCommand (n + 4) (.pushb 1 [e]) (begun .P (.pushb 1 [e]) s) =
      .next { slotWrite (cursorAdd s.cfg s.head 0) e s with
        turn := .P, head := cursorAdd s.cfg s.head 1,
        portP := answered { s.portP with
          req := .pushb 1 [e], ph := .pb4, h := s.head, t := s.tail, n := 1, i := 1 }
          (.pushb 1 [e]) (.okRet 1) } := by
  rw [begun_P, runCommand_succ_of_busy (exec_pushb_pb1 1 [e] rfl rfl) rfl,
    runCommand_succ_of_busy (exec_pushb_pb2_of_some 1 [e] rfl rfl hn one_ne_zero) rfl,
    runCommand_succ_of_busy (exec_pushb_pb3 1 [e] rfl rfl rfl) rfl,
    runCommand_succ_of_idle (exec_pushb_pb4 1 [e] rfl rfl) rfl]
  rfl

/-- A POP alone with an element live: the slot at `tail` is read, `tail` moves on and the element is the answer. -/
theorem runCommand_pop_of_live (n : Nat) {e : Elem} (hlive : isEmptyOf s.head s.tail = false)
    (he : queueSlot s 0 = some e) :
    runCommand (n + 4) .pop (begun .C .pop s) = .next { s with
      turn := .C, tail := nextCursor s.cfg s.tail,
      portC := answered { s.portC with req := .pop, ph := .po4, t := s.tail, h := s.head, out := [e] }
        .pop (.okWith 1 (.item e)) } := by
  rw [begun_C, runCommand_succ_of_busy (exec_pop_po1 rfl rfl) rfl,
    runCommand_succ_of_busy (exec_pop_po2_of_live rfl rfl hlive) rfl,
    runCommand_succ_of_busy (exec_pop_po3 (e := e) rfl rfl ?_) rfl,
    runCommand_succ_of_idle (exec_pop_po4 rfl rfl rfl) rfl]
  · rfl
  · exact he

/-- A POPB alone that can move nothing answers with no element at its second micro-step. -/
theorem runCommand_popb_of_none (n cnt : Nat) (hn : min cnt (occOf s.cfg s.head s.tail) = 0) :
    runCommand (n + 2) (.popb cnt) (begun .C (.popb cnt) s) = .next { s with
      turn := .C,
      portC := answered { s.portC with
        req := .popb cnt, ph := .pc2, t := s.tail, h := s.head, n := 0, i := 0, out := [] }
        (.popb cnt) (.okWith 0 (.items [])) } := by
  rw [begun_C, runCommand_succ_of_busy (exec_popb_pc1 cnt rfl rfl) rfl,
    runCommand_succ_of_idle (exec_popb_pc2_of_none cnt rfl rfl hn) rfl]
  rfl

/-- A POPB of one element alone with an element live: as POP, the slot at `tail` is read and `tail` moves on by one. -/
theorem runCommand_popb_one_of_live (n : Nat) {e : Elem} (hn : min 1 (occOf s.cfg s.head s.tail) = 1)
    (he : queueSlot s 0 = some e) :
    runCommand (n + 4) (.popb 1) (begun .C (.popb 1) s) = .next { s with
      turn := .C, tail := cursorAdd s.cfg s.tail 1,
      portC := answered { s.portC with
        req := .popb 1, ph := .pc4, t := s.tail, h := s.head, n := 1, i := 1, out := [e] }
        (.popb 1) (.okWith 1 (.items [e])) } := by
  rw [begun_C, runCommand_succ_of_busy (exec_popb_pc1 1 rfl rfl) rfl,
    runCommand_succ_of_busy (exec_popb_pc2_of_some 1 rfl rfl hn one_ne_zero) rfl,
    runCommand_succ_of_busy (exec_popb_pc3 (e := e) 1 rfl rfl ?_) rfl,
    runCommand_succ_of_idle (exec_popb_pc4 1 rfl rfl) rfl]
  · rfl
  · exact he

theorem push_pushb_one_alone (e : Elem) (hinv : Inv s) :
    ∃ t u, runCommand 4 (.push e) (begun .P (.push e) s) = .next t ∧
      runCommand 5 (.pushb 1 [e]) (begun .P (.pushb 1 [e]) s) = .next u ∧
      t.head = u.head ∧ t.tail = u.tail ∧ t.slots = u.slots ∧ lastRet t.portP = lastRet u.portP := by
  obtain ⟨hr, hmin⟩ | ⟨hr, hmin⟩ := min_one_eq_zero_or (room s)
  · exact ⟨_, _, runCommand_push_of_full 2 e (hinv.ring.isFullOf_iff.2 hr), runCommand_pushb_of_none 3 1 [e] hmin,
      rfl, rfl, rfl, by simp⟩
  · have hroom : isFullOf s.cfg s.head s.tail = false := Bool.eq_false_iff.2 fun h => hr (hinv.ring.isFullOf_iff.1 h)
    exact ⟨_, _, runCommand_push_of_room 0 e hroom, runCommand_pushb_one_of_room 1 e hmin, rfl, rfl, rfl, by simp⟩

theorem pop_popb_one_alone (hinv : Inv s) :
    ∃ t u, runCommand 4 .pop (begun .C .pop s) = .next t ∧
      runCommand 5 (.popb 1) (begun .C (.popb 1) s) = .next u ∧
      t.head = u.head ∧ t.tail = u.tail ∧ t.slots = u.slots ∧ lastRet t.portC = lastRet u.portC ∧
      delivered t = delivered u := by
  have hempty : isEmptyOf s.head s.tail = true ↔ occ s = 0 := isEmptyOf_iff hinv.ring.head_lt hinv.ring.tail_lt
  obtain ⟨ho, hmin⟩ | ⟨ho, hmin⟩ := min_one_eq_zero_or (occ s)
  · exact ⟨_, _, runCommand_pop_of_empty 2 (hempty.2 ho), runCommand_popb_of_none 3 1 hmin,
      rfl, rfl, rfl, by simp [Response.okRet, Response.okWith],
      by simp [delivered, answered, deliveredBy, Response.okRet, Response.okWith]⟩
  · obtain ⟨e, he⟩ := Option.isSome_iff_exists.1 (hinv.ring.live_written 0 (by omega))
    have hlive : isEmptyOf s.head s.tail = false := Bool.eq_false_iff.2 fun h => ho (hempty.1 h)
    exact ⟨_, _, runCommand_pop_of_live 0 hlive he, runCommand_popb_one_of_live 1 hmin he,
      rfl, rfl, rfl, by simp [Response.okWith],
      by simp [delivered, answered, deliveredBy, Response.okWith]⟩

/-- Settles O30: the tests agree, so micro-step by micro-step the two commands keep pace, and each pair run alone ends
in the same shared state. -/
theorem batchOfOneIsTheSingleCommand : Obligations.BatchOfOneIsTheSingleCommand := by
  unfold Obligations.BatchOfOneIsTheSingleCommand
  refine ⟨fun c h t hh ht => ⟨?_, ?_, rfl⟩, fun s u e => pushKeepsPace_step e, fun s u => popKeepsPace_step,
    fun s e hinv _ _ => push_pushb_one_alone e hinv, fun s hinv _ => pop_popb_one_alone hinv⟩
  · rw [Nat.one_le_iff_ne_zero, Ne, ← nextCursor_eq_iff_roomOf h ht]
  · rw [Nat.one_le_iff_ne_zero, Ne, ← eq_iff_occOf hh ht]

end Sys2Proof.Machine
end

section
/-! PROOFS, spec/41_pop.md R151, R156, spec/10_state.md R29. POP and POPB micro-step by micro-step: what is left of their
equations, the fault of a slot never written and the answer on port `P`. -/

namespace Sys2Proof.Machine

variable {s : State}

/-! ### POP (41_pop R151) -/

theorem exec_pop_po3_of_unwritten (ht : s.turn = .C) (hp : s.portC.ph = .po3)
    (hnone : slotRead (cursorAdd s.cfg s.portC.t 0) s = none) :
    exec .pop s = .fault (.slotNeverWritten (cursorAdd s.cfg s.portC.t 0)) := by
  simp [exec, execPop, ht, hp, hnone, State.here_eq_portC]

theorem exec_pop_P (ht : s.turn = .P) :
    exec .pop s = .next { s with portP := answered s.portP .pop .illegal } := by
  simp [exec, execPop, refusedByPort, ht, respond_P]

/-- Settles O26: the clauses are the equations of the four micro-steps, of the fault and of the refusal; the slot PO3
reads is `C.t mod CAPACITY`. -/
theorem popMicroSteps : Obligations.PopMicroSteps := by
  unfold Obligations.PopMicroSteps
  intro s
  refine ⟨⟨rfl, rfl⟩, exec_pop_po1, ?_, ?_, fun _ => exec_pop_po3, exec_pop_po3_of_unwritten,
    fun _ => exec_pop_po4, exec_pop_P⟩
  · exact fun ht hp hempty => exec_pop_po2_of_empty ht hp (beq_iff_eq.2 hempty)
  · exact fun ht hp hlive => exec_pop_po2_of_live ht hp (beq_eq_false_iff_ne.2 hlive)

/-! ### POPB (41_pop R156) -/

theorem exec_popb_pc3_of_unwritten (cnt : Nat) (ht : s.turn = .C) (hp : s.portC.ph = .pc3)
    (hnone : slotRead (cursorAdd s.cfg s.portC.t s.portC.i) s = none) :
    exec (.popb cnt) s = .fault (.slotNeverWritten (cursorAdd s.cfg s.portC.t s.portC.i)) := by
  simp [exec, execPopb, ht, hp, hnone, State.here_eq_portC]

theorem exec_popb_P (cnt : Nat) (ht : s.turn = .P) :
    exec (.popb cnt) s = .next { s with portP := answered s.portP (.popb cnt) .illegal } := by
  simp [exec, execPopb, refusedByPort, ht, respond_P]

/-- Settles O27: the clauses are the equations of the four micro-steps, of the fault and of the refusal; PC3 reads the
slot `(C.t + C.i) mod CAPACITY` and PC4 stores `tail` once. -/
theorem popbMicroSteps : Obligations.PopbMicroSteps := by
  unfold Obligations.PopbMicroSteps
  intro s cnt
  exact ⟨⟨rfl, rfl⟩, exec_popb_pc1 cnt, exec_popb_pc2_of_none cnt,
    fun ht hp hsome => exec_popb_pc2_of_some cnt ht hp rfl hsome, fun _ => exec_popb_pc3 cnt,
    exec_popb_pc3_of_unwritten cnt, exec_popb_pc4 cnt, exec_popb_P cnt⟩

end Sys2Proof.Machine
end

section
/-! PROOFS, spec/41_pop.md R152, R157. POP and POPB with port `P` at rest run to their answer, and the queue loses at its
front what the answer delivers. -/

namespace Sys2Proof.Machine

variable {s t u : State}

/-! ### What is delivered leaves the queue (10_state R41) -/

theorem delivered_of_done_append {d : Done} (h : t.portC.done = s.portC.done ++ [d]) :
    delivered t = delivered s ++ deliveredBy d := by
  simp [delivered, h]

/-- FIFO in both states: where only `xs` was delivered meanwhile, `xs` has left the queue at its front. -/
theorem queue_of_delivered {xs : List Elem} (hs : RingInv s) (ht : RingInv t) (hP : t.portP = s.portP)
    (hdel : delivered t = delivered s ++ xs) : queue s = xs ++ queue t := by
  have hacc : accepted t = accepted s := by rw [accepted, accepted, hP]
  have hfifo : delivered s ++ queue s = delivered s ++ (xs ++ queue t) := by
    rw [← List.append_assoc, ← hdel, ← ht.fifo, hacc, hs.fifo]
  exact List.append_cancel_left hfifo

/-! ### POP alone (41_pop R152) -/

theorem RingInv.isEmptyOf_iff (h : RingInv s) : isEmptyOf s.head s.tail = true ↔ queue s = [] := by
  rw [← List.length_eq_zero_iff, h.queue_length]
  exact Machine.isEmptyOf_iff h.head_lt h.tail_lt

/-- The slot at `tail` holds the front of a queue that is not empty. -/
theorem RingInv.queueSlot_zero (h : RingInv s) (hlive : isEmptyOf s.head s.tail = false) :
    ∃ e, queueSlot s 0 = some e := by
  have hocc : occ s ≠ 0 := fun h0 => by simp [(Machine.isEmptyOf_iff h.head_lt h.tail_lt).2 h0] at hlive
  exact Option.isSome_iff_exists.1 (h.live_written 0 (Nat.pos_of_ne_zero hocc))

/-- Settles O28: from an empty queue the second micro-step answers; otherwise the answer delivers the element at `tail`,
and by FIFO that was the front of the queue. -/
theorem popAlone : Obligations.PopAlone := by
  unfold Obligations.PopAlone
  intro s hinv _
  have hempty := hinv.ring.isEmptyOf_iff
  cases he : isEmptyOf s.head s.tail with
  | true =>
    exact ⟨_, runCommand_pop_of_empty 2 he, rfl, rfl, rfl, rfl, rfl,
      fun e q hq => by simp [hempty.1 he] at hq, fun _ => ⟨rfl, rfl⟩⟩
  | false =>
    obtain ⟨front, hfront⟩ := hinv.ring.queueSlot_zero he
    obtain ⟨t, hrun, hidle, hP, hhead, hslots, hmem, hdone⟩ :
        ∃ t, runCommand 4 .pop (begun .C .pop s) = .next t ∧ t.portC.busy = false ∧ t.portP = s.portP ∧
          t.head = s.head ∧ t.slots = s.slots ∧ t.mem = s.mem ∧
          t.portC.done = s.portC.done ++ [{ req := some .pop, resp := .okWith 1 (.item front) }] :=
      ⟨_, runCommand_pop_of_live 0 he hfront, rfl, rfl, rfl, rfl, rfl, rfl⟩
    have hinvt : Inv t := runCommand_keeps_inv (hinv.begun (x := .C) rfl rfl) rfl hrun
    have hdel : delivered t = delivered s ++ [front] := delivered_of_done_append hdone
    have hqueue : queue s = front :: queue t := queue_of_delivered hinv.ring hinvt.ring hP hdel
    refine ⟨t, hrun, hidle, hP, hhead, hslots, hmem, fun e q hq => ?_, fun hq => by simp [hqueue] at hq⟩
    obtain ⟨rfl, rfl⟩ := List.cons.inj (hqueue.symm.trans hq)
    refine ⟨rfl, ?_, hdone⟩
    rw [ghostT, hdel, List.length_append]; rfl

/-! ### POPB alone (41_pop R156, R157) -/

/-- A POPB in flight that was accepted in `s`: the ring is untouched and nothing answered yet, and from PC3 on the latch
`n` is the count the answer will give. -/
structure PopbUnreleased (s : State) (k : Nat) (u : State) : Prop where
  head : u.head = s.head
  tail : u.tail = s.tail
  slots : u.slots = s.slots
  done : u.portC.done = s.portC.done
  count : u.portC.ph = .pc3 ∨ u.portC.ph = .pc4 → u.portC.n = k

/-- A POPB that was accepted in `s` has answered with `k` elements; of the ring only `tail` can have changed. -/
structure PopbAnswered (s : State) (cnt k : Nat) (t : State) : Prop where
  head : t.head = s.head
  slots : t.slots = s.slots
  answer : ∃ es, es.length = k ∧
    t.portC.done = s.portC.done ++ [{ req := some (.popb cnt), resp := .okWith k (.items es) }]

/-- With port `P` at rest the occupancy PC2 sees is the occupancy there was when the command was accepted. -/
theorem occOf_pc2_eq_occ {cnt k : Nat} (ht : s.turn = .C) (hinv : Inv u) (hb : u.here.busy = true)
    (hr : u.here.req = .popb cnt) (halone : LeavesAlone s u) (hF : PopbUnreleased s k u)
    (hp : u.portC.ph = .pc2) : occOf u.cfg u.head u.portC.t = occ s := by
  have htu : u.turn = .C := halone.turn.trans ht
  have htail : u.portC.t = u.tail :=
    (consumerLatches_pc2 (by rw [← State.here_eq_portC u htu, hr]) hp).1 (hinv.consumerLatches hb htu)
  rw [htail, hF.tail, hF.head, halone.cfg]; rfl

/-- A micro-step of a POPB that is alone leaves it unreleased, or answers the count. -/
theorem execPopb_unreleased {cnt : Nat} (ht : s.turn = .C) (hinv : Inv u) (hb : u.here.busy = true)
    (hr : u.here.req = .popb cnt) (halone : LeavesAlone s u) (hF : PopbUnreleased s (min cnt (occ s)) u)
    (h : execPopb cnt u = .next t) :
    (t.here.busy = true → PopbUnreleased s (min cnt (occ s)) t) ∧
    (t.here.busy = false → PopbAnswered s cnt (min cnt (occ s)) t) := by
  have hseen := occOf_pc2_eq_occ ht hinv hb hr halone hF
  obtain ⟨hhead, htail, hslots, hdone, hcount⟩ := hF
  have htu : u.turn = .C := halone.turn.trans ht
  have hhere := State.here_eq_portC u htu
  obtain ⟨hP, -⟩ | ⟨-, hp, rfl⟩ | ⟨-, hp, hn, rfl⟩ | ⟨-, hp, -, rfl⟩ | ⟨-, hp, e, -, rfl⟩ | ⟨-, hp, rfl⟩ :=
    execPopb_next h
  · simp [htu] at hP
  · refine ⟨fun _ => ?_, fun hidle => by simp [hb] at hidle⟩
    rw [goto_setHere_C _ _ htu, hhere]
    exact ⟨hhead, htail, hslots, hdone, by simp⟩
  · refine ⟨fun hbusy => by simp at hbusy, fun _ => ?_⟩
    rw [hseen hp] at hn
    rw [respond_C _ _ (by simpa using htu), State.setHere_C _ _ htu, hhere, hn]
    exact ⟨hhead, hslots, [], rfl, by simp [answered, hdone]⟩
  · refine ⟨fun _ => ?_, fun hidle => by simp [hb] at hidle⟩
    rw [goto_setHere_C _ _ htu, hhere]
    exact ⟨hhead, htail, hslots, hdone, fun _ => congrArg (min cnt) (hseen hp)⟩
  · refine ⟨fun _ => ?_, fun hidle => by simp [hb] at hidle⟩
    rw [goto_setHere_C _ _ htu, hhere]
    exact ⟨hhead, htail, hslots, hdone, fun _ => hcount (.inl hp)⟩
  · refine ⟨fun hbusy => by simp at hbusy, fun _ => ?_⟩
    have hreq : u.portC.req = .popb cnt := by rw [← hhere, hr]
    obtain ⟨-, -, -, -, hlen, -⟩ := (consumerLatches_pc4 hreq hp).1 (hinv.consumerLatches hb htu)
    have hk := hcount (.inr hp)
    rw [respond_C _ _ (by simpa using htu), hk]
    exact ⟨hhead, hslots, u.portC.out, hlen.trans hk, by simp [answered, hdone]⟩

/-- Settles O29: the command alone answers with as many elements as it counts at PC2, and by FIFO these were the front of
the queue. -/
theorem popbAlone : Obligations.PopbAlone := by
  unfold Obligations.PopbAlone
  intro s cnt hinv _ hcnt
  have hbegun : Inv (begun .C (.popb cnt) s) := hinv.begun (by simpa [Instr.wf] using hcnt) rfl
  obtain ⟨t, hrun, hidle, halone, hhead, hslots, es, hlen, hdone⟩ := runCommand_answers (n := cnt + 4)
    (fun u v hu hb hr ha hF h => execPopb_unreleased rfl hu hb hr ha hF h) hbegun rfl rfl
    le_rfl (.refl _) ⟨rfl, rfl, rfl, rfl, by simp [begun_C, firstPhase]⟩
  have hinvt : Inv t := runCommand_keeps_inv hbegun rfl hrun
  have hP : t.portP = s.portP := halone.other .P nofun
  have hqueue : queue s = es ++ queue t :=
    queue_of_delivered hinv.ring hinvt.ring hP (delivered_of_done_append hdone)
  have hfront : (queue s).take (min cnt (occ s)) = es := by
    rw [hqueue]; exact List.take_left' hlen
  refine ⟨t, hrun, ?_, hP, hhead, hslots, halone.mem, ?_, ?_⟩
  · rwa [State.here_eq_portC t halone.turn] at hidle
  · rw [hfront]; exact hqueue
  · rw [hfront]; exact hdone

end Sys2Proof.Machine
end

section
/-! PROOFS, spec/42_query.md R175, R176. A query with the other port at rest answers from the cursors as they are and
leaves the queue alone; CAP answers the capacity in its one micro-step. -/

namespace Sys2Proof.Machine

variable {s : State} {i : Instr} {f : Config → Nat → Nat → Nat}

/-! ### CAP (42_query R176) -/

/-- Settles O32: the one micro-step of CAP is its response, on whichever port has the turn. -/
theorem capAnswersTheCapacity : Obligations.CapAnswersTheCapacity := by
  unfold Obligations.CapAnswersTheCapacity
  refine ⟨⟨rfl, rfl, fun x => by cases x <;> rfl⟩, fun s => ?_⟩
  rw [exec, execCap, respond, Response.okRet, Config.capacity, answered]

/-! ### A query alone (42_query R174, R175) -/

/-- The two micro-steps of a query alone latch the two cursors as they were when it was accepted, on either port. -/
theorem runCommand_query (x : Port) (hexec : ∀ u, exec i u = queryStep i f u)
    (hfirst : firstPhase x i = firstPhase x .size) :
    ∃ t, runCommand 2 i (begun x i s) = .next t ∧
      lastRet (t.port x) = f s.cfg s.head s.tail ∧ queue t = queue s := by
  cases x with
  | P =>
    have hload := (hexec (begun .P i s)).trans (queryStep_qp1 f rfl hfirst)
    exact ⟨_, (runCommand_succ_of_busy hload rfl).trans
        (runCommand_succ_of_idle ((hexec _).trans (queryStep_qp2 f rfl rfl)) rfl),
      lastRet_answered _ _ _, rfl⟩
  | C =>
    have hload := (hexec (begun .C i s)).trans (queryStep_qc1 f rfl hfirst)
    exact ⟨_, (runCommand_succ_of_busy hload rfl).trans
        (runCommand_succ_of_idle ((hexec _).trans (queryStep_qc2 f rfl rfl)) rfl),
      lastRet_answered _ _ _, rfl⟩

theorem retOfBool_eq_one_iff (b : Bool) : retOfBool b = 1 ↔ b = true := by cases b <;> decide

theorem retOfBool_eq_zero_iff (b : Bool) : retOfBool b = 0 ↔ ¬ b = true := by cases b <;> decide

theorem RingInv.isFullOf_iff_queue_length (h : RingInv s) :
    isFullOf s.cfg s.head s.tail = true ↔ (queue s).length = s.cfg.capacity - 1 := by
  have := occ_add_room s
  rw [h.isFullOf_iff, h.queue_length]
  omega

/-- Settles O33: each query answers from the cursors as they are, which under the invariant count the queue. -/
theorem queriesAloneAreExact : Obligations.QueriesAloneAreExact := by
  unfold Obligations.QueriesAloneAreExact
  intro s x hinv _
  have hempty := hinv.ring.isEmptyOf_iff
  have hfull := hinv.ring.isFullOf_iff_queue_length
  obtain ⟨t, ht, htret, htq⟩ := runCommand_query (s := s) (i := .isempty) x (fun _ => by rw [exec, execIsempty]) rfl
  obtain ⟨u, hu, huret, huq⟩ := runCommand_query (s := s) (i := .isfull) x (fun _ => by rw [exec, execIsfull]) rfl
  obtain ⟨v, hv, hvret, hvq⟩ := runCommand_query (s := s) (i := .size) x (fun _ => by rw [exec, execSize]) rfl
  refine ⟨t, u, v, ht, hu, hv, ?_, ?_, ?_, ?_, ?_, htq, huq, hvq⟩
  · rw [hvret, hinv.ring.queue_length]; rfl
  · rw [htret, retOfBool_eq_one_iff, hempty]
  · rw [htret, retOfBool_eq_zero_iff, hempty]
  · rw [huret, retOfBool_eq_one_iff, hfull]
  · rw [huret, retOfBool_eq_zero_iff, hfull]

end Sys2Proof.Machine
end

section
/-! PROOFS, spec/43_checksum.md R191 to R193, R197. The default function, CRC-32/ISO-HDLC: the shift step is linear over
XOR and loses nothing, so neither does the byte step; where the low bits are clear it is a shift, which is the table
method. -/

namespace Sys2Proof.Machine

variable {c : Word32} {n : Nat}

/-! ### The shift step (43_checksum R191) -/

/-- What a shift step adds to the right shift: the polynomial, where the bit shifted out is 1. -/
def crcFeedback (b : Bool) : Word32 := if b then crcPoly else 0

theorem crcShift_eq (c : Word32) : crcShift c = c >>> 1 ^^^ crcFeedback (c.getLsbD 0) := by
  rw [crcShift, crcFeedback]
  split <;> simp

theorem crcFeedback_xor (a b : Bool) : crcFeedback (a ^^ b) = crcFeedback a ^^^ crcFeedback b := by
  cases a <;> cases b <;> decide

theorem crcShift_xor (c d : Word32) : crcShift (c ^^^ d) = crcShift c ^^^ crcShift d := by
  rw [crcShift_eq, crcShift_eq c, crcShift_eq d, BitVec.getLsbD_xor, crcFeedback_xor, BitVec.ushiftRight_xor_distrib]
  ac_rfl

/-- The bit shifted out is still there: the polynomial has bit 31 set, which the right shift leaves clear. -/
theorem getLsbD_crcShift_31 (c : Word32) : (crcShift c).getLsbD 31 = c.getLsbD 0 := by
  have hpoly (b : Bool) : (crcFeedback b).getLsbD 31 = b := by cases b <;> rfl
  rw [crcShift_eq, BitVec.getLsbD_xor, hpoly, BitVec.getLsbD_ushiftRight, BitVec.getLsbD_of_ge _ _ (by omega),
    Bool.false_xor]

theorem crcShift_injective : Function.Injective crcShift := by
  intro c d h
  have hlow : c.getLsbD 0 = d.getLsbD 0 := by rw [← getLsbD_crcShift_31, h, getLsbD_crcShift_31]
  have hhigh : c >>> 1 = d >>> 1 := by rwa [crcShift_eq, crcShift_eq, hlow, BitVec.xor_left_inj] at h
  refine BitVec.eq_of_getLsbD_eq fun k _ => ?_
  cases k with
  | zero => exact hlow
  | succ k => simpa [Nat.add_comm] using congrArg (BitVec.getLsbD · k) hhigh

theorem crcShifts_injective (n : Nat) : Function.Injective (crcShifts n) := by
  induction n with
  | zero => exact Function.injective_id
  | succ n ih => exact ih.comp crcShift_injective

theorem crcShifts_xor (n : Nat) (c d : Word32) : crcShifts n (c ^^^ d) = crcShifts n c ^^^ crcShifts n d := by
  induction n generalizing c d with
  | zero => rfl
  | succ n ih => rw [crcShifts, crcShift_xor, ih]; rfl

/-- Where the bits shifted out are clear, the polynomial never enters. -/
theorem crcShifts_of_low_clear (h : ∀ k < n, c.getLsbD k = false) : crcShifts n c = c >>> n := by
  induction n generalizing c with
  | zero => simp [crcShifts]
  | succ n ih =>
    have hstep : crcShift c = c >>> 1 := by
      rw [crcShift_eq, h 0 (by omega)]; exact BitVec.xor_zero
    have hrest : ∀ k < n, (c >>> 1).getLsbD k = false := fun k hk => by
      simpa [Nat.add_comm] using h (k + 1) (by omega)
    rw [crcShifts, hstep, ih hrest, ← BitVec.shiftRight_add, Nat.add_comm]

/-! ### The byte step and the table method (43_checksum R191, R192) -/

theorem crcByte_left_injective (b : Byte) : Function.Injective (crcByte · b) :=
  fun _ _ h => (BitVec.xor_left_inj _).1 (crcShifts_injective 8 h)

theorem crcByte_right_injective (c : Word32) : Function.Injective (crcByte c) := by
  intro a b h
  have hzext : a.setWidth 32 = b.setWidth 32 := (BitVec.xor_right_inj c).1 (crcShifts_injective 8 h)
  simpa using congrArg (BitVec.setWidth 8) hzext

/-- A byte is gone once the register is shifted by a byte. -/
theorem ushiftRight_eight_xor_byte (c : Word32) (b : Byte) : (c ^^^ b.setWidth 32) >>> 8 = c >>> 8 := by
  refine BitVec.eq_of_getLsbD_eq fun k _ => ?_
  simp

/-- Eight shift steps move the three upper bytes down and look the low byte up. -/
theorem crcShifts_eight (c : Word32) : crcShifts 8 c = (c >>> 8) ^^^ crcTable (c.setWidth 8) := by
  have hclear : ∀ k < 8, (c ^^^ (c.setWidth 8).setWidth 32).getLsbD k = false := fun k hk => by
    simp [hk, show k < 32 by omega]
  calc crcShifts 8 c
    _ = crcShifts 8 ((c ^^^ (c.setWidth 8).setWidth 32) ^^^ (c.setWidth 8).setWidth 32) := by simp
    _ = (c ^^^ (c.setWidth 8).setWidth 32) >>> 8 ^^^ crcTable (c.setWidth 8) := by
      rw [crcShifts_xor, crcShifts_of_low_clear hclear, crcTable]
    _ = c >>> 8 ^^^ crcTable (c.setWidth 8) := by rw [ushiftRight_eight_xor_byte]

theorem crcTableByte_eq_crcByte (c : Word32) (b : Byte) : crcTableByte c b = crcByte c b := by
  rw [crcByte, crcShifts_eight, ushiftRight_eight_xor_byte, crcTableByte]

/-- Settles O41: one byte step is one table look-up, for every register and byte; the entries are computed. -/
theorem tableMethodAgrees : Obligations.TableMethodAgrees := by
  unfold Obligations.TableMethodAgrees
  exact ⟨crcTableByte_eq_crcByte, by decide +kernel⟩

/-! ### Byte sequences (43_checksum R193, R197) -/

theorem crcBytes_left_injective (bs : List Byte) : Function.Injective (crcBytes · bs) := by
  induction bs with
  | nil => exact Function.injective_id
  | cons b bs ih => exact ih.comp (crcByte_left_injective b)

/-- Settles O39: the changed byte changes the register, and the bytes after it and the final XOR keep the difference. -/
theorem oneChangedByteChangesTheCode : Obligations.OneChangedByteChangesTheCode := by
  unfold Obligations.OneChangedByteChangesTheCode
  intro before after a b hab heq
  have hreg : crcBytes crcOnes (before ++ a :: after) = crcBytes crcOnes (before ++ b :: after) :=
    (BitVec.xor_left_inj crcOnes).1 heq
  simp only [crcBytes, List.foldl_append, List.foldl_cons] at hreg
  exact hab (crcByte_right_injective _ (crcBytes_left_injective after hreg))

/-- Settles O40: the register is a closed value after every shift step and every byte. -/
theorem checksumTraceValues : Obligations.ChecksumTraceValues := by
  unfold Obligations.ChecksumTraceValues
  decide +kernel

end Sys2Proof.Machine
end

section
/-! PROOFS, spec/20_memory.md R52, spec/43_checksum.md R194, R195. The checksum loop micro-step by micro-step, and alone
over a range it can read: it answers from the bytes of the range. -/

namespace Sys2Proof.Machine

variable {i : Instr} {s : State} {addr len n : Nat} {answer : Word32 → Response}

theorem rangeLegal_eq_true_iff (c : Config) (addr len : Nat) :
    rangeLegal c addr len = true ↔ addr + len ≤ 2 ^ c.paddrBits := by
  simp [rangeLegal]

theorem rangeLegal_eq_false_iff (c : Config) (addr len : Nat) :
    rangeLegal c addr len = false ↔ 2 ^ c.paddrBits < addr + len := by
  simp [rangeLegal]

/-- Settles O34: the three commands run the one loop, whose micro-steps are known. -/
theorem checksumLoopMicroSteps : Obligations.ChecksumLoopMicroSteps := by
  unfold Obligations.ChecksumLoopMicroSteps
  intro s i addr len hi
  obtain ⟨answer, hexec⟩ := ReadsPayload.exec_eq hi
  rw [hexec s]
  exact ⟨fun hp hgt => checksumStep_ck0_of_illegal hp ((rangeLegal_eq_false_iff _ _ _).2 hgt),
    fun hp hle => checksumStep_ck0_of_legal hp ((rangeLegal_eq_true_iff _ _ _).2 hle),
    fun _ hp hb => checksumStep_ck1_of_readable hp hb,
    fun hp hb => checksumStep_ck1_of_unreadable hp hb⟩

/-! ### The bytes of a payload range (20_memory R52) -/

theorem payloadBytes_succ_eq_some_iff {bs : List Byte} : payloadBytes addr (len + 1) s = some bs ↔
    ∃ b rest, memRead addr s = some b ∧ payloadBytes (addr + 1) len s = some rest ∧ b :: rest = bs := by
  have hshift : (List.range len).mapM ((fun k => memRead (addr + k) s) ∘ Nat.succ) =
      payloadBytes (addr + 1) len s := by
    simp only [payloadBytes, Function.comp_def, Nat.succ_eq_add_one, Nat.add_comm, Nat.add_left_comm]
  rw [payloadBytes, List.range_succ_eq_map, List.mapM_cons, List.mapM_map, hshift]
  simp [Option.bind_eq_some_iff]

@[simp] theorem payloadBytes_zero (addr : Nat) (s : State) : payloadBytes addr 0 s = some [] := rfl

@[simp] theorem payloadBytes_setHere (addr len : Nat) (s : State) (p : PortState) :
    payloadBytes addr len (s.setHere p) = payloadBytes addr len s := by
  simp [payloadBytes]

/-! ### The loop alone over a readable range (43_checksum R194) -/

/-- The run of command `i` from `s` ends with the response `r`, and nothing but its own port has changed: what
`EndsWithPayloadFault` says of one response. -/
def EndsWith (n : Nat) (i : Instr) (r : Response) (s : State) : Prop :=
  ∃ p : PortState, runCommand n i s = .next (s.setHere p) ∧ p.busy = false ∧
    p.done = s.here.done ++ [{ req := some i, resp := r }]

theorem endsWith_of_respond {r : Response} (h : exec i s = .next (respond (some i) r s)) : EndsWith (n + 1) i r s :=
  ⟨_, runCommand_succ_of_idle h (by simp), rfl, rfl⟩

/-- A micro-step that goes on, and the rest of the run. -/
theorem EndsWith.of_step {r : Response} {q : PortState} (h : exec i s = .next (s.setHere q)) (hb : q.busy = true)
    (hd : q.done = s.here.done) (hrest : EndsWith n i r (s.setHere q)) : EndsWith (n + 1) i r s := by
  obtain ⟨p, hrun, hidle, hdone⟩ := hrest
  refine ⟨p, ?_, hidle, by rw [hdone, State.setHere_here, hd]⟩
  rw [runCommand_succ_of_busy h (by simpa using hb), hrun, State.setHere_setHere]

/-- With `n` bytes still to read, all of them readable, the loop reads them and answers from all bytes read. -/
theorem endsWith_loop (hexec : ∀ s, exec i s = checksumStep i addr len answer s) {rest : List Byte} {code : Word32}
    (hp : s.here.ph = if s.here.i < len then .ck1 else .ck2) (hb : s.here.busy = true)
    (hacc : s.here.acc = crcBytes crcOnes s.here.bytes) (hlen : s.here.i + n = len)
    (hread : payloadBytes (addr + s.here.i) n s = some rest)
    (hcode : crc32 s.cfg (s.here.bytes ++ rest) = code) : EndsWith (n + 1) i (answer code) s := by
  induction n generalizing s rest with
  | zero =>
    rw [if_neg (by omega)] at hp
    obtain rfl : [] = rest := by simpa using hread
    rw [← hcode, List.append_nil]
    exact endsWith_of_respond ((hexec s).trans (checksumStep_ck2 addr len answer hp hacc))
  | succ n ih =>
    rw [if_pos (by omega)] at hp
    obtain ⟨b, rest, hbyte, hread', rfl⟩ := payloadBytes_succ_eq_some_iff.1 hread
    refine .of_step ((hexec s).trans (checksumStep_ck1_of_readable hp hbyte)) hb rfl
      (ih (rest := rest) ?_ ?_ ?_ ?_ ?_ ?_)
    · simp
    · simpa using hb
    · simp [hacc, crcBytes_append]
    · simp only [State.setHere_here]; omega
    · simpa [Nat.add_assoc] using hread'
    · simpa using hcode

/-- From CK0 over a legal, readable range. -/
theorem endsWith_ck0 (hexec : ∀ s, exec i s = checksumStep i addr len answer s) {bs : List Byte}
    (hp : s.here.ph = .ck0) (hb : s.here.busy = true) (hle : addr + len ≤ 2 ^ s.cfg.paddrBits)
    (hread : payloadBytes addr len s = some bs) :
    EndsWith (len + 2) i (answer (crc32 s.cfg bs)) s := by
  have hleg := (rangeLegal_eq_true_iff _ _ _).2 hle
  refine .of_step ((hexec s).trans (checksumStep_ck0_of_legal hp hleg)) hb rfl
    (endsWith_loop hexec (rest := bs) ?_ ?_ ?_ ?_ ?_ ?_)
  · cases len <;> simp
  · simpa using hb
  · simp [crcBytes]
  · simp
  · simpa using hread
  · simp

/-- A command that reads a legal, readable payload, alone from its acceptance on port `x`, answers from the code of
exactly those bytes and changes that port only. -/
theorem runCommand_of_readable {bs : List Byte} {x : Port} (hexec : ∀ s, exec i s = checksumStep i addr len answer s)
    (hfirst : firstPhase x i = .ck0) (hle : addr + len ≤ 2 ^ s.cfg.paddrBits)
    (hread : payloadBytes addr len s = some bs) :
    ∃ p : PortState, runCommand (len + 2) i (begun x i s) = .next (State.setPort { s with turn := x } x p) ∧
      p.busy = false ∧ p.done = (s.port x).done ++ [{ req := some i, resp := answer (crc32 s.cfg bs) }] := by
  have hhere := begun_here x i s
  have hle' : addr + len ≤ 2 ^ (begun x i s).cfg.paddrBits := by simpa [begun] using hle
  have hread' : payloadBytes addr len (begun x i s) = some bs := by simpa [begun, payloadBytes, memRead] using hread
  obtain ⟨p, hrun, hidle, hdone⟩ := endsWith_ck0 hexec (by rw [hhere, hfirst]) (by rw [hhere]) hle' hread'
  rw [begun_setHere] at hrun
  refine ⟨p, hrun, hidle, ?_⟩
  rw [hdone, hhere]
  simp [begun]

/-- Settles O36: the loop alone ends with the code of the bytes of the range, in the state with its port replaced. -/
theorem crc32OfReadablePayload : Obligations.Crc32OfReadablePayload := by
  unfold Obligations.Crc32OfReadablePayload
  intro s x addr len bs hle hread
  obtain ⟨p, hrun, hidle, hdone⟩ := runCommand_of_readable (i := .crc32 addr len) (x := x)
    (answer := fun r => .okWith 1 (.code r)) (fun u => by rw [exec, execCrc32]) rfl hle hread
  refine ⟨_, hrun, by simpa using hidle, ?_, by simp, by simp, by simp, by simp⟩
  rw [State.setPort_port_same, hdone, Response.okWith]

end Sys2Proof.Machine
end

section
/-! PROOFS, spec/30_encoding.md R113, spec/44_envelope.md R211 to R213. A Message that MKMSG has built over a readable
payload verifies as long as payload memory stays as it is. -/

namespace Sys2Proof.Machine

variable {s t : State} {addr : Nat} {bs : List Byte}

theorem payloadBytes_of_mem_eq (h : t.mem = s.mem) (addr len : Nat) :
    payloadBytes addr len t = payloadBytes addr len s := by
  simp only [payloadBytes, memRead, h]

/-- What MKMSG builds from the code of a payload is well-formed wherever that payload is still in memory. -/
theorem messageWellFormed_makeMsg (id ts : Word64) (topic flags : Word32) {len : Word32}
    (hread : payloadBytes addr len.toNat s = some bs) (hcfg : t.cfg = s.cfg) (hmem : t.mem = s.mem) :
    messageWellFormed (makeMsg id ts topic flags addr len (crc32 s.cfg bs)) t :=
  ⟨bs, (payloadBytes_of_mem_eq hmem _ _).trans hread, by rw [hcfg, makeMsg]⟩

/-- MKMSG alone over a legal, readable payload answers with the Message of its operands and the code of exactly those
bytes, and leaves configuration and payload memory alone. -/
theorem runCommand_mkmsg_of_readable (x : Port) (id ts : Word64) (topic flags : Word32) {len : Word32}
    (hle : addr + len.toNat ≤ 2 ^ s.cfg.paddrBits) (hread : payloadBytes addr len.toNat s = some bs) :
    ∃ t, runCommand (len.toNat + 2) (.mkmsg id ts topic flags addr len)
        (begun x (.mkmsg id ts topic flags addr len) s) = .next t ∧ t.cfg = s.cfg ∧ t.mem = s.mem ∧
      (t.port x).done = (s.port x).done ++
        [{ req := some (.mkmsg id ts topic flags addr len),
           resp := ⟨.ok, 1, .msg (makeMsg id ts topic flags addr len (crc32 s.cfg bs))⟩ }] := by
  obtain ⟨p, hrun, -, hdone⟩ := runCommand_of_readable (i := .mkmsg id ts topic flags addr len) (x := x)
    (answer := fun r => .okWith 1 (.msg (makeMsg id ts topic flags addr len r)))
    (fun u => by rw [exec, execMkmsg]) rfl hle hread
  exact ⟨_, hrun, by simp, by simp, by rw [State.setPort_port_same, hdone, Response.okWith]⟩

/-- VERIFY alone of a well-formed Message over a legal range answers 1: it recomputes the code that is stored. -/
theorem runCommand_verify_of_wellFormed (y : Port) {m : Msg} (hwf : messageWellFormed m s)
    (hle : m.pref + m.hdr.size.toNat ≤ 2 ^ s.cfg.paddrBits) :
    ∃ u, runCommand (m.hdr.size.toNat + 2) (.verify m) (begun y (.verify m) s) = .next u ∧
      (u.port y).done = (s.port y).done ++ [{ req := some (.verify m), resp := ⟨.ok, 1, .none⟩ }] := by
  obtain ⟨bs, hread, hcode⟩ := hwf
  obtain ⟨p, hrun, -, hdone⟩ := runCommand_of_readable (i := .verify m) (x := y)
    (answer := fun r => .okRet (retOfBool (r == m.hdr.crc32))) (fun u => by rw [exec, execVerify]) rfl hle hread
  have hret : retOfBool (crc32 s.cfg bs == m.hdr.crc32) = 1 := by
    rw [retOfBool_eq_one_iff, beq_iff_eq, hcode]
  exact ⟨_, hrun, by rw [State.setPort_port_same, hdone, hret, Response.okRet]⟩

/-- Settles O38: the Message MKMSG answers with is well-formed in the state MKMSG leaves, and VERIFY of a well-formed
Message answers 1. -/
theorem verifyAfterConstruction : Obligations.VerifyAfterConstruction := by
  unfold Obligations.VerifyAfterConstruction
  intro s x y id ts topic flags addr len bs hle hread
  obtain ⟨t, hmake, hcfg, hmem, hdone⟩ := runCommand_mkmsg_of_readable x id ts topic flags hle hread
  have hwf := messageWellFormed_makeMsg id ts topic flags hread hcfg hmem
  obtain ⟨u, hverify, hanswer⟩ := runCommand_verify_of_wellFormed y hwf (by rwa [hcfg])
  exact ⟨t, _, u, hmake, hdone, hwf, rfl, rfl, hverify, hanswer⟩

end Sys2Proof.Machine
end

section
/-! PROOFS, spec/44_envelope.md R216 to R220. The flag commands answer in one micro-step, and the operations on the
field act on each of its bits by itself. -/

namespace Sys2Proof.Machine

/-! ### The flag commands (44_envelope R216 to R218) -/

theorem retOfBool_flagsTest (f a : Word32) : retOfBool (flagsTest f a) = if f &&& a = 0 then 0 else 1 := by
  by_cases h : f &&& a = 0 <;> simp [retOfBool, flagsTest, h]

/-- Settles O42: the one micro-step of each command is its response, on whichever port has the turn. -/
theorem flagCommandsAnswer : Obligations.FlagCommandsAnswer := by
  unfold Obligations.FlagCommandsAnswer
  refine ⟨⟨rfl, rfl, rfl, ?_⟩, fun s mask m => ⟨?_, ?_, ?_⟩⟩
  · intro o ho
    fin_cases ho <;> exact ⟨rfl, fun x => by cases x <;> rfl⟩
  · rw [exec, execFset, respond, Response.okWith, withFlags, flagsSet, answered]
  · rw [exec, execFclr, respond, Response.okWith, withFlags, flagsClear, answered]
  · rw [exec, execFtst, respond, Response.okRet, retOfBool_flagsTest, answered]

/-! ### The operations bit by bit -/

theorem getLsbD_flagsSet (f a : Word32) (k : Nat) : (flagsSet f a).getLsbD k = (f.getLsbD k || a.getLsbD k) := by
  rw [flagsSet, BitVec.getLsbD_or]

theorem getLsbD_flagsClear (f a : Word32) {k : Nat} (hk : k < 32) :
    (flagsClear f a).getLsbD k = (f.getLsbD k && !a.getLsbD k) := by
  simp [flagsClear, hk]

theorem getLsbD_one_shiftLeft_of_ne {j k : Nat} (hjk : j ≠ k) : (1#32 <<< j).getLsbD k = false := by
  simp [← BitVec.twoPow_eq, BitVec.getLsbD_twoPow, hjk]

/-- A one-bit mask tests its bit. -/
theorem flagsTest_one_shiftLeft (f : Word32) {k : Nat} (hk : k < 32) : flagsTest f (1#32 <<< k) = f.getLsbD k := by
  have hne : BitVec.twoPow 32 k ≠ 0#32 := fun h => by simpa [hk] using congrArg (BitVec.getLsbD · k) h
  rw [flagsTest, ← BitVec.twoPow_eq, BitVec.and_twoPow]
  cases f.getLsbD k <;> simp [hne]

/-! ### The laws (44_envelope R220) -/

theorem flagsTest_flagsSet_same {a : Word32} (f : Word32) (ha : a ≠ 0) : flagsTest (flagsSet f a) a = true := by
  have habsorb : flagsSet f a &&& a = a := by ext k; simpa [flagsSet] using Or.inr
  rw [flagsTest, habsorb, bne_iff_ne]
  exact ha

theorem flagsTest_flagsClear_same (f a : Word32) : flagsTest (flagsClear f a) a = false := by
  have hnone : flagsClear f a &&& a = 0 := by
    rw [flagsClear, BitVec.and_assoc, BitVec.not_and_self]; exact BitVec.and_zero
  rw [flagsTest, hnone, bne_self_eq_false]

theorem flagsSet_flagsSet (f a b : Word32) : flagsSet (flagsSet f a) b = flagsSet f (a ||| b) := by
  rw [flagsSet, flagsSet, flagsSet, BitVec.or_assoc]

theorem flagsClear_flagsClear (f a b : Word32) : flagsClear (flagsClear f a) b = flagsClear f (a ||| b) := by
  rw [flagsClear, flagsClear, flagsClear, BitVec.not_or, BitVec.and_assoc]

/-- Settles O43: a one-bit mask tests its bit, which another one-bit mask leaves alone; applying two masks one after the
other is applying their union, which gives idempotence and commutation. -/
theorem flagLaws : Obligations.FlagLaws := by
  unfold Obligations.FlagLaws
  refine ⟨fun f j k _ hk hjk => ?_, fun f a => ⟨flagsTest_flagsSet_same f, flagsTest_flagsClear_same f a⟩,
    fun f a => ?_, fun f a b => ?_, by decide, fun m f => ⟨rfl, rfl, rfl⟩⟩
  · have hother := getLsbD_one_shiftLeft_of_ne hjk
    simp [flagsTest_one_shiftLeft _ hk, getLsbD_flagsSet, getLsbD_flagsClear _ _ hk, hother]
  · rw [flagsSet_flagsSet, flagsClear_flagsClear, BitVec.or_self]
    exact ⟨rfl, rfl⟩
  · rw [flagsSet_flagsSet, flagsSet_flagsSet, flagsClear_flagsClear, BitVec.or_comm b a]
    exact ⟨rfl, rfl, rfl⟩

end Sys2Proof.Machine
end

section
/-! PROOFS, spec/60_exceptions.md R231 to R233, R245, R249, R252. What a micro-step answers and what an error response
changes, the record of responses along a run, and the turn of a port that has nothing to do. -/

namespace Sys2Proof.Machine

variable {i : Instr} {s t u : State} {d : Done} {r : Response}

/-! ### The responses a command can give (60_exceptions R231) -/

/-- The responses of command `i`: `ST_OK`, the refusal of the port, or the payload fault of a command that reads payload
memory. -/
inductive ResponseOf (i : Instr) : Response → Prop
  | ok {r : Response} : r.status = .ok → ResponseOf i r
  | illegal : ResponseOf i .illegal
  | payloadFault : i.op = .crc32 ∨ i.op = .mkmsg ∨ i.op = .verify → ResponseOf i .payloadFault

/-- A response other than `ST_OK` carries nothing, and only a command that reads payload memory gives `ST_PAYLOAD`. -/
theorem ResponseOf.of_status_ne_ok (h : ResponseOf i r) (hne : r.status ≠ .ok) :
    r.ret = 0 ∧ r.extra = .none ∧ (r.status = .payload → i.op = .crc32 ∨ i.op = .mkmsg ∨ i.op = .verify) := by
  cases h with
  | ok hok => exact absurd hok hne
  | illegal => exact ⟨rfl, rfl, nofun⟩
  | payloadFault hop => exact ⟨rfl, rfl, fun _ => hop⟩

/-- A micro-step of `i` from `s` to `t` puts nothing on its port's record, or one of the responses of `i`. -/
def Emits (i : Instr) (s t : State) : Prop :=
  t.here.done = s.here.done ∨ ∃ r, ResponseOf i r ∧ t.here.done = s.here.done ++ [{ req := some i, resp := r }]

theorem Emits.goesOn {ph : Phase} (hd : u.here.done = s.here.done) : Emits i s (goto ph u) :=
  .inl (by rw [goto_here, hd])

theorem Emits.answers (hr : ResponseOf i r) (hd : u.here.done = s.here.done) : Emits i s (respond (some i) r u) :=
  .inr ⟨r, hr, by rw [respond_here, hd]⟩

theorem execPush_emits {item : Elem} (h : execPush item s = .next t) : Emits (.push item) s t := by
  obtain ⟨-, rfl⟩ | ⟨-, -, rfl⟩ | ⟨-, -, -, rfl⟩ | ⟨-, -, -, rfl⟩ | ⟨-, -, rfl⟩ | ⟨-, -, rfl⟩ := execPush_next h
  · exact .answers .illegal rfl
  · exact .goesOn (by simp)
  · exact .answers (.ok rfl) (by simp)
  · exact .goesOn (by simp)
  · exact .goesOn (by simp)
  · exact .answers (.ok rfl) (by simp)

theorem execPushb_emits {cnt : Nat} {items : List Elem} (h : execPushb cnt items s = .next t) :
    Emits (.pushb cnt items) s t := by
  obtain ⟨-, rfl⟩ | ⟨-, -, rfl⟩ | ⟨-, -, -, rfl⟩ | ⟨-, -, -, rfl⟩ | ⟨-, -, e, -, rfl⟩ | ⟨-, -, rfl⟩ :=
    execPushb_next h
  · exact .answers .illegal rfl
  · exact .goesOn (by simp)
  · exact .answers (.ok rfl) (by simp)
  · exact .goesOn (by simp)
  · exact .goesOn (by simp)
  · exact .answers (.ok rfl) (by simp)

theorem execPop_emits (h : execPop s = .next t) : Emits .pop s t := by
  obtain ⟨-, rfl⟩ | ⟨-, -, rfl⟩ | ⟨-, -, -, rfl⟩ | ⟨-, -, -, rfl⟩ | ⟨-, -, e, -, rfl⟩ | ⟨-, -, e, -, rfl⟩ :=
    execPop_next h
  · exact .answers .illegal rfl
  · exact .goesOn (by simp)
  · exact .answers (.ok rfl) (by simp)
  · exact .goesOn (by simp)
  · exact .goesOn (by simp)
  · exact .answers (.ok rfl) (by simp)

theorem execPopb_emits {cnt : Nat} (h : execPopb cnt s = .next t) : Emits (.popb cnt) s t := by
  obtain ⟨-, rfl⟩ | ⟨-, -, rfl⟩ | ⟨-, -, -, rfl⟩ | ⟨-, -, -, rfl⟩ | ⟨-, -, e, -, rfl⟩ | ⟨-, -, rfl⟩ :=
    execPopb_next h
  · exact .answers .illegal rfl
  · exact .goesOn (by simp)
  · exact .answers (.ok rfl) (by simp)
  · exact .goesOn (by simp)
  · exact .goesOn (by simp)
  · exact .answers (.ok rfl) (by simp)

theorem queryStep_emits {f : Config → Nat → Nat → Nat} (h : queryStep i f s = .next t) : Emits i s t := by
  obtain ⟨p, rfl, -, -, ⟨-, hd⟩ | ⟨-, n, hd⟩⟩ := queryStep_next h
  · exact .inl (by rw [State.setHere_here, hd])
  · exact .inr ⟨.okRet n, .ok rfl, by rw [State.setHere_here, hd]⟩

theorem checksumStep_emits {addr len : Nat} {answer : Word32 → Response}
    (hi : i.op = .crc32 ∨ i.op = .mkmsg ∨ i.op = .verify) (hok : ∀ c, (answer c).status = .ok)
    (h : checksumStep i addr len answer s = .next t) : Emits i s t := by
  obtain ⟨p, rfl, -, -, ⟨-, hd⟩ | ⟨-, hd⟩ | ⟨-, -, hd⟩⟩ := checksumStep_next h
  · exact .inl (by rw [State.setHere_here, hd])
  · exact .inr ⟨_, .payloadFault hi, by rw [State.setHere_here, hd]⟩
  · exact .inr ⟨_, .ok (hok _), by rw [State.setHere_here, hd]⟩

/-- Whatever command is in flight, its micro-step emits nothing or one of the command's responses. -/
theorem exec_emits (h : exec i s = .next t) : Emits i s t := by
  cases i with
  | push item => exact execPush_emits h
  | pushb cnt items => exact execPushb_emits h
  | pop => exact execPop_emits h
  | popb cnt => exact execPopb_emits h
  | isempty => rw [exec, execIsempty] at h; exact queryStep_emits h
  | isfull => rw [exec, execIsfull] at h; exact queryStep_emits h
  | size => rw [exec, execSize] at h; exact queryStep_emits h
  | crc32 addr len => rw [exec, execCrc32] at h; exact checksumStep_emits (.inl rfl) (fun _ => rfl) h
  | mkmsg id ts topic flags addr len =>
    rw [exec, execMkmsg] at h; exact checksumStep_emits (.inr (.inl rfl)) (fun _ => rfl) h
  | verify msg => rw [exec, execVerify] at h; exact checksumStep_emits (.inr (.inr rfl)) (fun _ => rfl) h
  | cap | fset | fclr | ftst => cases h; exact .answers (.ok rfl) rfl

theorem Emits.responseOf (h : Emits i s t) (hd : t.here.done = s.here.done ++ [d]) : ResponseOf i d.resp := by
  obtain hnone | ⟨r, hr, hsome⟩ := h
  · simp [hnone] at hd
  · obtain rfl : { req := some i, resp := r } = d := by simpa [hsome] using hd
    exact hr

/-! ### One response per command, and none with an effect but `ST_OK` (60_exceptions R232, R233) -/

/-- Settles O54: of the effects a micro-step can have, two leave the command in flight and three answer it. -/
theorem oneResponsePerCommand : Obligations.OneResponsePerCommand := by
  unfold Obligations.OneResponsePerCommand
  intro s t i hexec
  obtain ⟨u, p, rfl, -, -, he⟩ := exec_microStep hexec
  rw [State.setHere_here]
  cases he with
  | goesOn hb hd | writesSlot _ _ hb hd => exact .inl ⟨hb, hd⟩
  | answers _ hb hd | publishes _ _ hb hd | releases _ _ hb hd => exact .inr ⟨hb, _, hd⟩

/-- The micro-steps that store a cursor answer `ST_OK`, and the one that writes a slot answers nothing: any other response
comes with an update of the port alone. -/
theorem MicroStep.eq_setHere_of_status_ne_ok (h : MicroStep i s t) (hd : t.here.done = s.here.done ++ [d])
    (hne : d.resp.status ≠ .ok) : ∃ p : PortState, p.busy = false ∧ t = s.setHere p := by
  obtain ⟨u, p, rfl, -, -, he⟩ := h
  rw [State.setHere_here] at hd
  cases he with
  | goesOn _ hp | writesSlot _ _ _ hp => simp [hp] at hd
  | answers _ hb _ => exact ⟨p, hb, rfl⟩
  | publishes _ _ _ hp =>
    obtain rfl : _ = d := by simpa [hp] using hd
    exact absurd rfl hne
  | releases _ hrel _ hp =>
    obtain rfl : _ = d := by simpa [hp] using hd
    cases hrel <;> exact absurd rfl hne

/-- Settles O53: the update is of the port alone, and the response is one of the two of a fixed form. -/
theorem errorResponsesHaveNoEffect : Obligations.ErrorResponsesHaveNoEffect := by
  unfold Obligations.ErrorResponsesHaveNoEffect
  intro s t i d hexec hd hne
  have hresp := (exec_emits hexec).responseOf hd
  obtain ⟨p, hb, rfl⟩ := (exec_microStep hexec).eq_setHere_of_status_ne_ok hd hne
  obtain ⟨hret, hextra, hpayload⟩ := hresp.of_status_ne_ok hne
  exact ⟨by simp, by simp, by simp, by simp, hret, hextra, by simpa using hb, hpayload⟩

/-! ### The record of responses (60_exceptions R252) -/

/-- All that was answered since construction, what a reset put aside included. -/
def onRecord (s : State) : List Done := s.past ++ s.portP.done ++ s.portC.done

theorem received_eq_true_iff (st : Status) (s : State) :
    received st s = true ↔ ∃ d ∈ onRecord s, d.resp.status = st := by
  simp only [received, onRecord, List.any_eq_true, beq_iff_eq]

theorem onRecord_subset_of_prefix (hpast : t.past = s.past) (hdone : ∀ x, (s.port x).done <+: (t.port x).done) :
    onRecord s ⊆ onRecord t := by
  intro d
  simp only [onRecord, hpast, List.mem_append]
  exact Or.imp (Or.imp_right fun h => (hdone .P).subset h) fun h => (hdone .C).subset h

theorem onRecord_subset_setHere {p : PortState} (h : s.here.done <+: p.done) :
    onRecord s ⊆ onRecord (s.setHere p) := by
  refine onRecord_subset_of_prefix (State.setHere_past s p) fun x => ?_
  by_cases hx : x = s.turn
  · subst hx
    rwa [State.setHere, State.setPort_port_same]
  · rw [State.setHere_port_other s p x hx]

theorem exec_onRecord (h : exec i s = .next t) : onRecord s ⊆ onRecord t := by
  obtain ⟨-, -, -, -, -, -, hpast, -⟩ := microStepFrame s t i h
  exact onRecord_subset_of_prefix hpast (exec_microStep h).done_prefix

@[simp] theorem onRecord_draw (s : State) : onRecord (draw s).2 = onRecord s := by simp [onRecord]

@[simp] theorem onRecord_resetBlock (s : State) : onRecord (resetBlock s) = onRecord s := by
  simp [onRecord, PortState.idle]

/-- Whatever a fetch comes to, it takes nothing off the record. -/
def FetchKeepsRecord (s : State) : Fetched → Prop
  | .moved t => onRecord s ⊆ onRecord t
  | .run _ t => onRecord s ⊆ onRecord t
  | .stop _ => True

theorem fetchHost_keepsRecord (s : State) : FetchKeepsRecord s (fetchHost s) := by
  cases hf : fetchHost s with
  | moved t =>
    obtain ⟨-, rfl⟩ | ⟨a, b, rest, -, -, rfl⟩ | ⟨a, rest, -, -, rfl⟩ | ⟨rest, -, rfl⟩ := fetchHost_moved hf
    · exact List.Subset.refl _
    · exact List.Subset.refl _
    · exact List.Subset.refl _
    · rw [FetchKeepsRecord, onRecord_resetBlock]; exact List.Subset.refl _
  | run i u => exact absurd hf fetchHost_ne_run
  | stop r => trivial

theorem fetchPacket_keepsRecord (pkt : List Byte) (s : State) : FetchKeepsRecord s (fetchPacket pkt s) := by
  obtain ⟨-, hf⟩ | ⟨-, ⟨i, -, hf⟩ | ⟨r, -, hf⟩⟩ := fetchPacket_cases pkt s <;> rw [hf]
  · exact onRecord_subset_setHere (List.prefix_append _ _)
  · exact onRecord_subset_setHere List.prefix_rfl
  · trivial

theorem FetchKeepsRecord.of_subset {f : Fetched} (h : FetchKeepsRecord u f) (hsub : onRecord s ⊆ onRecord u) :
    FetchKeepsRecord s f := by
  cases f with
  | moved t | run i t => exact List.Subset.trans hsub h
  | stop r => trivial

theorem fetchPort_keepsRecord (x : Port) (s : State) : FetchKeepsRecord s (fetchPort x s) := by
  obtain ⟨-, hf⟩ | ⟨-, -, hf⟩ | ⟨-, pkt, lines, -, hf⟩ := fetchPort_cases x s <;> rw [hf]
  · exact List.Subset.refl _
  · exact List.Subset.refl _
  · exact (fetchPacket_keepsRecord pkt _).of_subset
      (onRecord_subset_setHere (s := { s with turn := x }) List.prefix_rfl)

theorem fetch_keepsRecord (s : State) : FetchKeepsRecord s (fetch s) := by
  have hdraw : onRecord s ⊆ onRecord (draw s).2 := by rw [onRecord_draw]; exact List.Subset.refl _
  cases ha : (draw s).1 with
  | host => rw [fetch_of_host ha]; exact (fetchHost_keepsRecord _).of_subset hdraw
  | port x => rw [fetch_of_port ha]; exact (fetchPort_keepsRecord x _).of_subset hdraw

theorem step_onRecord (h : step s = .next t) : onRecord s ⊆ onRecord t := by
  have hfetch := fetch_keepsRecord s
  obtain hmoved | ⟨i, u, hrun, hexec⟩ := step_cases h
  · rwa [hmoved] at hfetch
  · rw [hrun] at hfetch
    exact List.Subset.trans hfetch (exec_onRecord hexec)

/-- Settles O58: no step takes a response off the record, and the classes of runs are read off it. -/
theorem errorRunsNeverEndNormally : Obligations.ErrorRunsNeverEndNormally := by
  unfold Obligations.ErrorRunsNeverEndNormally
  refine ⟨fun s t st h hrec => ?_, fun s hrec => ⟨hrec, ?_⟩, fun s hrec => ⟨hrec, ?_⟩⟩
  · rw [received_eq_true_iff] at hrec ⊢
    obtain ⟨d, hmem, hst⟩ := hrec
    exact ⟨d, step_onRecord h hmem, hst⟩
  · simp [normalEnd, faultedRun, hrec]
  · simp [normalEnd, refusedRun, hrec]

/-! ### The draw and the idle turn (60_exceptions R245, R249) -/

/-- A port that is idle, with a master that presents nothing, only takes the turn. -/
theorem fetchPort_of_nothing_presented {x : Port} (hidle : (s.port x).busy = false)
    (hpres : present s.cfg (lastRet (s.port x)) (s.port x).lines = none) :
    fetchPort x s = .moved { s with turn := x } := by
  have hhere : State.here { s with turn := x } = s.port x := by cases x <;> rfl
  obtain ⟨hbusy, -⟩ | ⟨-, -, hf⟩ | ⟨-, pkt, lines, hsome, -⟩ := fetchPort_cases x s
  · rw [hhere, hidle] at hbusy
    cases hbusy
  · exact hf
  · rw [hhere, hpres] at hsome
    cases hsome

/-- Settles O17: the draw is made, the port takes the turn, and there is nothing to take up. -/
theorem idleTurnChangesNothing : Obligations.IdleTurnChangesNothing := by
  unfold Obligations.IdleTurnChangesNothing
  intro s x sched hsched hidle hpres
  have hport : State.port { s with sched := sched, tick := s.tick + 1 } x = s.port x := by cases x <;> rfl
  rw [step, fetch_of_sched hsched,
    fetchPort_of_nothing_presented (by rw [hport, hidle]) (by rw [hport, hpres])]

/-- Past its end the schedule counts as one entry, the free value. -/
theorem draw_of_sched_nil (h : s.sched = []) : draw s = draw { s with sched := [Config.freeAgent s.tick] } := by
  cases s; cases h; rfl

/-- Settles O19: the two states draw the same agent and leave the same state. -/
theorem pastTheScheduleTheChoiceIsFree : Obligations.PastTheScheduleTheChoiceIsFree := by
  unfold Obligations.PastTheScheduleTheChoiceIsFree
  intro s h
  rw [step, step, fetch, fetch, draw_of_sched_nil h]

end Sys2Proof.Machine
end

section
/-! PROOFS, spec/70_reset_and_hazards.md: what construction accepts and leaves, what the host's reset leaves, and that no
step changes the configuration. -/

namespace Sys2Proof.Machine

variable {s t : State}

/-! ### Construction (70_reset R263, R265) -/

section
variable {cap elemBits cntBits paddrBits : Nat} {crc : CrcVariant} {flags : FlagMap}

/-- At a power of two the generator takes the exponent; what is left to check is the record (00_scope R8). -/
theorem constructConfig_two_pow (K : Nat) :
    constructConfig (2 ^ K) elemBits cntBits paddrBits crc flags =
      if (Config.mk K elemBits cntBits paddrBits crc flags).wf then .ok ⟨K, elemBits, cntBits, paddrBits, crc, flags⟩
      else .error .illegalParameter := by
  simp [constructConfig, Nat.log2_two_pow]

/-- The generator's test fails on every other number: it asks for a power of two. -/
theorem constructConfig_of_not_two_pow (h : ∀ K, cap ≠ 2 ^ K) :
    constructConfig cap elemBits cntBits paddrBits crc flags = .error .notPowerOfTwo :=
  if_neg (h _).symm

end

/-- Settles O12: by whether the capacity is a power of two. -/
theorem onlyPowersOfTwoAreCapacities : Obligations.OnlyPowersOfTwoAreCapacities := by
  unfold Obligations.OnlyPowersOfTwoAreCapacities
  intro cap elemBits cntBits paddrBits crc flags
  refine ⟨?_, constructConfig_of_not_two_pow, fun c hc => ?_⟩
  · rintro K rfl hwf
    rw [constructConfig_two_pow, if_pos hwf]
  · by_cases hpow : ∃ K, cap = 2 ^ K
    · obtain ⟨K, rfl⟩ := hpow
      rw [constructConfig_two_pow] at hc
      split at hc
      next hwf => cases hc; exact ⟨rfl, hwf⟩
      next => cases hc
    · rw [constructConfig_of_not_two_pow (not_exists.1 hpow)] at hc
      cases hc

/-- Settles O9: both ports are idle and the ring is empty, whatever the environment. -/
theorem constructedInstanceMeetsInv : Obligations.ConstructedInstanceMeetsInv := by
  unfold Obligations.ConstructedInstanceMeetsInv
  intro c linesP linesC host sched mem
  exact inv_construct linesP linesC host sched

/-! ### The reset by the host (70_reset R260, R261) -/

/-- Settles O11: the host's action is `resetBlock`, on the state the draw leaves. -/
theorem hostResetResetsTheBlock : Obligations.HostResetResetsTheBlock := by
  unfold Obligations.HostResetResetsTheBlock
  intro s sched host hs hh
  have hact : hostAct .reset { s with sched := sched, tick := s.tick + 1, host := host } =
      .moved (resetBlock { s with sched := sched, tick := s.tick + 1, host := host }) := rfl
  exact step_hostAct hs hh hact

/-! ### The configuration (70_reset R262) -/

/-- None of the host's actions names the configuration. -/
theorem fetchHost_cfg (h : fetchHost s = .moved t) : t.cfg = s.cfg := by
  obtain ⟨-, rfl⟩ | ⟨_, _, _, -, -, rfl⟩ | ⟨_, _, -, -, rfl⟩ | ⟨_, -, rfl⟩ := fetchHost_moved h <;> rfl

/-- Settles O59: by who moves, and for a port by whether it takes a micro-step. -/
theorem configurationNeverChanges : Obligations.ConfigurationNeverChanges := by
  unfold Obligations.ConfigurationNeverChanges
  intro s t h
  obtain ⟨-, hhost⟩ | ⟨x, -, hkeeps | ⟨i, u, -, hkeeps, -, hexec⟩⟩ := step_agent_cases h
  · exact (fetchHost_cfg hhost).trans (draw_cfg s)
  · exact hkeeps.cfg
  · exact (exec_microStep hexec).cfg_eq.trans hkeeps.cfg

end Sys2Proof.Machine
end
